-- ==== Sys2Proof/Word.lean ====
section
/-! DEFINITION. The words of the machine (00_scope.md R9, R11): every width is the value the spec takes. -/

namespace Sys2Proof

/-- One byte of data memory, of the shift register, of a `Write` (R29, R60, R81). -/
abbrev Byte := BitVec 8

/-- A data address, `P_ADDR_W` = 16 bits (R9). -/
abbrev Addr := BitVec 16

/-- A packed command word, `P_CMD_W` = 16 bits (R9, R80). -/
abbrev CmdWord := BitVec 16

/-- A count of commands, `P_LEN_W` = 16 bits (R9). -/
abbrev CmdCount := BitVec 16

/-- The wake mask and the sleep/wake status, `P_WAKE_W` = 16 bits (R9). -/
abbrev WakeBits := BitVec 16

/-- The 3-bit code of a protocol state (R21, R88). -/
abbrev StateCode := BitVec 3

/-- A number of bits the engine can be armed with, 0 to 8 (R30). -/
abbrev BitCount := Fin 9

end Sys2Proof
end

