-- ==== Sys2Proof/Config.lean ====
section
/-! DEFINITION. What the spec fixes as a parameter (00_scope.md R9), what it leaves open, and the moves the outside world can make.
The parameters a claim must hold for at every value are the fields of `Params`, which `State` holds. -/

namespace Sys2Proof

namespace Config

/-- `P_RESTART`, the packed code of `Restart` (R82). -/
def restartWord : CmdWord := 0x0100#16

/-- `P_READ`, the packed code of `Read` (R83). -/
def readWord : CmdWord := 0x0200#16

/-- `P_RXBIT`, the bit of the shift register that `HandleRxTx` tests (R33). -/
def rxBit : Nat := 0

/-- One past the highest data address: `2^P_ADDR_W` (R60). -/
def memSize : Nat := 0x10000

/-- `P_STATE_CODE` (R88): the code of each protocol state. -/
def idleCode : StateCode := 0#3
def startCode : StateCode := 1#3
def prepareAckNackCode : StateCode := 2#3
def handleRxTxCode : StateCode := 3#3
def receivedDataCode : StateCode := 4#3
def prepareStopCode : StateCode := 5#3
def stopCode : StateCode := 6#3
/-- The code no rule writes (R21, R88). -/
def reservedCode : StateCode := 7#3

end Config

/-- `P_RESERVED_POLICY` (R9, D4): what a reserved command word does. -/
inductive ReservedPolicy where
  | fault
  | writeLowByte
deriving DecidableEq, Repr

/-- `P_READBACK` (R9, R112, D16): the law between driven and sampled bits. -/
inductive Readback where
  | free
  | wiredAnd
deriving DecidableEq, Repr

/-- The parameters the spec leaves OPEN (D4, D16, D23): arguments of the model, held in `State`, so that a claim about every state
is a claim about every value of them (log 10). -/
structure Params where
  reservedPolicy : ReservedPolicy
  readback : Readback
  /-- `P_SLEEP_BITS`: the bits of `P.wake_status` that put the host to sleep (R221, D23). -/
  sleepBits : WakeBits
deriving DecidableEq, Repr

/-- The context a host call is made from (R192, R220). -/
inductive Context where
  | normal
  | handler
deriving DecidableEq, Repr

/-- The engine fields that power-on and `init` leave unspecified (R41, R191): a draw (log 8). -/
structure EngineDraw where
  oe : Bool
  sr : Byte
  cnt : BitCount
  ge : Bool
deriving DecidableEq, Repr

/-- The operands of `send_sequence` (R192): command base and count, receive buffer, wake mask, and the ghost buffer size. -/
structure SendArgs where
  cmdBase : Addr
  cmdCount : CmdCount
  rxBase : Addr
  wakeMask : WakeBits
  rxCap : Nat
deriving DecidableEq, Repr

/-- What the host can do in normal context (R190 to R198, R72, R73, R220, R221). -/
inductive HostOp where
  /-- `init` with its opaque selectors (R190) and the values it leaves unspecified (R191). -/
  | init (div src : Nat) (after : EngineDraw)
  /-- The call step of `send_sequence` (R193). -/
  | send (args : SendArgs)
  /-- One iteration of the busy-wait of a call in progress: it installs once the state is `Idle` (R193, R194). -/
  | spin
  /-- `done()` (R196). -/
  | done
  /-- A read of one byte of data memory; during a transaction, of the receive buffer (R73, R198). -/
  | readByte (a : Addr)
  /-- A write of one byte of data memory; during a transaction, into one of the two regions, which is a fault (R72, R198). -/
  | writeByte (a : Addr) (v : Byte)
  /-- A write of the global interrupt enable (R35, R198). -/
  | setGie (on : Bool)
  /-- Entering a low-power sleep by setting bits of the sleep/wake status (R198, R221, R255); any bits (log 13). -/
  | sleep (bits : WakeBits)
deriving DecidableEq, Repr

/-- The fields that are unspecified at power-on (R41), and the contents of data memory then: a draw (log 9). -/
structure PowerOnDraw where
  cmdPtr : Addr
  cmdLen : CmdCount
  rxPtr : Addr
  wakeMask : WakeBits
  engine : EngineDraw
  flag : Bool
  gie : Bool
  wakeStatus : WakeBits
  mem : List (Nat × Byte)
deriving DecidableEq, Repr

/-- A call made from handler context (R192, R196, R220). -/
inductive HandlerCall where
  /-- `send_sequence`, which is forbidden there (R193, R253). -/
  | send (args : SendArgs)
  /-- `done()`, which is admitted there (R196). -/
  | done
deriving DecidableEq, Repr

/-- One step of one agent (D1): the handler, the engine with the bits it samples (R111, R112), the host, or a power-on reset (R243). -/
inductive Move where
  /-- One whole invocation, from the taking of the event to the return (R210, R217, R220), with the call that code of the host's makes in it, if
  any (log 31). -/
  | handler (call : Option HandlerCall)
  | engine (sampled : Byte)
  | host (op : HostOp)
  | powerOn (draw : PowerOnDraw)
deriving DecidableEq, Repr, Inhabited

/-- The free schedule (D1, D17): the move number `n` once a state's own list of moves is used up. Nothing constrains it (log 6). -/
opaque Config.freeMove : Nat → Move

end Sys2Proof
end

