-- ==== Sys2Proof/Syntax.lean ====
section
/-! DEFINITION. The instructions: one constructor per row of spec/opcode_table.json (00_scope.md R3). -/

namespace Sys2Proof

/-- The ten rows. The first three are command words (format CMD16, R80 to R83), the other seven are the protocol states, each of
which selects a handler (format STATE3, R88). -/
inductive Instr where
  /-- `Write(b)`, R81, R132. -/
  | write (b : Byte)
  /-- `Restart`, R82, R134. -/
  | restart
  /-- `Read`, R83, R133. -/
  | read
  /-- `Idle`, R151. -/
  | idle
  /-- `Start`, R152. -/
  | start
  /-- `PrepareAckNack`, R153. -/
  | prepareAckNack
  /-- `HandleRxTx`, R154. -/
  | handleRxTx
  /-- `ReceivedData`, R156. -/
  | receivedData
  /-- `PrepareStop`, R157. -/
  | prepareStop
  /-- `Stop`, R158. -/
  | stop
deriving DecidableEq, Repr

end Sys2Proof
end

