-- ==== Sys2Proof/WellFormed.lean ====
section
/-! DEFINITION. Well-formedness of instructions and of command sequences. -/

namespace Sys2Proof

/-- The two formats of the opcode table: a 16-bit command word (R80), and a 3-bit state code (R88). -/
inductive Format where
  | cmd16
  | state3
deriving DecidableEq, Repr

/-- The format of each row. -/
def formatOf (i : Instr) : Format :=
  match i with
  | .write _ => .cmd16
  | .restart => .cmd16
  | .read => .cmd16
  | .idle => .state3
  | .start => .state3
  | .prepareAckNack => .state3
  | .handleRxTx => .state3
  | .receivedData => .state3
  | .prepareStop => .state3
  | .stop => .state3

/-- Whether an instruction is well formed. The only operand is the byte of `Write`, whose type is exactly the range 0 to 255 that
R81 gives, so the type leaves nothing to check. -/
def wellFormed (i : Instr) : Bool :=
  match i with
  | .write _ => true
  | .restart => true
  | .read => true
  | .idle => true
  | .start => true
  | .prepareAckNack => true
  | .handleRxTx => true
  | .receivedData => true
  | .prepareStop => true
  | .stop => true

/-- A command sequence holds command words only (R86): a state code is no command. -/
def onlyCommands (l : List Instr) : Bool :=
  l.all (fun i => formatOf i == .cmd16)

/-- A command sequence's count fits the 16 bits of `S.cmd_len` (R22, R86). -/
def countFits (l : List Instr) : Bool :=
  decide (l.length < 2 ^ 16)

/-- A well-formed command sequence (R86). -/
def wellFormedSequence (l : List Instr) : Bool :=
  onlyCommands l && countFits l && l.all wellFormed

end Sys2Proof
end

