-- ==== Sys2Proof/Decode.lean ====
section
/-! DEFINITION. Decoding and encoding (30_encoding.md R80 to R88): total on any bytes, rejecting by name. -/

namespace Sys2Proof

/-- The logical sum type of commands, which the source prefers (R87): what the advance runs. -/
inductive Command where
  | write (b : Byte)
  | read
  | restart
deriving DecidableEq, Repr

/-- Why bytes are no instruction. -/
inductive DecodeError where
  /-- A command word that is none of `Write`, `Restart`, `Read` (R84). -/
  | reservedCommand (w : CmdWord)
  /-- The state code 7 (R88). -/
  | reservedState (c : StateCode)
  /-- Fewer bytes than the format has. -/
  | truncated
deriving DecidableEq, Repr

/-- The row of the opcode table a command is. -/
def commandInstr (c : Command) : Instr :=
  match c with
  | .write b => .write b
  | .read => .read
  | .restart => .restart

/-- `w[15:8]`, the tag (R80). -/
def tagOf (w : CmdWord) : Byte := w.extractLsb' 8 8

/-- `w[7:0]`, the data (R80). -/
def dataOf (w : CmdWord) : Byte := w.extractLsb' 0 8

/-- R85: the decode function of command words, total on all 65536 of them. -/
def decodeCommand (w : CmdWord) : Except DecodeError Command :=
  if tagOf w = 0x00#8 then .ok (.write (dataOf w))
  else if w = Config.restartWord then .ok .restart
  else if w = Config.readWord then .ok .read
  else .error (.reservedCommand w)

/-- R88: the state a code selects; code 7 is reserved. -/
def decodeState (c : StateCode) : Except DecodeError Instr :=
  if c = Config.idleCode then .ok .idle
  else if c = Config.startCode then .ok .start
  else if c = Config.prepareAckNackCode then .ok .prepareAckNack
  else if c = Config.handleRxTxCode then .ok .handleRxTx
  else if c = Config.receivedDataCode then .ok .receivedData
  else if c = Config.prepareStopCode then .ok .prepareStop
  else if c = Config.stopCode then .ok .stop
  else .error (.reservedState c)

/-- A 16-bit word from its two bytes in memory order: `P_ENDIAN` is little (R61, R67). -/
def wordOfBytes (lo hi : Byte) : CmdWord := hi ++ lo

/-- Decodes the bytes at the front of a list, and gives the rest. A state code stands in the low three bits of its byte: the
opcode table's mask for it is 0x7 (log 15). -/
def decode (f : Format) (bytes : List Byte) : Except DecodeError (Instr × List Byte) :=
  match f, bytes with
  | .cmd16, lo :: hi :: rest =>
    match decodeCommand (wordOfBytes lo hi) with
    | .ok c => .ok (commandInstr c, rest)
    | .error e => .error e
  | .cmd16, _ => .error .truncated
  | .state3, b :: rest =>
    match decodeState (b.setWidth 3) with
    | .ok i => .ok (i, rest)
    | .error e => .error e
  | .state3, [] => .error .truncated

/-- The packed word of a command (R81 to R83). -/
def encodeCommand (c : Command) : CmdWord :=
  match c with
  | .write b => 0x00#8 ++ b
  | .restart => Config.restartWord
  | .read => Config.readWord

/-- A word's two bytes in memory order (R61). -/
def bytesOfWord (w : CmdWord) : List Byte := [w.extractLsb' 0 8, w.extractLsb' 8 8]

/-- A state code in a byte of its own, the upper bits zero (log 15). -/
def bytesOfCode (c : StateCode) : List Byte := [c.setWidth 8]

/-- The bytes of an instruction (R81 to R83, R88). -/
def encode (i : Instr) : List Byte :=
  match i with
  | .write b => bytesOfWord (encodeCommand (.write b))
  | .restart => bytesOfWord (encodeCommand .restart)
  | .read => bytesOfWord (encodeCommand .read)
  | .idle => bytesOfCode Config.idleCode
  | .start => bytesOfCode Config.startCode
  | .prepareAckNack => bytesOfCode Config.prepareAckNackCode
  | .handleRxTx => bytesOfCode Config.handleRxTxCode
  | .receivedData => bytesOfCode Config.receivedDataCode
  | .prepareStop => bytesOfCode Config.prepareStopCode
  | .stop => bytesOfCode Config.stopCode

/-- The format of a row the table gives `nbits` bits in whole bytes: a STATE3 row has one byte, a CMD16 row has two. -/
def formatOfBits (nbits : Nat) : Format :=
  if nbits ≤ 8 then .state3 else .cmd16

/-- The bytes of a table word as memory stores them. -/
def bytesOfTableWord (nbits w : Nat) : List Byte :=
  match formatOfBits nbits with
  | .state3 => [BitVec.ofNat 8 w]
  | .cmd16 => bytesOfWord (BitVec.ofNat 16 w)

/-- The instruction the decoder reads from a word of the opcode table. -/
def decodeTableWord (nbits w : Nat) : Option Instr :=
  match decode (formatOfBits nbits) (bytesOfTableWord nbits w) with
  | .ok (i, _) => some i
  | .error _ => none

end Sys2Proof
end

