-- ==== Sys2Proof/Machine/State.lean ====
section
/-! DEFINITION. The machine's state as plain data: `S`, `E`, `P`, `M` of 10_state.md, data memory, the host's call in progress, and
the model's own fields. -/

namespace Sys2Proof.Machine

/-- The ten model faults of R213, each with the value it records. A fault is sticky: it is recorded in `M.fault` by the step that
raises it, and every later step answers it (R39, R214, log 11). All are safe: the model stops where the source calls the behaviour
undefined. -/
inductive Fault where
  /-- Code 1, raised by the advance (R136): the reserved word and its address. Safe: the hardware may go on. -/
  | reservedCommand (word : CmdWord) (at_ : Addr)
  /-- Code 2, raised by `ReceivedData` (R65, R156): the cursor. Safe: the hardware would overrun the buffer. -/
  | rxOverflow (rxPtr : Addr)
  /-- Code 3, raised by the dispatch of an invocation (R150): the code. Safe: no rule writes that code. -/
  | badState (code : StateCode)
  /-- Code 4, raised by `init` (R190). Safe: a second call breaks the host's duty (R197). -/
  | initTwice
  /-- Code 5, raised by the call step of `send_sequence` (R193). Safe: a call before `init` breaks the host's duty (R197). -/
  | notInitialised
  /-- Code 6, raised by the call step of `send_sequence` (R193, R253). Safe: the call is forbidden in handler context. -/
  | sendFromHandler
  /-- Code 7, raised by the install step (R64, R193): the command base. Safe. -/
  | misalignedCommands (cmdBase : Addr)
  /-- Code 8, raised by the install step (R193): the command base and count. Safe. -/
  | commandRegionWraps (cmdBase : Addr) (cmdCount : CmdCount)
  /-- Code 9, raised by the install step (R193): the receive base and size. Safe. -/
  | rxRegionWraps (rxBase : Addr) (rxCap : Nat)
  /-- Code 10, raised by a host write (R72): the address. Safe: the write breaks the host's duty (R256). -/
  | commandRegionWritten (addr : Addr)
deriving DecidableEq, Repr

/-- Why a step has no meaning. -/
inductive Refusal where
  /-- An instruction that has no meaning yet; raised by `exec`'s arms only, and by none of them in this model. Safe. -/
  | notModelled (mnemonic : String)
deriving DecidableEq, Repr

/-- A record of the port trace (R101). -/
inductive Record where
  | drive (b : Bool)
  | load (v : Byte)
  | read (v : Byte)
  | arm (n : BitCount)
  | gateOpen
  | gateClose
  | clear
  | kick
  | group (n : BitCount) (oe : Bool) (sr0 : Byte) (sampled : Byte)
  | rxWrite (addr : Addr) (b : Byte)
  | wake (mask : WakeBits)
  | init (div src : Nat)
deriving DecidableEq, Repr

/-- `S`, the Transaction State (R20 to R26). -/
structure TransState where
  /-- The protocol state's code (R21). -/
  state : StateCode
  /-- The byte address of the first unconsumed command (R22). -/
  cmdPtr : Addr
  /-- The number of unconsumed commands (R22). -/
  cmdLen : CmdCount
  /-- The receive cursor (R23). -/
  rxPtr : Addr
  /-- The sleep/wake bits to clear on completion (R24). -/
  wakeMask : WakeBits
deriving DecidableEq, Repr

/-- `E`, the engine port registers (R28 to R32). -/
structure EnginePorts where
  /-- The data line is driven (R28). -/
  oe : Bool
  /-- The shift register (R29). -/
  sr : Byte
  /-- The armed bit count, 0 when no group is armed (R30). -/
  cnt : BitCount
  /-- The latch gate is open (R31). -/
  ge : Bool
  /-- The completion flag (R32). -/
  flag : Bool
deriving DecidableEq, Repr

/-- `P`, the platform state (R35, R36). -/
structure Platform where
  gie : Bool
  wakeStatus : WakeBits
deriving DecidableEq, Repr

/-- `M.cmd_base` and `M.cmd_count`, the installed command region (R38). -/
structure CmdRegion where
  base : Addr
  count : CmdCount
deriving DecidableEq, Repr

/-- `M.rx_base` and `M.rx_cap`, the declared receive buffer (R38). -/
structure RxRegion where
  base : Addr
  cap : Nat
deriving DecidableEq, Repr

/-- `M`, the spec's bookkeeping (R37 to R40). -/
structure Book where
  inited : Bool
  cmdRegion : Option CmdRegion
  rxRegion : Option RxRegion
  fault : Option Fault
  trace : List Record
deriving DecidableEq, Repr

/-- What a host operation hands to its caller: the only two things the host receives back (R198). -/
inductive HostResult where
  | none
  | isIdle (b : Bool)
  | byte (v : Byte)
deriving DecidableEq, Repr

/-- The host agent: the call that spins (R193, R194), and the model's own record of what it last received (log 14). -/
structure HostAgent where
  pending : Option SendArgs
  result : HostResult
deriving DecidableEq, Repr

/-- The model's own: the OPEN parameters (log 10), the moves to come, and the free schedule's counter (log 5, 6). -/
structure Environment where
  params : Params
  agenda : List Move
  turn : Nat
deriving DecidableEq, Repr

/-- The whole state. Data memory `mem` is in the canonical form of `Memory.wf`. -/
structure State where
  S : TransState
  E : EnginePorts
  P : Platform
  M : Book
  mem : List Host.Cell
  host : HostAgent
  env : Environment
deriving DecidableEq, Repr

/-- The power-on state (R41, R240). The spec gives `S.state`, `M.inited`, the regions, `M.fault` and `M.trace`. Every other value is a
DESIGN CHOICE named in the log (1, 2, 3, 6, 10, 14). -/
def State.reset : State where
  S := { state := Config.idleCode, cmdPtr := 0#16, cmdLen := 0#16, rxPtr := 0#16, wakeMask := 0#16 }
  E := { oe := false, sr := 0#8, cnt := 0, ge := false, flag := false }
  P := { gie := false, wakeStatus := 0#16 }
  M := { inited := false, cmdRegion := none, rxRegion := none, fault := none, trace := [] }
  mem := []
  host := { pending := none, result := .none }
  env := { params := { reservedPolicy := .fault, readback := .free, sleepBits := 0#16 }, agenda := [], turn := 0 }

end Sys2Proof.Machine
end

