-- ==== Sys2Proof/Machine/Ops.lean ====
section
/-! DEFINITION. The named operations over the state: one update per field, data memory, the port primitives of 40_peripheral.md,
raising a fault (R214) and returning from an invocation (R150, R217). -/

namespace Sys2Proof.Machine

/-! ## One update per piece of state -/

/-- `goto <State>` (R12): `S.state <- code`. -/
def goto (code : StateCode) (s : State) : State := { s with S := { s.S with state := code } }

def setCmdView (ptr : Addr) (len : CmdCount) (s : State) : State := { s with S := { s.S with cmdPtr := ptr, cmdLen := len } }

def setRxPtr (a : Addr) (s : State) : State := { s with S := { s.S with rxPtr := a } }

def setWakeMask (m : WakeBits) (s : State) : State := { s with S := { s.S with wakeMask := m } }

def setOe (b : Bool) (s : State) : State := { s with E := { s.E with oe := b } }

def setSr (v : Byte) (s : State) : State := { s with E := { s.E with sr := v } }

def setCnt (n : BitCount) (s : State) : State := { s with E := { s.E with cnt := n } }

def setGe (b : Bool) (s : State) : State := { s with E := { s.E with ge := b } }

def setFlag (b : Bool) (s : State) : State := { s with E := { s.E with flag := b } }

def setGie (b : Bool) (s : State) : State := { s with P := { s.P with gie := b } }

def setWakeStatus (v : WakeBits) (s : State) : State := { s with P := { s.P with wakeStatus := v } }

def setInited (b : Bool) (s : State) : State := { s with M := { s.M with inited := b } }

def setCmdRegion (r : Option CmdRegion) (s : State) : State := { s with M := { s.M with cmdRegion := r } }

def setRxRegion (r : Option RxRegion) (s : State) : State := { s with M := { s.M with rxRegion := r } }

def setFault (f : Option Fault) (s : State) : State := { s with M := { s.M with fault := f } }

/-- Appends one record to the port trace (R40, R101). -/
def record (r : Record) (s : State) : State := { s with M := { s.M with trace := s.M.trace ++ [r] } }

def setMem (m : List Host.Cell) (s : State) : State := { s with mem := m }

def setPending (p : Option SendArgs) (s : State) : State := { s with host := { s.host with pending := p } }

def setResult (r : HostResult) (s : State) : State := { s with host := { s.host with result := r } }

def setAgenda (l : List Move) (s : State) : State := { s with env := { s.env with agenda := l } }

def setTurn (n : Nat) (s : State) : State := { s with env := { s.env with turn := n } }

/-! ## Data memory (R60 to R62) -/

namespace Memory

/-- What an unlisted address reads as: DESIGN CHOICE (log 4). -/
def unlisted : Byte := 0x00#8

/-- The byte at a key. -/
def get (m : List Host.Cell) (k : Nat) : Byte :=
  match m with
  | [] => unlisted
  | c :: rest => if c.1 = k then c.2 else get rest k

/-- Puts a byte in front of a list whose keys all lie above its own, unless it is what an unlisted address reads as. -/
def putFront (k : Nat) (v : Byte) (m : List Host.Cell) : List Host.Cell :=
  if v = unlisted then m else (k, v) :: m

/-- Writes one byte and keeps the canonical form. -/
def put (m : List Host.Cell) (k : Nat) (v : Byte) : List Host.Cell :=
  match m with
  | [] => putFront k v []
  | c :: rest =>
    if k < c.1 then putFront k v (c :: rest)
    else if k = c.1 then putFront k v rest
    else c :: put rest k v

/-- Every key of the list is above a bound and inside the address space. -/
def keysAbove (k : Nat) (m : List Host.Cell) : Bool :=
  m.all (fun c => decide (k < c.1) && decide (c.1 < Config.memSize))

/-- The canonical form: keys strictly rising and inside the address space, and no entry equal to what an unlisted address reads as. -/
def wf (m : List Host.Cell) : Bool :=
  match m with
  | [] => true
  | c :: rest => decide (c.1 < Config.memSize) && decide (c.2 ≠ unlisted) && keysAbove c.1 rest && wf rest

/-- The byte at an address. -/
def readByte (m : List Host.Cell) (a : Addr) : Byte := get m a.toNat

/-- Writes the byte at an address. -/
def writeByte (m : List Host.Cell) (a : Addr) (v : Byte) : List Host.Cell := put m a.toNat v

/-- `MemRead(addr, n)` (R61): the `n` bytes at `addr, addr+1, …`, the first one least significant, as a number. Addresses are 16-bit
sums (R11, log 17). -/
def read (m : List Host.Cell) (a : Addr) (n : Nat) : Nat :=
  match n with
  | 0 => 0
  | k + 1 => (readByte m a).toNat + 256 * read m (a + 1#16) k

/-- `MemWrite(addr, n, v)` (R62): the `n` low bytes of `v`, the least significant one first. -/
def write (m : List Host.Cell) (a : Addr) (n : Nat) (v : Nat) : List Host.Cell :=
  match n with
  | 0 => m
  | k + 1 => write (writeByte m a (BitVec.ofNat 8 v)) (a + 1#16) k (v / 256)

/-- The canonical memory that a list of cells describes, an earlier entry over a later one (log 9). -/
def ofCells (l : List Host.Cell) : List Host.Cell :=
  match l with
  | [] => []
  | c :: rest => put (ofCells rest) (c.1 % Config.memSize) c.2

end Memory

/-! ## The port primitives (R102 to R110): each appends its record -/

/-- `DriveLine(b)` (R102). -/
def driveLine (b : Bool) (s : State) : State := record (.drive b) (setOe b s)

/-- `LoadSR(v)` (R103). -/
def loadSR (v : Byte) (s : State) : State := record (.load v) (setSr v s)

/-- `ReadSR()` (R104): its effect. The value it returns is `E.sr` (`receivedByte` of Operands.lean). -/
def readSR (s : State) : State := record (.read s.E.sr) s

/-- `GateOpen()` (R105). -/
def gateOpen (s : State) : State := record .gateOpen (setGe true s)

/-- `GateClose()` (R106). -/
def gateClose (s : State) : State := record .gateClose (setGe false s)

/-- `SetBitCount(n)` (R107): the count is replaced, not added to. -/
def setBitCount (n : BitCount) (s : State) : State := record (.arm n) (setCnt n s)

/-- `GenerateStart()` (R108, R250): load 0x00, open the gate, drive output, close the gate, in this order. -/
def generateStart (s : State) : State := gateClose (driveLine true (gateOpen (loadSR 0x00#8 s)))

/-- `LatchPulse()` (R109). -/
def latchPulse (s : State) : State := gateClose (gateOpen s)

/-- `ClearFlag()` (R110). -/
def clearFlag (s : State) : State := record .clear (setFlag false s)

/-- `RaiseFlag()` (R110). -/
def raiseFlag (s : State) : State := record .kick (setFlag true s)

/-! ## Faults (R213, R214) -/

/-- The code of a fault (R213). -/
def faultCode (f : Fault) : Nat :=
  match f with
  | .reservedCommand _ _ => 1
  | .rxOverflow _ => 2
  | .badState _ => 3
  | .initTwice => 4
  | .notInitialised => 5
  | .sendFromHandler => 6
  | .misalignedCommands _ => 7
  | .commandRegionWraps _ _ => 8
  | .rxRegionWraps _ _ => 9
  | .commandRegionWritten _ => 10

/-- `raise F(info)` (R214): `M.fault` records the fault and nothing else of the step happens. -/
def raiseFault (f : Fault) (s : State) : State := setFault (some f) s

/-- The end of an invocation (R150, R217): the flag is cleared, unless the handler raised a fault, in which case the flag stays (R214). -/
def returnFromHandler (s : State) : State :=
  match s.M.fault with
  | none => clearFlag s
  | some _ => s

end Sys2Proof.Machine
end

