-- ==== Sys2Proof/Machine/Operands.lean ====
section
/-! DEFINITION. Where the block's operands come from: command words, a word's data byte, the received byte; and the admission of a
receive write. -/

namespace Sys2Proof.Machine

/-- `CmdFetch(addr)` (R63): the 16-bit word at an address. -/
def cmdFetch (m : List Host.Cell) (a : Addr) : CmdWord := BitVec.ofNat 16 (Memory.read m a 2)

/-- The next command word of the state (R131). -/
def nextWord (s : State) : CmdWord := cmdFetch s.mem s.S.cmdPtr

/-- The value `ReadSR()` returns (R104). -/
def receivedByte (s : State) : Byte := s.E.sr

/-- Whether an address lies in a command region, `[C0, C0 + 2·N0)` (R63). -/
def inCmdRegion (r : Option CmdRegion) (a : Addr) : Bool :=
  match r with
  | none => false
  | some c => decide (c.base.toNat ≤ a.toNat) && decide (a.toNat < c.base.toNat + 2 * c.count.toNat)

/-- Whether an address lies in a receive region, without wrap (R65). No declared region admits nothing (log 18). -/
def inRxRegion (r : Option RxRegion) (a : Addr) : Bool :=
  match r with
  | none => false
  | some x => decide (x.base.toNat ≤ a.toNat) && decide (a.toNat < x.base.toNat + x.cap)

end Sys2Proof.Machine
end

