-- ==== Sys2Proof/Machine/Flags.lean ====
section
/-! DEFINITION. The conditions the block and its agents test: the received bit and the remaining-commands test (R33), the pending and
enabled event (R210), and whether the host can run (R194, R221). -/

namespace Sys2Proof.Machine

/-- The received bit `E.sr[P_RXBIT]` (R33): true is NACK. -/
def receivedBit (s : State) : Bool := s.E.sr.getLsbD Config.rxBit

/-- `S.cmd_len > 0` (R33). -/
def commandsRemain (s : State) : Bool := decide (s.S.cmdLen ≠ 0#16)

/-- A completion event is pending and enabled (R210), so an invocation can be taken. -/
def eventTaken (s : State) : Bool := s.E.flag && s.P.gie

/-- The state is `Idle`: what `done()` returns (R196). -/
def isIdle (s : State) : Bool := decide (s.S.state = Config.idleCode)

/-- A transaction is active (R72, R194). -/
def isActive (s : State) : Bool := !isIdle s

/-- Some sleep bit of the sleep/wake status is set: the host sleeps (R221, log 13). -/
def hostAsleep (s : State) : Bool := decide (s.P.wakeStatus &&& s.env.params.sleepBits ≠ 0#16)

/-- A call of `send_sequence` is in progress: the host spins (R194). -/
def hostHolds (s : State) : Bool := s.host.pending.isSome

/-- An address lies in an installed region (R38, R72). -/
def inInstalledRegion (a : Addr) (s : State) : Bool := inCmdRegion s.M.cmdRegion a || inRxRegion s.M.rxRegion a

/-- The host neither sleeps (R221, log 13) nor spins (R194, log 12). -/
def hostFree (s : State) : Bool := !hostHolds s && !hostAsleep s

/-- Whether the host has a move with an operation. A sleeping host has none (R221), and a spinning host only spins (R194). During a transaction
the host may read the receive buffer and nothing else of memory, and a write has a move only where it breaks the duty of R72: "everything
else is either a duty or not modelled, and the model gives it no move" (R198). -/
def hostCanRun (op : HostOp) (s : State) : Bool :=
  match op with
  | .spin => hostHolds s && !hostAsleep s
  | .readByte a => hostFree s && (isIdle s || inRxRegion s.M.rxRegion a)
  | .writeByte a _ => hostFree s && (isIdle s || inInstalledRegion a s)
  | .send _ => hostFree s
  | .done => hostFree s
  | .init _ _ _ => hostFree s
  | .setGie _ => hostFree s
  | .sleep _ => hostFree s

end Sys2Proof.Machine
end

