-- ==== Sys2Proof/Machine/Commands.lean ====
section
/-! DEFINITION. Command execution, "advance" (41_commands.md R130 to R137). -/

namespace Sys2Proof.Machine

/-- Consumption of one command (R131, R137): 16-bit sums. -/
def consume (s : State) : State := setCmdView (s.S.cmdPtr + 2#16) (s.S.cmdLen - 1#16) s

/-- `StopFraming()` (R135): it consumes nothing. -/
def stopFraming (s : State) : State := goto Config.stopCode (setBitCount 1 (loadSR 0x00#8 (driveLine true s)))

/-- WRITE (R132), with the consumption of R131. -/
def execWrite (b : Byte) (s : State) : Host.Outcome State Fault Refusal :=
  .next (consume (goto Config.prepareAckNackCode (setBitCount 8 (loadSR b (driveLine true s)))))

/-- READ (R133), with the consumption of R131. The shift register is not loaded. -/
def execRead (s : State) : Host.Outcome State Fault Refusal :=
  .next (consume (goto Config.receivedDataCode (setBitCount 8 (driveLine false s))))

/-- RESTART (R134), with the consumption of R131: the dummy byte is all ones. -/
def execRestart (s : State) : Host.Outcome State Fault Refusal :=
  .next (consume (goto Config.startCode (setBitCount 1 (loadSR 0xFF#8 (driveLine true s)))))

/-- The meaning of a command, by its row. -/
def execCommand (c : Command) (s : State) : Host.Outcome State Fault Refusal :=
  match c with
  | .write b => execWrite b s
  | .read => execRead s
  | .restart => execRestart s

/-- A reserved command word (R84, R136), by `P_RESERVED_POLICY`. -/
def reservedCommand (w : CmdWord) (s : State) : Host.Outcome State Fault Refusal :=
  match s.env.params.reservedPolicy with
  | .fault => .next (raiseFault (.reservedCommand w s.S.cmdPtr) s)
  | .writeLowByte => execWrite (dataOf w) s

/-- `Advance()` (R131): at most one command, the one at `S.cmd_ptr`. -/
def advance (s : State) : Host.Outcome State Fault Refusal :=
  if commandsRemain s then
    match decodeCommand (nextWord s) with
    | .ok c => execCommand c s
    | .error _ => reservedCommand (nextWord s) s
  else .next (stopFraming s)

end Sys2Proof.Machine
end

