-- ==== Sys2Proof/Machine/Handlers.lean ====
section
/-! DEFINITION. The seven state handlers (42_state_machine.md R151 to R158). A handler's meaning is its body; the closing `ClearFlag` is the
invocation's (R150, log 28). -/

namespace Sys2Proof.Machine

/-- IDLE (R151): a no-op. -/
def execIdle (s : State) : Host.Outcome State Fault Refusal := .next s

/-- START (R152): the START condition, then an advance. -/
def execStart (s : State) : Host.Outcome State Fault Refusal := advance (generateStart s)

/-- PREPARE_ACKNACK (R153): release the line and arm the slave's ACK slot. -/
def execPrepareAckNack (s : State) : Host.Outcome State Fault Refusal :=
  .next (goto Config.handleRxTxCode (setBitCount 1 (driveLine false s)))

/-- HANDLE_RXTX (R154): on NACK the STOP framing inline (90_conflicts.md C3), on ACK an advance. -/
def execHandleRxTx (s : State) : Host.Outcome State Fault Refusal :=
  if receivedBit s then .next (stopFraming (readSR s)) else advance (readSR s)

/-- The store of `ReceivedData` (R62, R156): one byte at the cursor, its record, and the cursor's advance. -/
def storeReceived (b : Byte) (s : State) : State :=
  setRxPtr (s.S.rxPtr + 1#16) (record (.rxWrite s.S.rxPtr b) (setMem (Memory.write s.mem s.S.rxPtr 1 b.toNat) s))

/-- The master's answer to a received byte (R156, R159): ACK if any command remains, else NACK. -/
def answerReceived (s : State) : State :=
  if commandsRemain s then setBitCount 1 (goto Config.handleRxTxCode (loadSR 0x00#8 (driveLine true s)))
  else setBitCount 1 (goto Config.prepareStopCode (loadSR 0xFF#8 (driveLine true s)))

/-- RECEIVED_DATA (R156): the read of the shift register stands even where the write is not admitted (R214). -/
def execReceivedData (s : State) : Host.Outcome State Fault Refusal :=
  if inRxRegion s.M.rxRegion s.S.rxPtr then .next (answerReceived (storeReceived (receivedByte s) (readSR s)))
  else .next (raiseFault (.rxOverflow s.S.rxPtr) (readSR s))

/-- PREPARE_STOP (R157): the STOP framing. -/
def execPrepareStop (s : State) : Host.Outcome State Fault Refusal := .next (stopFraming s)

/-- The wake request of `Stop` (R158): with a zero mask nothing happens. -/
def wakeHost (s : State) : State :=
  if s.S.wakeMask = 0#16 then s
  else record (.wake s.S.wakeMask) (setWakeStatus (s.P.wakeStatus &&& ~~~ s.S.wakeMask) s)

/-- STOP (R158): release the line by loading all ones, pulse the latch, `Idle`, wake request. `E.oe` is unchanged. -/
def execStop (s : State) : Host.Outcome State Fault Refusal :=
  .next (wakeHost (goto Config.idleCode (latchPulse (loadSR 0xFF#8 s))))

end Sys2Proof.Machine
end

