-- ==== Sys2Proof/Machine/Dispatch.lean ====
section
/-! DEFINITION. The dispatch: one arm per row of the opcode table. -/

namespace Sys2Proof.Machine

def exec (i : Instr) (s : State) : Host.Outcome State Fault Refusal :=
  match i with
  | .write b => Sys2Proof.Machine.execWrite b s
  | .restart => Sys2Proof.Machine.execRestart s
  | .read => Sys2Proof.Machine.execRead s
  | .idle => Sys2Proof.Machine.execIdle s
  | .start => Sys2Proof.Machine.execStart s
  | .prepareAckNack => Sys2Proof.Machine.execPrepareAckNack s
  | .handleRxTx => Sys2Proof.Machine.execHandleRxTx s
  | .receivedData => Sys2Proof.Machine.execReceivedData s
  | .prepareStop => Sys2Proof.Machine.execPrepareStop s
  | .stop => Sys2Proof.Machine.execStop s

end Sys2Proof.Machine
end

