-- ==== Sys2Proof/Machine/Engine.lean ====
section
/-! DEFINITION. The serial engine's completion step (40_peripheral.md R111 to R114). -/

namespace Sys2Proof.Machine

/-- The low `n` bits set. -/
def lowBits (n : BitCount) : Byte := 0xFF#8 >>> (8 - n.val)

/-- The bits the block drives out in a group of `n`, at the places they are sampled into: bit `sr0[7-i]` at place `n-1-i` (R112). -/
def drivenBits (n : BitCount) (sr0 : Byte) : Byte := sr0 >>> (8 - n.val)

/-- The `n` sampled bits of a draw (R112): any value under `free`; under `wired_and` a bit the block drives low reads low. -/
def sampledBits (law : Readback) (n : BitCount) (oe : Bool) (sr0 draw : Byte) : Byte :=
  match law with
  | .free => draw &&& lowBits n
  | .wiredAnd => if oe then draw &&& lowBits n &&& drivenBits n sr0 else draw &&& lowBits n

/-- The shift register after a group (R111): a left shift, the sampled bits entering at bit 0. -/
def shiftIn (n : BitCount) (sr0 sampled : Byte) : Byte := (sr0 <<< n.val) ||| sampled

/-- The completion of an armed group whose sampled bits are `b` (R111). -/
def completeGroup (b : Byte) (s : State) : State :=
  record (.group s.E.cnt s.E.oe s.E.sr b) (setFlag true (setCnt 0 (setSr (shiftIn s.E.cnt s.E.sr b) s)))

/-- The engine's step with a draw (R111): enabled exactly when a group is armed. -/
def engineStep (draw : Byte) (s : State) : State :=
  if s.E.cnt = 0 then s
  else completeGroup (sampledBits s.env.params.readback s.E.cnt s.E.oe s.E.sr draw) s

end Sys2Proof.Machine
end

