-- ==== Sys2Proof/Machine/HostPort.lean ====
section
/-! DEFINITION. The Transaction Controller and the host's other moves (43_transaction_controller.md R190 to R198, R72, R73), and power-on (R41,
R243). -/

namespace Sys2Proof.Machine

/-- `ConfigureMasterI2C` (R190, R191): it leaves these four fields unspecified, so they take the draw's values (log 8). -/
def configureMaster (d : EngineDraw) (s : State) : State := setGe d.ge (setCnt d.cnt (setSr d.sr (setOe d.oe s)))

/-- `Init(div, src)` (R190). -/
def hostInit (div src : Nat) (d : EngineDraw) (s : State) : State :=
  if s.M.inited then raiseFault .initTwice s
  else
    setInited true (goto Config.idleCode (setGie true (clearFlag (record (.init div src) (configureMaster d (setGie false s))))))

/-- The call step of `SendSequence` (R193): its two checks, in order, and then the hold. -/
def callSend (a : SendArgs) (ctx : Context) (s : State) : State :=
  match ctx with
  | .handler => raiseFault .sendFromHandler s
  | .normal => if s.M.inited then setPending (some a) s else raiseFault .notInitialised s

/-- `done()` (R196): it hands the host whether the state is `Idle`, in the model's own field (log 14), and writes nothing else. -/
def callDone (s : State) : State := setResult (.isIdle (isIdle s)) s

/-- The first failing check of the install step, in program order (R193, R216). -/
def installFault (a : SendArgs) : Option Fault :=
  if a.cmdBase.getLsbD 0 then some (.misalignedCommands a.cmdBase)
  else if a.cmdBase.toNat + 2 * a.cmdCount.toNat > Config.memSize then some (.commandRegionWraps a.cmdBase a.cmdCount)
  else if a.rxBase.toNat + a.rxCap > Config.memSize then some (.rxRegionWraps a.rxBase a.rxCap)
  else none

/-- The regions the install declares (R38, R193). -/
def declareRegions (a : SendArgs) (s : State) : State :=
  setRxRegion (some { base := a.rxBase, cap := a.rxCap }) (setCmdRegion (some { base := a.cmdBase, count := a.cmdCount }) s)

/-- The install step of `SendSequence` (R193): atomic with the kick (D21). The hold ends. -/
def install (a : SendArgs) (s : State) : State :=
  match installFault a with
  | some f => raiseFault f s
  | none =>
    setPending none (raiseFlag (goto Config.startCode (declareRegions a
      (setWakeMask a.wakeMask (setRxPtr a.rxBase (setCmdView a.cmdBase a.cmdCount s))))))

/-- One iteration of the busy-wait (R194): the install step is enabled only when the state is `Idle`. -/
def spinOnce (s : State) : State :=
  match s.host.pending with
  | none => s
  | some a => if isIdle s then install a s else s

/-- A host write of one byte that is a move of the host (`hostCanRun`): during a transaction it goes into an installed region, and is the fault
of R72; in `Idle` it takes effect. -/
def hostWrite (a : Addr) (v : Byte) (s : State) : State :=
  if isActive s then raiseFault (.commandRegionWritten a) s else setMem (Memory.writeByte s.mem a v) s

/-- The effect of a host operation that can run, in normal context (R220). A read has no side effect (R73). Which bits of the
sleep/wake status the host sets on entering sleep is open (R221, D23): that the move sets any bits, also ones outside `P_SLEEP_BITS`, after
which the host stays awake, is a DESIGN CHOICE (log 13). -/
def hostEffect (op : HostOp) (s : State) : State :=
  match op with
  | .init div src d => hostInit div src d s
  | .send a => callSend a .normal s
  | .spin => spinOnce s
  | .done => callDone s
  | .readByte a => setResult (.byte (Memory.readByte s.mem a)) s
  | .writeByte a v => hostWrite a v s
  | .setGie b => setGie b s
  | .sleep bits => setWakeStatus (s.P.wakeStatus ||| bits) s

/-- The host's step: an operation that cannot run passes (log 5). -/
def hostStep (op : HostOp) (s : State) : State :=
  if hostCanRun op s then hostEffect op s else s

/-- Power-on (R41, R240, R243): the state the spec gives, and the draw's value for every field it leaves unspecified. The model's own
fields go on. -/
def powerOn (d : PowerOnDraw) (s : State) : State where
  S := { state := Config.idleCode, cmdPtr := d.cmdPtr, cmdLen := d.cmdLen, rxPtr := d.rxPtr, wakeMask := d.wakeMask }
  E := { oe := d.engine.oe, sr := d.engine.sr, cnt := d.engine.cnt, ge := d.engine.ge, flag := d.flag }
  P := { gie := d.gie, wakeStatus := d.wakeStatus }
  M := { inited := false, cmdRegion := none, rxRegion := none, fault := none, trace := [] }
  mem := Memory.ofCells d.mem
  host := { pending := none, result := .none }
  env := s.env

end Sys2Proof.Machine
end

