-- ==== Sys2Proof/Machine/Invocation.lean ====
section
/-! DEFINITION. The invocation (42_state_machine.md R150), and one move of one agent (D1). -/

namespace Sys2Proof.Machine

/-- An invocation's outcome from its handler's: the return is added to a next state. -/
def finishInvocation (o : Host.Outcome State Fault Refusal) : Host.Outcome State Fault Refusal :=
  match o with
  | .next t => .next (returnFromHandler t)
  | .fault f => .fault f
  | .refused r => .refused r

/-- `Invocation()` (R150): the handler that `S.state` selects, then the return; code 7 raises `BadState`. -/
def invocation (s : State) : Host.Outcome State Fault Refusal :=
  match decodeState s.S.state with
  | .ok i => finishInvocation (exec i s)
  | .error _ => .next (raiseFault (.badState s.S.state) s)

/-- A call made from handler context (R193, R196, R220). -/
def handlerCall (c : HandlerCall) (s : State) : State :=
  match c with
  | .send a => callSend a .handler s
  | .done => callDone s

/-- Handler context from its entry to its return (R220): first the call, if any (log 31), then the invocation, unless the call raised a fault
(R214). -/
def runHandlerContext (call : Option HandlerCall) (s : State) : Host.Outcome State Fault Refusal :=
  let t := match call with
    | none => s
    | some c => handlerCall c s
  match t.M.fault with
  | none => invocation t
  | some _ => .next t

/-- The handler's step: handler context is entered only by taking a pending and enabled event (R210, R220), else the move passes. -/
def handlerStep (call : Option HandlerCall) (s : State) : Host.Outcome State Fault Refusal :=
  if eventTaken s then runHandlerContext call s else .next s

/-- The next move: the head of the agenda, or a free one past its end (log 5, 6). -/
def nextMove (s : State) : Move :=
  match s.env.agenda with
  | m :: _ => m
  | [] => Config.freeMove s.env.turn

/-- The state with its next move taken off. -/
def takeMove (s : State) : State :=
  match s.env.agenda with
  | _ :: rest => setAgenda rest s
  | [] => setTurn (s.env.turn + 1) s

/-- One step of one agent. -/
def performMove (m : Move) (s : State) : Host.Outcome State Fault Refusal :=
  match m with
  | .handler call => handlerStep call s
  | .engine d => .next (engineStep d s)
  | .host op => .next (hostStep op s)
  | .powerOn d => .next (powerOn d s)

/-- One step of the machine: a state with a fault recorded has no further step (R39, R214, log 11). -/
def machineStep (s : State) : Host.Outcome State Fault Refusal :=
  match s.M.fault with
  | some f => .fault f
  | none => performMove (nextMove s) (takeMove s)

/-- A table word placed where the next invocation runs it (log 16). A state code becomes `S.state`. A command word is stored at
`S.cmd_ptr` as the next of at least one command, and the state is `Start`, as an install leaves it. The event is pending and enabled, no
fault is recorded, a receive byte is declared if no region is, and the next move is the handler's. -/
def placeWord (nbits w : Nat) (s : State) : State :=
  let ready := setAgenda (.handler none :: s.env.agenda) (setGie true (setFlag true (setFault none s)))
  match formatOfBits nbits with
  | .state3 =>
    setRxRegion (some (s.M.rxRegion.getD { base := s.S.rxPtr, cap := 1 })) (goto (BitVec.ofNat 3 w) ready)
  | .cmd16 =>
    setCmdView s.S.cmdPtr (if s.S.cmdLen = 0#16 then 1#16 else s.S.cmdLen)
      (goto Config.startCode (setMem (Memory.write s.mem s.S.cmdPtr 2 w) ready))

end Sys2Proof.Machine
end

