-- ==== Sys2Proof/Machine/Wire.lean ====
section
/-! DEFINITION. The derived reading of the port trace as I2C bus symbols (40_peripheral.md R117). No rule of the block uses it. -/

namespace Sys2Proof.Machine

/-- The bus symbols of R117. -/
inductive BusSymbol where
  | start
  | repeatedStart
  | transmit (b : Byte)
  | slaveAck
  | slaveNack
  | receive (b : Byte)
  | masterAck
  | masterNack
  /-- The data line held high for one clock before a repeated START. -/
  | dummyHigh
  /-- The data line low for one clock before the STOP. -/
  | stopFrameLow
  | stop
deriving DecidableEq, Repr

/-- What armed a driven one-bit group: the rows of R117 for those groups name it. -/
inductive Issuer where
  | receivedData
  | restart
  | stopFraming
deriving DecidableEq, Repr

/-- What the reading must remember: a START without a STOP since, a received byte stored since the last arming, what armed the group to come,
and whether the last group was a transmitted byte. -/
structure WireContext where
  busy : Bool
  stored : Bool
  issuer : Option Issuer
  sent : Bool
deriving DecidableEq, Repr

/-- What armed one bit after a load of `v` (R134, R135, R156): `ReceivedData` if it has just stored a byte, else the stop framing or a
`Restart` by the value loaded. -/
def issuerOf (stored : Bool) (v : Byte) : Option Issuer :=
  if stored then some .receivedData
  else if v = 0x00#8 then some .stopFraming
  else if v = 0xFF#8 then some .restart
  else none

/-- The symbol of a driven one-bit group, by its issuer and the value shifted out. A group that no record of the block armed (one left armed
at power-on or by `init`, R116) has none. -/
def drivenBitSymbol (issuer : Option Issuer) (sr0 : Byte) : List BusSymbol :=
  match issuer with
  | some .receivedData => if sr0 = 0x00#8 then [.masterAck] else if sr0 = 0xFF#8 then [.masterNack] else []
  | some .restart => if sr0 = 0xFF#8 then [.dummyHigh] else []
  | some .stopFraming => if sr0 = 0x00#8 then [.stopFrameLow] else []
  | none => []

/-- The symbol of a completed group, by the table of R117; a group the table does not list has none. -/
def groupSymbol (c : WireContext) (n : BitCount) (oe : Bool) (sr0 sampled : Byte) : List BusSymbol :=
  if n = 8 then [if oe then .transmit sr0 else .receive sampled]
  else if n = 1 then
    if oe then drivenBitSymbol c.issuer sr0
    else if c.sent then [if sampled = 0#8 then .slaveAck else .slaveNack]
    else []
  else []

/-- The context after a completed group. -/
def afterGroup (c : WireContext) (n : BitCount) (oe : Bool) : WireContext :=
  { busy := c.busy, stored := false, issuer := none, sent := decide (n = 8) && oe }

/-- The context after a group is armed. -/
def afterArm (c : WireContext) (issuer : Option Issuer) : WireContext :=
  { c with stored := false, issuer := issuer }

/-- The bus symbols of a trace (R117). -/
def readWire (c : WireContext) (l : List Record) : List BusSymbol :=
  match l with
  | [] => []
  | .load v :: .gateOpen :: .drive true :: .gateClose :: rest =>
    if v = 0x00#8 then (if c.busy then .repeatedStart else .start) :: readWire { c with busy := true } rest
    else readWire c rest
  | .load v :: .gateOpen :: .gateClose :: rest =>
    if v = 0xFF#8 then .stop :: readWire { c with busy := false } rest else readWire c rest
  | .load v :: .arm n :: rest => readWire (afterArm c (if n = 1 then issuerOf c.stored v else none)) rest
  | .arm _ :: rest => readWire (afterArm c none) rest
  | .rxWrite _ _ :: rest => readWire { c with stored := true } rest
  | .group n oe sr0 sampled :: rest => groupSymbol c n oe sr0 sampled ++ readWire (afterGroup c n oe) rest
  | _ :: rest => readWire c rest

/-- The bus symbols of a state's whole trace. -/
def busSymbols (s : State) : List BusSymbol := readWire { busy := false, stored := false, issuer := none, sent := false } s.M.trace

end Sys2Proof.Machine
end

