-- ==== Sys2Proof/Safety.lean ====
section
/-! DEFINITION. The terms claims are stated in: the machine's invariant, safe runs, fairness premises, the bound on the invocations left, and the
schedules of a transaction without a NACK. -/

namespace Sys2Proof.Machine

/-- The command view agrees with the installed region (R22, R27, R64, R137): an even base, a region inside memory, and a pointer that has
advanced by one word for every command consumed. -/
structure ViewOf (c : CmdRegion) (s : State) : Prop where
  even : c.base.getLsbD 0 = false
  fits : c.base.toNat + 2 * c.count.toNat ≤ Config.memSize
  len : s.S.cmdLen.toNat ≤ c.count.toNat
  ptr : s.S.cmdPtr = c.base + BitVec.ofNat 16 (2 * (c.count.toNat - s.S.cmdLen.toNat))

/-- The receive cursor agrees with the declared buffer (R23, R65, R165): it has advanced by at most the buffer's size. -/
structure CursorOf (r : RxRegion) (s : State) : Prop where
  fits : r.base.toNat + r.cap ≤ Config.memSize
  ptr : ∃ k ≤ r.cap, s.S.rxPtr = r.base + BitVec.ofNat 16 k

/-- The size of the group a state waits for (R161's column of groups). -/
def groupOf (code : StateCode) : BitCount :=
  if code = Config.prepareAckNackCode ∨ code = Config.receivedDataCode then 8 else 1

/-- The handler has run since the transaction was installed or restarted. -/
def pastStart (s : State) : Prop := s.S.state ≠ Config.idleCode ∧ s.S.state ≠ Config.startCode

/-- The invariant of the protocol. -/
structure ProtocolInv (s : State) : Prop where
  /-- Code 7 is never written (R21). -/
  legal : s.S.state ≠ Config.reservedCode
  /-- A transaction is active only after `init` and an install (R193). -/
  active : s.S.state ≠ Config.idleCode → s.M.cmdRegion ≠ none ∧ s.M.rxRegion ≠ none
  /-- Regions are installed, and calls held, only after `init` (R193). -/
  installed : s.M.cmdRegion ≠ none ∨ s.M.rxRegion ≠ none ∨ s.host.pending ≠ none → s.M.inited = true
  view : ∀ c, s.M.cmdRegion = some c → ViewOf c s
  cursor : ∀ r, s.M.rxRegion = some r → CursorOf r s
  /-- An active transaction waits for an event that is pending, or for a group that is armed: it is never lost. -/
  live : s.M.fault = none → s.S.state ≠ Config.idleCode → s.E.flag = true ∨ s.E.cnt ≠ 0
  /-- At most one event is outstanding once the first handler has run (R116). -/
  single : s.M.fault = none → pastStart s → ¬ (s.E.flag = true ∧ s.E.cnt ≠ 0)
  /-- The armed group is the one the state waits for (R161). -/
  group : s.M.fault = none → pastStart s → s.E.cnt = 0 ∨ s.E.cnt = groupOf s.S.state
  /-- Nothing is armed or pending in `Idle` once a transaction has been installed (R164). -/
  quiet : s.S.state = Config.idleCode → s.M.cmdRegion ≠ none → s.E.flag = false ∧ s.E.cnt = 0
  /-- The latch gate is closed once a handler has run (R31). -/
  gate : pastStart s → s.E.ge = false

/-- `k` steps, stopping at the first fault or refusal: `Host.Core.run` of this machine (`runFrom_eq_core_run`). -/
def runFrom (k : Nat) (s : State) : Host.Outcome State Fault Refusal :=
  match k with
  | 0 => .next s
  | k + 1 =>
    match step s with
    | .next t => runFrom k t
    | .fault f => .fault f
    | .refused r => .refused r

/-- A run in which no precondition of the host is broken (R197, R214): no reachable state records a fault. -/
def SafeRun (s : State) : Prop := ∀ k t, runFrom k s = .next t → t.M.fault = none

/-- The named premise `ReadbackWiredAnd` (R112). -/
def ReadbackWiredAnd (s : State) : Prop := s.env.params.readback = .wiredAnd

/-- The named premise `EngineFair` (R114): in the run from `s`, every armed group eventually completes. What counts as a group's end is a
DESIGN CHOICE (log 26): the counter is 0 again, by the engine's completion, or because an `init` or a power-on whose draw has 0 there dropped
the group, or because the run records a fault. -/
def EngineFair (s : State) : Prop :=
  ∀ k t, runFrom k s = .next t → t.M.fault = none → t.E.cnt ≠ 0 →
    ∃ j u, runFrom (k + j) s = .next u ∧ (u.E.cnt = 0 ∨ u.M.fault ≠ none)

/-- The host's part of a termination claim (R194, R254), the model's own premise (DESIGN CHOICE, log 26): in the run from `s`, every pending
event is eventually taken, or cleared by an `init` or a power-on, or the run records a fault. -/
def InterruptFair (s : State) : Prop :=
  ∀ k t, runFrom k s = .next t → t.M.fault = none → t.E.flag = true →
    ∃ j u, runFrom (k + j) s = .next u ∧ (u.E.flag = false ∨ u.M.fault ≠ none)

/-- A bound on the invocations an active transaction still makes (R161, R162). -/
def invocationsLeft (s : State) : Nat :=
  if s.S.state = Config.startCode then 2 * s.S.cmdLen.toNat + 2
  else if s.S.state = Config.prepareAckNackCode then 2 * s.S.cmdLen.toNat + 3
  else if s.S.state = Config.handleRxTxCode then 2 * s.S.cmdLen.toNat + 2
  else if s.S.state = Config.receivedDataCode then 2 * s.S.cmdLen.toNat + 3
  else if s.S.state = Config.prepareStopCode then 2
  else if s.S.state = Config.stopCode then 1
  else 0

/-- The host spins in `send_sequence` with interrupts disabled while a transaction is active (R254). -/
def StuckHold (s : State) : Prop :=
  s.host.pending ≠ none ∧ s.P.gie = false ∧ s.S.state ≠ Config.idleCode

/-- The commands of a list stand at consecutive words from an address (R86). -/
def commandsAt (m : List Host.Cell) (a : Addr) (l : List Command) : Prop :=
  match l with
  | [] => True
  | c :: rest => decodeCommand (cmdFetch m a) = .ok c ∧ commandsAt m (a + 2#16) rest

/-- A command with the draws of its two groups: its data group (or the dummy bit of a `Restart`), and the ACK slot after a byte. -/
structure CommandDraws where
  cmd : Command
  data : Byte
  slot : Byte
deriving DecidableEq, Repr

/-- The moves after the first invocation of a transaction in which every tested slot samples 0 (R162): an engine completion and an
invocation for every group. The draws are free but for bit 0 of each tested slot; the slot of a last `Read` is not tested. -/
def ackedMoves (l : List CommandDraws) (framing : Byte) : List Move :=
  match l with
  | [] => [.engine framing, .handler none]
  | d :: rest =>
    (match d.cmd with
      | .write _ => [.engine d.data, .handler none, .engine (d.slot &&& 0xFE#8), .handler none]
      | .read => [.engine d.data, .handler none, .engine (if rest = [] then d.slot else d.slot &&& 0xFE#8), .handler none]
      | .restart => [.engine d.data, .handler none]) ++ ackedMoves rest framing

/-- The number of commands of each kind in a sequence. -/
def writes (l : List CommandDraws) : Nat := (l.filter (fun d => match d.cmd with | .write _ => true | _ => false)).length
def reads (l : List CommandDraws) : Nat := (l.filter (fun d => decide (d.cmd = .read))).length
def restarts (l : List CommandDraws) : Nat := (l.filter (fun d => decide (d.cmd = .restart))).length

/-- The bytes the groups of the `Read`s sample, in command order (R113). -/
def readBytes (l : List CommandDraws) : List Byte := (l.filter (fun d => decide (d.cmd = .read))).map CommandDraws.data

/-- The number of handler moves of a schedule. -/
def handlerMoves (l : List Move) : Nat := (l.filter (fun m => match m with | .handler _ => true | _ => false)).length

/-- A transaction just installed (R193): the commands of a list are in memory, the receive buffer admits its reads and does not overlap the
commands, the kick is pending and can be taken. -/
structure JustInstalled (s : State) (l : List CommandDraws) : Prop where
  noFault : s.M.fault = none
  gie : s.P.gie = true
  flag : s.E.flag = true
  start : s.S.state = Config.startCode
  len : s.S.cmdLen.toNat = l.length
  cmds : commandsAt s.mem s.S.cmdPtr (l.map CommandDraws.cmd)
  fits : s.S.cmdPtr.toNat + 2 * l.length ≤ Config.memSize
  buffer : ∃ r, s.M.rxRegion = some r ∧ r.base.toNat ≤ s.S.rxPtr.toNat ∧
    s.S.rxPtr.toNat + reads l ≤ r.base.toNat + r.cap ∧ r.base.toNat + r.cap ≤ Config.memSize
  apart : reads l = 0 ∨ s.S.cmdPtr.toNat + 2 * l.length ≤ s.S.rxPtr.toNat ∨ s.S.rxPtr.toNat + reads l ≤ s.S.cmdPtr.toNat

end Sys2Proof.Machine
end

