-- ==== Sys2Proof/Certificates/Slice0/Obligations.lean ====
section
/-! DEFINITION. The statements for the provers. Each docstring names the rules of spec/ a statement formalises. -/

open Sys2Proof Sys2Proof.Machine

/-! ## Encoding -/

/-- R81, R82, R83, R88: words written out from the spec's encodings decode to the instructions they stand for. That a state code stands in a
byte of its own is the model's choice (log 15). -/
def Obligations.WrittenOutWordsDecode : Prop :=
  decode .cmd16 [0xA0#8, 0x00#8] = .ok (.write 0xA0#8, []) ∧ decode .cmd16 [0x00#8, 0x01#8] = .ok (.restart, []) ∧
  decode .cmd16 [0x00#8, 0x02#8] = .ok (.read, []) ∧ decode .cmd16 [0x01#8, 0x00#8] = .ok (.write 0x01#8, []) ∧
  decode .state3 [0#8] = .ok (.idle, []) ∧ decode .state3 [1#8] = .ok (.start, []) ∧
  decode .state3 [2#8] = .ok (.prepareAckNack, []) ∧ decode .state3 [3#8] = .ok (.handleRxTx, []) ∧
  decode .state3 [4#8] = .ok (.receivedData, []) ∧ decode .state3 [5#8] = .ok (.prepareStop, []) ∧
  decode .state3 [6#8] = .ok (.stop, []) ∧ decode .state3 [7#8] = .error (.reservedState 7#3)

/-- 30_encoding.md: decoding the encoding of any well-formed instruction, in front of any bytes, gives it back with those bytes. -/
def Obligations.DecodeOfEncodeIsTheInstruction : Prop :=
  ∀ (i : Instr) (rest : List Byte), wellFormed i = true → decode (formatOf i) (encode i ++ rest) = .ok (i, rest)

/-- 30_encoding.md: a command word or a state code that decodes has one meaning, and that meaning's encoding is the word or the code. -/
def Obligations.EncodeOfDecodeIsTheWord : Prop :=
  (∀ (w : CmdWord) (c : Command), decodeCommand w = .ok c → encodeCommand c = w) ∧
  (∀ (k : StateCode) (i : Instr), decodeState k = .ok i → encode i = [k.setWidth 8])

/-- R84, R85: the decode function on all 65536 words, with the three ranges of reserved words. -/
def Obligations.CommandDecodeCoversEveryWord : Prop :=
  ∀ w : CmdWord,
    (w.toNat ≤ 0xFF → decodeCommand w = .ok (.write (w.setWidth 8))) ∧
    (w = 0x0100#16 → decodeCommand w = .ok .restart) ∧
    (w = 0x0200#16 → decodeCommand w = .ok .read) ∧
    ((0x0101 ≤ w.toNat ∧ w.toNat ≤ 0x01FF) ∨ (0x0201 ≤ w.toNat ∧ w.toNat ≤ 0x02FF) ∨ 0x0300 ≤ w.toNat →
      decodeCommand w = .error (.reservedCommand w))

/-! ## Memory -/

/-- 20_memory.md: a read after a write of any width up to the whole memory gives the value written, and every byte outside the written
ones reads as before. -/
def Obligations.MemReadAfterMemWrite : Prop :=
  ∀ (m : List Host.Cell) (a : Addr) (n v : Nat), Memory.wf m = true → n ≤ 0x10000 →
    Memory.read (Memory.write m a n v) a n = v % 256 ^ n ∧
    ∀ b : Addr, (∀ k < n, b ≠ a + BitVec.ofNat 16 k) → Memory.readByte (Memory.write m a n v) b = Memory.readByte m b

/-- 20_memory.md: two memories in the canonical form that read alike at every address are the same data (the model's form, log 4). -/
def Obligations.EqualMemoriesAreEqualData : Prop :=
  ∀ m m' : List Host.Cell, Memory.wf m = true → Memory.wf m' = true →
    (∀ a : Addr, Memory.readByte m a = Memory.readByte m' a) → m = m'

/-- R61, R63, R80: a command's word stored at an address, low byte first, is fetched and decoded back as that command. -/
def Obligations.StoredCommandIsFetchedBack : Prop :=
  ∀ (m : List Host.Cell) (a : Addr) (c : Command) (lo hi : Byte), Memory.wf m = true → hi ++ lo = encodeCommand c →
    decodeCommand (cmdFetch (Memory.writeByte (Memory.writeByte m a lo) (a + 1#16) hi) a) = .ok c

/-! ## Port primitives -/

/-- R102 to R107, R110: what each port primitive does to the whole state. -/
def Obligations.PortPrimitivesEffects : Prop :=
  ∀ s : State,
    (∀ b, driveLine b s = { s with E := { s.E with oe := b }, M := { s.M with trace := s.M.trace ++ [.drive b] } }) ∧
    (∀ v, loadSR v s = { s with E := { s.E with sr := v }, M := { s.M with trace := s.M.trace ++ [.load v] } }) ∧
    (receivedByte s = s.E.sr ∧ readSR s = { s with M := { s.M with trace := s.M.trace ++ [.read s.E.sr] } }) ∧
    gateOpen s = { s with E := { s.E with ge := true }, M := { s.M with trace := s.M.trace ++ [.gateOpen] } } ∧
    gateClose s = { s with E := { s.E with ge := false }, M := { s.M with trace := s.M.trace ++ [.gateClose] } } ∧
    (∀ n, setBitCount n s = { s with E := { s.E with cnt := n }, M := { s.M with trace := s.M.trace ++ [.arm n] } }) ∧
    clearFlag s = { s with E := { s.E with flag := false }, M := { s.M with trace := s.M.trace ++ [.clear] } } ∧
    raiseFlag s = { s with E := { s.E with flag := true }, M := { s.M with trace := s.M.trace ++ [.kick] } }

/-- R108, R109, R250: the START sequence loads 0x00, opens the gate, drives output and closes the gate, in this order; the latch pulse
opens and closes the gate. -/
def Obligations.StartAndLatchSequences : Prop :=
  ∀ s : State,
    generateStart s = { s with
      E := { s.E with oe := true, sr := 0x00#8, ge := false }
      M := { s.M with trace := s.M.trace ++ [.load 0x00#8, .gateOpen, .drive true, .gateClose] } } ∧
    latchPulse s = { s with
      E := { s.E with ge := false }
      M := { s.M with trace := s.M.trace ++ [.gateOpen, .gateClose] } }

/-! ## Commands -/

/-- R132 with R131's consumption and R130's frame: `Write(b)`. -/
def Obligations.WriteEffect : Prop :=
  ∀ (b : Byte) (s : State), exec (.write b) s = .next { s with
    S := { s.S with state := Config.prepareAckNackCode, cmdPtr := s.S.cmdPtr + 2#16, cmdLen := s.S.cmdLen - 1#16 }
    E := { s.E with oe := true, sr := b, cnt := 8 }
    M := { s.M with trace := s.M.trace ++ [.drive true, .load b, .arm 8] } }

/-- R133 with R131's consumption and R130's frame: `Read`; the shift register is not loaded. -/
def Obligations.ReadEffect : Prop :=
  ∀ s : State, exec .read s = .next { s with
    S := { s.S with state := Config.receivedDataCode, cmdPtr := s.S.cmdPtr + 2#16, cmdLen := s.S.cmdLen - 1#16 }
    E := { s.E with oe := false, cnt := 8 }
    M := { s.M with trace := s.M.trace ++ [.drive false, .arm 8] } }

/-- R134 with R131's consumption and R130's frame: `Restart`. -/
def Obligations.RestartEffect : Prop :=
  ∀ s : State, exec .restart s = .next { s with
    S := { s.S with state := Config.startCode, cmdPtr := s.S.cmdPtr + 2#16, cmdLen := s.S.cmdLen - 1#16 }
    E := { s.E with oe := true, sr := 0xFF#8, cnt := 1 }
    M := { s.M with trace := s.M.trace ++ [.drive true, .load 0xFF#8, .arm 1] } }

/-! ## Handlers -/

/-- R151: `Idle` is a no-op. -/
def Obligations.IdleEffect : Prop :=
  ∀ s : State, exec .idle s = .next s

/-- R152 with R108, R131 to R135: `Start` generates START and then does what the next command, or the empty sequence, says. -/
def Obligations.StartEffect : Prop :=
  ∀ s : State,
    (s.S.cmdLen = 0#16 → exec .start s = .next { s with
      S := { s.S with state := Config.stopCode }
      E := { s.E with oe := true, sr := 0x00#8, cnt := 1, ge := false }
      M := { s.M with trace := s.M.trace ++
        [.load 0x00#8, .gateOpen, .drive true, .gateClose, .drive true, .load 0x00#8, .arm 1] } }) ∧
    (∀ b, s.S.cmdLen ≠ 0#16 → decodeCommand (cmdFetch s.mem s.S.cmdPtr) = .ok (.write b) → exec .start s = .next { s with
      S := { s.S with state := Config.prepareAckNackCode, cmdPtr := s.S.cmdPtr + 2#16, cmdLen := s.S.cmdLen - 1#16 }
      E := { s.E with oe := true, sr := b, cnt := 8, ge := false }
      M := { s.M with trace := s.M.trace ++
        [.load 0x00#8, .gateOpen, .drive true, .gateClose, .drive true, .load b, .arm 8] } }) ∧
    (s.S.cmdLen ≠ 0#16 → decodeCommand (cmdFetch s.mem s.S.cmdPtr) = .ok .read → exec .start s = .next { s with
      S := { s.S with state := Config.receivedDataCode, cmdPtr := s.S.cmdPtr + 2#16, cmdLen := s.S.cmdLen - 1#16 }
      E := { s.E with oe := false, sr := 0x00#8, cnt := 8, ge := false }
      M := { s.M with trace := s.M.trace ++ [.load 0x00#8, .gateOpen, .drive true, .gateClose, .drive false, .arm 8] } }) ∧
    (s.S.cmdLen ≠ 0#16 → decodeCommand (cmdFetch s.mem s.S.cmdPtr) = .ok .restart → exec .start s = .next { s with
      S := { s.S with state := Config.startCode, cmdPtr := s.S.cmdPtr + 2#16, cmdLen := s.S.cmdLen - 1#16 }
      E := { s.E with oe := true, sr := 0xFF#8, cnt := 1, ge := false }
      M := { s.M with trace := s.M.trace ++
        [.load 0x00#8, .gateOpen, .drive true, .gateClose, .drive true, .load 0xFF#8, .arm 1] } })

/-- R153: `PrepareAckNack`. -/
def Obligations.PrepareAckNackEffect : Prop :=
  ∀ s : State, exec .prepareAckNack s = .next { s with
    S := { s.S with state := Config.handleRxTxCode }
    E := { s.E with oe := false, cnt := 1 }
    M := { s.M with trace := s.M.trace ++ [.drive false, .arm 1] } }

/-- R154 (90_conflicts.md C3), R131 to R135: a NACK prepares the STOP framing inline, and the commands left are not consumed; an ACK does what
the next command, or the empty sequence, says. -/
def Obligations.HandleRxTxEffect : Prop :=
  ∀ s : State,
    (s.E.sr.getLsbD 0 = true ∨ s.S.cmdLen = 0#16 → exec .handleRxTx s = .next { s with
      S := { s.S with state := Config.stopCode }
      E := { s.E with oe := true, sr := 0x00#8, cnt := 1 }
      M := { s.M with trace := s.M.trace ++ [.read s.E.sr, .drive true, .load 0x00#8, .arm 1] } }) ∧
    (∀ b, s.E.sr.getLsbD 0 = false → s.S.cmdLen ≠ 0#16 → decodeCommand (cmdFetch s.mem s.S.cmdPtr) = .ok (.write b) →
      exec .handleRxTx s = .next { s with
      S := { s.S with state := Config.prepareAckNackCode, cmdPtr := s.S.cmdPtr + 2#16, cmdLen := s.S.cmdLen - 1#16 }
      E := { s.E with oe := true, sr := b, cnt := 8 }
      M := { s.M with trace := s.M.trace ++ [.read s.E.sr, .drive true, .load b, .arm 8] } }) ∧
    (s.E.sr.getLsbD 0 = false → s.S.cmdLen ≠ 0#16 → decodeCommand (cmdFetch s.mem s.S.cmdPtr) = .ok .read →
      exec .handleRxTx s = .next { s with
      S := { s.S with state := Config.receivedDataCode, cmdPtr := s.S.cmdPtr + 2#16, cmdLen := s.S.cmdLen - 1#16 }
      E := { s.E with oe := false, cnt := 8 }
      M := { s.M with trace := s.M.trace ++ [.read s.E.sr, .drive false, .arm 8] } }) ∧
    (s.E.sr.getLsbD 0 = false → s.S.cmdLen ≠ 0#16 → decodeCommand (cmdFetch s.mem s.S.cmdPtr) = .ok .restart →
      exec .handleRxTx s = .next { s with
      S := { s.S with state := Config.startCode, cmdPtr := s.S.cmdPtr + 2#16, cmdLen := s.S.cmdLen - 1#16 }
      E := { s.E with oe := true, sr := 0xFF#8, cnt := 1 }
      M := { s.M with trace := s.M.trace ++ [.read s.E.sr, .drive true, .load 0xFF#8, .arm 1] } })

/-- R154: `HandleRxTx` tests bit 0 of the shift register only: two states that differ in its other seven bits go to states that differ in
the value read (the record of it, and the register where no rule loads it). -/
def Obligations.OnlyTheReceivedBitDecides : Prop :=
  ∀ (s : State) (v : Byte), v.getLsbD 0 = s.E.sr.getLsbD 0 →
    ∃ t u, exec .handleRxTx s = .next t ∧ exec .handleRxTx { s with E := { s.E with sr := v } } = .next u ∧
      u.S = t.S ∧ u.P = t.P ∧ u.mem = t.mem ∧ u.host = t.host ∧ u.env = t.env ∧ u.M.fault = t.M.fault ∧
      u.E.oe = t.E.oe ∧ u.E.cnt = t.E.cnt ∧ u.E.ge = t.E.ge ∧ u.E.flag = t.E.flag ∧
      (u.E.sr = t.E.sr ∨ (t.E.sr = s.E.sr ∧ u.E.sr = v)) ∧
      ∃ l, t.M.trace = s.M.trace ++ .read s.E.sr :: l ∧ u.M.trace = s.M.trace ++ .read v :: l

/-- R156, R159: with the cursor inside the declared buffer, `ReceivedData` stores the byte, advances the cursor by one, and answers ACK
when any command remains, else NACK; every other byte of memory reads as before. -/
def Obligations.ReceivedDataStoresAndAnswers : Prop :=
  ∀ (s : State) (r : RxRegion), Memory.wf s.mem = true → s.M.rxRegion = some r → r.base.toNat ≤ s.S.rxPtr.toNat →
    s.S.rxPtr.toNat < r.base.toNat + r.cap →
    ∃ t, exec .receivedData s = .next t ∧
      Memory.readByte t.mem s.S.rxPtr = s.E.sr ∧
      (∀ a, a ≠ s.S.rxPtr → Memory.readByte t.mem a = Memory.readByte s.mem a) ∧
      (s.S.cmdLen ≠ 0#16 → t = { s with
        S := { s.S with state := Config.handleRxTxCode, rxPtr := s.S.rxPtr + 1#16 }
        E := { s.E with oe := true, sr := 0x00#8, cnt := 1 }
        M := { s.M with trace := s.M.trace ++
          [.read s.E.sr, .rxWrite s.S.rxPtr s.E.sr, .drive true, .load 0x00#8, .arm 1] }
        mem := t.mem }) ∧
      (s.S.cmdLen = 0#16 → t = { s with
        S := { s.S with state := Config.prepareStopCode, rxPtr := s.S.rxPtr + 1#16 }
        E := { s.E with oe := true, sr := 0xFF#8, cnt := 1 }
        M := { s.M with trace := s.M.trace ++
          [.read s.E.sr, .rxWrite s.S.rxPtr s.E.sr, .drive true, .load 0xFF#8, .arm 1] }
        mem := t.mem })

/-- R65, R214: with the cursor outside the declared buffer, `ReceivedData` reads the shift register and raises `RxOverflow`; nothing is
written and the cursor stays. -/
def Obligations.ReceivedDataOutsideTheBuffer : Prop :=
  ∀ (s : State) (r : RxRegion), s.M.rxRegion = some r →
    (s.S.rxPtr.toNat < r.base.toNat ∨ r.base.toNat + r.cap ≤ s.S.rxPtr.toNat) →
    exec .receivedData s = .next { s with
      M := { s.M with trace := s.M.trace ++ [.read s.E.sr], fault := some (.rxOverflow s.S.rxPtr) } }

/-- R157 with R135: `PrepareStop`. -/
def Obligations.PrepareStopEffect : Prop :=
  ∀ s : State, exec .prepareStop s = .next { s with
    S := { s.S with state := Config.stopCode }
    E := { s.E with oe := true, sr := 0x00#8, cnt := 1 }
    M := { s.M with trace := s.M.trace ++ [.drive true, .load 0x00#8, .arm 1] } }

/-- R158: `Stop`, with and without a wake mask. -/
def Obligations.StopEffect : Prop :=
  ∀ s : State,
    (s.S.wakeMask ≠ 0#16 → exec .stop s = .next { s with
      S := { s.S with state := Config.idleCode }
      E := { s.E with sr := 0xFF#8, ge := false }
      P := { s.P with wakeStatus := s.P.wakeStatus &&& ~~~ s.S.wakeMask }
      M := { s.M with trace := s.M.trace ++ [.load 0xFF#8, .gateOpen, .gateClose, .wake s.S.wakeMask] } }) ∧
    (s.S.wakeMask = 0#16 → exec .stop s = .next { s with
      S := { s.S with state := Config.idleCode }
      E := { s.E with sr := 0xFF#8, ge := false }
      M := { s.M with trace := s.M.trace ++ [.load 0xFF#8, .gateOpen, .gateClose] } })

/-- R84, R136: a reserved word raises `ReservedCommand` and is not consumed under `fault`, and runs as a write of its low byte under
`write_low_byte`; in both handlers that advance. -/
def Obligations.ReservedWordByPolicy : Prop :=
  ∀ (s : State) (w : CmdWord), s.S.cmdLen ≠ 0#16 → cmdFetch s.mem s.S.cmdPtr = w →
    0x0100 ≤ w.toNat → w ≠ 0x0100#16 → w ≠ 0x0200#16 →
    (s.env.params.reservedPolicy = .fault →
      exec .start s = .next { s with
        E := { s.E with oe := true, sr := 0x00#8, ge := false }
        M := { s.M with
          trace := s.M.trace ++ [.load 0x00#8, .gateOpen, .drive true, .gateClose]
          fault := some (.reservedCommand w s.S.cmdPtr) } } ∧
      (s.E.sr.getLsbD 0 = false → exec .handleRxTx s = .next { s with
        M := { s.M with trace := s.M.trace ++ [.read s.E.sr], fault := some (.reservedCommand w s.S.cmdPtr) } })) ∧
    (s.env.params.reservedPolicy = .writeLowByte →
      exec .start s = exec (.write (w.setWidth 8)) (generateStart s) ∧
      (s.E.sr.getLsbD 0 = false → exec .handleRxTx s = exec (.write (w.setWidth 8)) (readSR s)))

/-- R131: in both handlers that advance, no command left means the stop framing (which is all that `PrepareStop` does, R157), and else the one
command that the fetched word decodes to runs and is consumed; a reserved word raises the fault under the policy `fault`. That the meaning of a
command includes its consumption is the model's choice (log 28). -/
def Obligations.AdvanceRunsTheDecodedCommand : Prop :=
  ∀ s : State,
    (s.S.cmdLen = 0#16 →
      exec .start s = exec .prepareStop (generateStart s) ∧
      (s.E.sr.getLsbD 0 = false → exec .handleRxTx s = exec .prepareStop (readSR s))) ∧
    (∀ c, s.S.cmdLen ≠ 0#16 → decodeCommand (cmdFetch s.mem s.S.cmdPtr) = .ok c →
      (∃ t, exec .start s = .next t ∧ exec (commandInstr c) (generateStart s) = .next t ∧
        t.S.cmdPtr = s.S.cmdPtr + 2#16 ∧ t.S.cmdLen = s.S.cmdLen - 1#16) ∧
      (s.E.sr.getLsbD 0 = false → ∃ t, exec .handleRxTx s = .next t ∧ exec (commandInstr c) (readSR s) = .next t ∧
        t.S.cmdPtr = s.S.cmdPtr + 2#16 ∧ t.S.cmdLen = s.S.cmdLen - 1#16)) ∧
    (∀ w, s.S.cmdLen ≠ 0#16 → decodeCommand (cmdFetch s.mem s.S.cmdPtr) = .error (.reservedCommand w) →
      s.env.params.reservedPolicy = .fault →
      exec .start s = .next (raiseFault (.reservedCommand w s.S.cmdPtr) (generateStart s)) ∧
      (s.E.sr.getLsbD 0 = false → exec .handleRxTx s = .next (raiseFault (.reservedCommand w s.S.cmdPtr) (readSR s))))

/-- R130, R151 to R158, R35, R38: what each instruction leaves alone. Only `ReceivedData` writes memory, at the cursor, and moves the cursor;
only `Stop` writes the wake status; none writes the flag, the interrupt enable, the wake mask, the regions, the host's or the model's fields;
only the commands and the handlers that advance move the command view. -/
def Obligations.InstructionFrames : Prop :=
  ∀ (i : Instr) (s t : State), exec i s = .next t →
    (t.E.flag = s.E.flag ∧ t.P.gie = s.P.gie ∧ t.S.wakeMask = s.S.wakeMask ∧ t.M.inited = s.M.inited ∧
      t.M.cmdRegion = s.M.cmdRegion ∧ t.M.rxRegion = s.M.rxRegion ∧ t.host = s.host ∧ t.env = s.env) ∧
    (i ≠ .receivedData → t.S.rxPtr = s.S.rxPtr ∧ ∀ a, Memory.readByte t.mem a = Memory.readByte s.mem a) ∧
    (i = .receivedData → ∀ a, a ≠ s.S.rxPtr → Memory.readByte t.mem a = Memory.readByte s.mem a) ∧
    (i ≠ .stop → t.P.wakeStatus = s.P.wakeStatus) ∧
    (i = .idle ∨ i = .prepareAckNack ∨ i = .receivedData ∨ i = .prepareStop ∨ i = .stop →
      t.S.cmdPtr = s.S.cmdPtr ∧ t.S.cmdLen = s.S.cmdLen) ∧
    (i ≠ .start ∧ i ≠ .stop → t.E.ge = s.E.ge)

/-! ## The invocation -/

/-- R150, R210: when the event is pending and enabled and the schedule gives the handler its move, a step is the meaning of the handler that the
state selects, and then the clear of the flag, which a fault leaves out (R214). `DoneReportsIdle` and `SendCallChecks` say what a call made in the
invocation adds. -/
def Obligations.StepRunsTheSelectedHandler : Prop :=
  ∀ (s : State) (i : Instr) (rest : List Move), s.M.fault = none → s.env.agenda = .handler none :: rest → s.E.flag = true →
    s.P.gie = true → decode .state3 [s.S.state.setWidth 8] = .ok (i, []) →
    ∃ t, exec i { s with env := { s.env with agenda := rest } } = .next t ∧
      step s = .next (if t.M.fault = none
        then { t with E := { t.E with flag := false }, M := { t.M with trace := t.M.trace ++ [.clear] } } else t)

/-- R150, R213, R214: an invocation that finds code 7 raises `BadState`, appends nothing and leaves the flag set. -/
def Obligations.ReservedStateRaisesBadState : Prop :=
  ∀ (s : State) (rest : List Move), s.M.fault = none → s.env.agenda = .handler none :: rest → s.E.flag = true → s.P.gie = true →
    s.S.state = 7#3 →
    step s = .next { s with M := { s.M with fault := some (.badState 7#3) }, env := { s.env with agenda := rest } }

/-- R39, R214: once a fault is recorded, no run goes a step further. -/
def Obligations.RecordedFaultEndsEveryRun : Prop :=
  ∀ (s : State) (f : Fault) (k : Nat), s.M.fault = some f → runFrom (k + 1) s = .fault f

/-- R150, R214, R252: an invocation, with or without a call made in it, clears the flag exactly when it raises no fault. -/
def Obligations.InvocationAcknowledgesUnlessItFaults : Prop :=
  ∀ (s t : State) (call : Option HandlerCall) (rest : List Move), s.env.agenda = .handler call :: rest → s.E.flag = true → s.P.gie = true → step s = .next t →
    (t.M.fault = none → t.E.flag = false ∧ ∃ l, t.M.trace = s.M.trace ++ l ++ [.clear]) ∧
    (t.M.fault ≠ none → t.E.flag = true)

/-- R210, R220, R111, R194, R198, R221: a masked event stays pending, and handler context, with the calls made in it, is not entered without an
event; a disarmed engine does nothing; a host that sleeps or spins does nothing else; and during a transaction the host has no read outside the
receive buffer and no write outside both regions: the move passes. That a move without an enabled step passes is the model's choice (log 5), and
so is what a holding or a sleeping host can do (log 12, 13). -/
def Obligations.DisabledMovesPass : Prop :=
  ∀ (s : State) (rest : List Move), s.M.fault = none →
    (∀ call, s.env.agenda = .handler call :: rest → s.E.flag = false ∨ s.P.gie = false →
      step s = .next { s with env := { s.env with agenda := rest } }) ∧
    (∀ d, s.env.agenda = .engine d :: rest → s.E.cnt = 0 → step s = .next { s with env := { s.env with agenda := rest } }) ∧
    (∀ a, s.env.agenda = .host (.readByte a) :: rest → s.S.state ≠ Config.idleCode →
      (∀ r, s.M.rxRegion = some r → a.toNat < r.base.toNat ∨ r.base.toNat + r.cap ≤ a.toNat) →
      step s = .next { s with env := { s.env with agenda := rest } }) ∧
    (∀ a v, s.env.agenda = .host (.writeByte a v) :: rest → s.S.state ≠ Config.idleCode →
      (∀ c, s.M.cmdRegion = some c → a.toNat < c.base.toNat ∨ c.base.toNat + 2 * c.count.toNat ≤ a.toNat) →
      (∀ r, s.M.rxRegion = some r → a.toNat < r.base.toNat ∨ r.base.toNat + r.cap ≤ a.toNat) →
      step s = .next { s with env := { s.env with agenda := rest } }) ∧
    (∀ op, s.env.agenda = .host op :: rest →
      s.P.wakeStatus &&& s.env.params.sleepBits ≠ 0#16 ∨ (op ≠ .spin ∧ s.host.pending ≠ none) ∨
        (op = .spin ∧ s.host.pending = none) →
      step s = .next { s with env := { s.env with agenda := rest } })

/-! ## The engine -/

/-- R111, R112: an armed group completes with `n` sampled bits: the draw's under `free`, and while the line is released; under `wired_and` a bit
the block drives low reads low. -/
def Obligations.EngineCompletesTheGroup : Prop :=
  ∀ (s : State) (d : Byte) (rest : List Move), s.M.fault = none → s.env.agenda = .engine d :: rest → s.E.cnt ≠ 0 →
    ∃ b : Byte, b.toNat < 2 ^ s.E.cnt.val ∧
      (s.env.params.readback = .free ∨ s.E.oe = false → b.toNat = d.toNat % 2 ^ s.E.cnt.val) ∧
      (s.env.params.readback = .wiredAnd → s.E.oe = true → ∀ i < s.E.cnt.val, s.E.sr.getLsbD (7 - i) = false →
        b.getLsbD (s.E.cnt.val - 1 - i) = false) ∧
      step s = .next { s with
        E := { s.E with sr := (s.E.sr <<< s.E.cnt.val) ||| b, cnt := 0, flag := true }
        M := { s.M with trace := s.M.trace ++ [.group s.E.cnt s.E.oe s.E.sr b] }
        env := { s.env with agenda := rest } }

/-- R113: after an 8-bit group the shift register is the sampled byte; after a 1-bit group bit 0 is the sampled bit and the others are the old
bits 6 to 0. -/
def Obligations.SampledBitsAfterAGroup : Prop :=
  ∀ (s t : State) (d b : Byte) (rest : List Move), s.M.fault = none → s.env.agenda = .engine d :: rest → step s = .next t →
    t.M.trace = s.M.trace ++ [.group s.E.cnt s.E.oe s.E.sr b] →
    (s.E.cnt = 8 → t.E.sr = b) ∧
    (s.E.cnt = 1 → t.E.sr.getLsbD 0 = b.getLsbD 0 ∧ ∀ i < 7, t.E.sr.getLsbD (i + 1) = s.E.sr.getLsbD i)

/-- R112: under `wired_and` a bit the block drives low reads low, every value that obeys this can be sampled, and under `free` every value
can. -/
def Obligations.SampledBitsObeyTheReadbackLaw : Prop :=
  ∀ (n : BitCount) (sr0 : Byte), n ≠ 0 →
    (∀ d, ∀ i < n.val, sr0.getLsbD (7 - i) = false → (sampledBits .wiredAnd n true sr0 d).getLsbD (n.val - 1 - i) = false) ∧
    (∀ b : Byte, b.toNat < 2 ^ n.val → (∀ i < n.val, sr0.getLsbD (7 - i) = false → b.getLsbD (n.val - 1 - i) = false) →
      ∃ d, sampledBits .wiredAnd n true sr0 d = b) ∧
    (∀ b : Byte, b.toNat < 2 ^ n.val → ∃ d, sampledBits .wiredAnd n false sr0 d = b) ∧
    (∀ (oe : Bool) (b : Byte), b.toNat < 2 ^ n.val → ∃ d, sampledBits .free n oe sr0 d = b)

/-- R160: the master's own ACK reads back as 0 under `wired_and`, so `HandleRxTx` advances; under `free` a draw of 1 ends the transaction
as if NACKed. -/
def Obligations.MasterAckReadback : Prop :=
  ∀ (s : State) (d : Byte) (rest : List Move), s.M.fault = none → s.env.agenda = .engine d :: rest → s.E.cnt = 1 →
    s.E.oe = true → s.E.sr = 0x00#8 →
    ∃ t, step s = .next t ∧
      (ReadbackWiredAnd s → t.E.sr.getLsbD 0 = false ∧ exec .handleRxTx t = advance (readSR t)) ∧
      (s.env.params.readback = .free → d.getLsbD 0 = true →
        ∃ u, exec .handleRxTx t = .next u ∧ u.S = { t.S with state := Config.stopCode })

/-! ## The host -/

/-- R190, R191, R241: the first `init`, with any values in the engine fields it leaves unspecified; a second one raises `InitTwice` and does
nothing else. -/
def Obligations.InitEffect : Prop :=
  ∀ (s : State) (div src : Nat) (d : EngineDraw) (rest : List Move), s.M.fault = none →
    s.env.agenda = .host (.init div src d) :: rest → s.host.pending = none →
    s.P.wakeStatus &&& s.env.params.sleepBits = 0#16 →
    (s.M.inited = false → step s = .next { s with
      S := { s.S with state := Config.idleCode }
      E := { oe := d.oe, sr := d.sr, cnt := d.cnt, ge := d.ge, flag := false }
      P := { s.P with gie := true }
      M := { s.M with inited := true, trace := s.M.trace ++ [.init div src, .clear] }
      env := { s.env with agenda := rest } }) ∧
    (s.M.inited = true →
      step s = .next { s with M := { s.M with fault := some .initTwice }, env := { s.env with agenda := rest } })

/-- R193, R216, R220, R253: the checks of the call step in order: handler context first, which a taken event enters, then `init`; a call that
passes both is held. That a handler's call stands at the invocation's entry is the model's choice (log 31). -/
def Obligations.SendCallChecks : Prop :=
  ∀ (s : State) (a : SendArgs) (rest : List Move), s.M.fault = none →
    (s.env.agenda = .handler (some (.send a)) :: rest → s.E.flag = true → s.P.gie = true →
      step s = .next { s with M := { s.M with fault := some .sendFromHandler }, env := { s.env with agenda := rest } }) ∧
    (s.env.agenda = .host (.send a) :: rest → s.host.pending = none →
      s.P.wakeStatus &&& s.env.params.sleepBits = 0#16 →
      (s.M.inited = false →
        step s = .next { s with M := { s.M with fault := some .notInitialised }, env := { s.env with agenda := rest } }) ∧
      (s.M.inited = true →
        step s = .next { s with host := { s.host with pending := some a }, env := { s.env with agenda := rest } }))

/-- R193: the install step of a held call, once the state is `Idle` and its checks pass, including a region that ends at the top of memory. -/
def Obligations.SendInstallEffect : Prop :=
  ∀ (s : State) (a : SendArgs) (rest : List Move), s.M.fault = none → s.env.agenda = .host .spin :: rest →
    s.host.pending = some a → s.P.wakeStatus &&& s.env.params.sleepBits = 0#16 → s.S.state = Config.idleCode →
    a.cmdBase.getLsbD 0 = false → a.cmdBase.toNat + 2 * a.cmdCount.toNat ≤ 0x10000 → a.rxBase.toNat + a.rxCap ≤ 0x10000 →
    step s = .next { s with
      S := { state := Config.startCode, cmdPtr := a.cmdBase, cmdLen := a.cmdCount, rxPtr := a.rxBase, wakeMask := a.wakeMask }
      E := { s.E with flag := true }
      M := { s.M with
        cmdRegion := some { base := a.cmdBase, count := a.cmdCount }
        rxRegion := some { base := a.rxBase, cap := a.rxCap }
        trace := s.M.trace ++ [.kick] }
      host := { s.host with pending := none }
      env := { s.env with agenda := rest } }

/-- R64, R193, R216: the checks of the install step in order, each with its fault and nothing else. -/
def Obligations.SendInstallFaults : Prop :=
  ∀ (s : State) (a : SendArgs) (rest : List Move), s.M.fault = none → s.env.agenda = .host .spin :: rest →
    s.host.pending = some a → s.P.wakeStatus &&& s.env.params.sleepBits = 0#16 → s.S.state = Config.idleCode →
    (a.cmdBase.getLsbD 0 = true →
      step s = .next { s with
        M := { s.M with fault := some (.misalignedCommands a.cmdBase) }, env := { s.env with agenda := rest } }) ∧
    (a.cmdBase.getLsbD 0 = false → 0x10000 < a.cmdBase.toNat + 2 * a.cmdCount.toNat →
      step s = .next { s with
        M := { s.M with fault := some (.commandRegionWraps a.cmdBase a.cmdCount) }, env := { s.env with agenda := rest } }) ∧
    (a.cmdBase.getLsbD 0 = false → a.cmdBase.toNat + 2 * a.cmdCount.toNat ≤ 0x10000 → 0x10000 < a.rxBase.toNat + a.rxCap →
      step s = .next { s with
        M := { s.M with fault := some (.rxRegionWraps a.rxBase a.rxCap) }, env := { s.env with agenda := rest } })

/-- R194, R195: while a held call spins and the state is not `Idle`, no move of the host writes anything. -/
def Obligations.HeldHostWritesNothing : Prop :=
  ∀ (s : State) (op : HostOp) (rest : List Move), s.M.fault = none → s.env.agenda = .host op :: rest →
    s.host.pending ≠ none → s.S.state ≠ Config.idleCode →
    step s = .next { s with env := { s.env with agenda := rest } }

/-- R196, R220: `done()` returns whether the state is `Idle` and writes nothing else. From handler context it is made inside an invocation, which
is entered by taking the event and goes on to its return as if no call were made. The model's choices: the field that holds what it returns (log
14), and that a handler's call stands at the invocation's entry (log 31). -/
def Obligations.DoneReportsIdle : Prop :=
  ∀ (s : State) (rest : List Move), s.M.fault = none →
    (s.env.agenda = .host .done :: rest → s.host.pending = none → s.P.wakeStatus &&& s.env.params.sleepBits = 0#16 →
      step s = .next { s with
        host := { s.host with result := .isIdle (decide (s.S.state = Config.idleCode)) }
        env := { s.env with agenda := rest } }) ∧
    (s.env.agenda = .handler (some .done) :: rest → s.E.flag = true → s.P.gie = true →
      step s = step { s with
        host := { s.host with result := .isIdle (decide (s.S.state = Config.idleCode)) }
        env := { s.env with agenda := .handler none :: rest } } ∧
      ∃ t, step s = .next t ∧ t.host = { s.host with result := .isIdle (decide (s.S.state = Config.idleCode)) } ∧
        t.env = { s.env with agenda := rest } ∧ (t.M.fault = none → t.E.flag = false))

/-- R72, R198, R256: a host write into the command or receive region while a transaction is active raises `CommandRegionWritten`; a host write in
`Idle` changes exactly its byte, with or without installed regions; and a write outside both regions while a transaction is active is no move of
the host's, and passes (the model's choice, log 5; what counts as during a transaction, log 32). -/
def Obligations.HostWriteRule : Prop :=
  ∀ (s : State) (a : Addr) (v : Byte) (rest : List Move), s.M.fault = none →
    s.env.agenda = .host (.writeByte a v) :: rest → s.host.pending = none →
    s.P.wakeStatus &&& s.env.params.sleepBits = 0#16 →
    (s.S.state ≠ Config.idleCode →
      ((∃ c, s.M.cmdRegion = some c ∧ c.base.toNat ≤ a.toNat ∧ a.toNat < c.base.toNat + 2 * c.count.toNat) ∨
        (∃ r, s.M.rxRegion = some r ∧ r.base.toNat ≤ a.toNat ∧ a.toNat < r.base.toNat + r.cap)) →
      step s = .next { s with
        M := { s.M with fault := some (.commandRegionWritten a) }, env := { s.env with agenda := rest } }) ∧
    (s.S.state ≠ Config.idleCode →
      (∀ c, s.M.cmdRegion = some c → a.toNat < c.base.toNat ∨ c.base.toNat + 2 * c.count.toNat ≤ a.toNat) →
      (∀ r, s.M.rxRegion = some r → a.toNat < r.base.toNat ∨ r.base.toNat + r.cap ≤ a.toNat) →
      step s = .next { s with env := { s.env with agenda := rest } }) ∧
    (s.S.state = Config.idleCode →
      ∃ m, step s = .next { s with mem := m, env := { s.env with agenda := rest } } ∧
        (Memory.wf s.mem = true → Memory.readByte m a = v) ∧ ∀ b, b ≠ a → Memory.readByte m b = Memory.readByte s.mem b)

/-- R73, R198, R221: a host read, of any byte in `Idle` and of the receive buffer during a transaction, has no side effect; a host write of the
interrupt enable and entering sleep change just that. The field that holds what a read returns is the model's (log 14), and so are the
reading of the sleep bits and that the host may set any bits on entering sleep (log 13). -/
def Obligations.HostReadAndPlatformMoves : Prop :=
  ∀ (s : State) (rest : List Move), s.M.fault = none → s.host.pending = none →
    s.P.wakeStatus &&& s.env.params.sleepBits = 0#16 →
    (∀ a, s.env.agenda = .host (.readByte a) :: rest →
      (s.S.state = Config.idleCode ∨ ∃ r, s.M.rxRegion = some r ∧ r.base.toNat ≤ a.toNat ∧ a.toNat < r.base.toNat + r.cap) →
      step s = .next { s with
        host := { s.host with result := .byte (Memory.readByte s.mem a) }, env := { s.env with agenda := rest } }) ∧
    (∀ b, s.env.agenda = .host (.setGie b) :: rest →
      step s = .next { s with P := { s.P with gie := b }, env := { s.env with agenda := rest } }) ∧
    (∀ bits, s.env.agenda = .host (.sleep bits) :: rest →
      step s = .next { s with
        P := { s.P with wakeStatus := s.P.wakeStatus ||| bits }, env := { s.env with agenda := rest } })

/-! ## Reset -/

/-- R240, R41: what the spec gives for power-on. -/
def Obligations.ResetState : Prop :=
  State.reset.S.state = Config.idleCode ∧ State.reset.M.inited = false ∧ State.reset.M.cmdRegion = none ∧
    State.reset.M.rxRegion = none ∧ State.reset.M.fault = none ∧ State.reset.M.trace = []

/-- R243: a power-on at any time gives the power-on state, with any values in the fields that R41 leaves unspecified. The model's choices (log
9): memory becomes what the draw's list of cells describes, which can be any memory; a call in progress ends; the model's own fields go on. -/
def Obligations.PowerOnAtAnyTime : Prop :=
  (∀ (s : State) (d : PowerOnDraw) (rest : List Move), s.M.fault = none → s.env.agenda = .powerOn d :: rest →
    ∃ t, step s = .next t ∧ t.mem = Memory.ofCells d.mem ∧ Memory.wf t.mem = true ∧ t.env = { s.env with agenda := rest } ∧
      t.host = { pending := none, result := .none } ∧
      t.M = { inited := false, cmdRegion := none, rxRegion := none, fault := none, trace := [] } ∧
      t.P = { gie := d.gie, wakeStatus := d.wakeStatus } ∧
      t.E = { oe := d.engine.oe, sr := d.engine.sr, cnt := d.engine.cnt, ge := d.engine.ge, flag := d.flag } ∧
      t.S = { state := Config.idleCode, cmdPtr := d.cmdPtr, cmdLen := d.cmdLen, rxPtr := d.rxPtr, wakeMask := d.wakeMask }) ∧
  ∀ m : List Host.Cell, Memory.wf m = true → Memory.ofCells m = m

/-! ## Invariants of every step -/

/-- The model's memory form (log 4): every step keeps it. -/
def Obligations.StepKeepsMemoryCanonical : Prop :=
  ∀ s t : State, Memory.wf s.mem = true → step s = .next t → Memory.wf t.mem = true

/-- R21, R31, R63, R64, R116, R137, R161, R164, R165: every step keeps the protocol's invariant. -/
def Obligations.StepKeepsProtocolInvariant : Prop :=
  ∀ s t : State, ProtocolInv s → step s = .next t → ProtocolInv t

/-- The power-on state meets the protocol's invariant and the memory form, whatever the unspecified fields hold. -/
def Obligations.ResetMeetsTheInvariants : Prop :=
  ProtocolInv State.reset ∧ Memory.wf State.reset.mem = true ∧ ∀ (d : PowerOnDraw) (s : State), ProtocolInv (powerOn d s)

/-- R63, R64: in a state that meets the invariant, the word the next advance fetches lies in the installed command region, at an even
address. -/
def Obligations.FetchStaysInTheCommandRegion : Prop :=
  ∀ (s : State) (c : CmdRegion), ProtocolInv s → s.M.cmdRegion = some c → s.S.cmdLen ≠ 0#16 →
    c.base.toNat ≤ s.S.cmdPtr.toNat ∧ s.S.cmdPtr.toNat + 2 ≤ c.base.toNat + 2 * c.count.toNat ∧ s.S.cmdPtr.getLsbD 0 = false

/-- R164: after the `Stop` invocation nothing is armed, nothing is pending, and the state is `Idle`; unless code of the host's made in it the call
that is forbidden there (R253). -/
def Obligations.QuiescenceAfterStop : Prop :=
  ∀ (s t : State) (call : Option HandlerCall) (rest : List Move), ProtocolInv s → s.S.state = Config.stopCode →
    s.env.agenda = .handler call :: rest → (∀ a, call ≠ some (.send a)) → s.E.flag = true → s.P.gie = true → step s = .next t → t.S.state = Config.idleCode ∧ t.E.cnt = 0 ∧ t.E.flag = false ∧ t.M.fault = none

/-! ## Rules of the whole machine -/

/-- R25, R164: the Transaction State changes only by a taken invocation, by the first `init`, by an install in `Idle`, or by power-on; and in a
state that meets the invariant, while a transaction is active only a taken invocation (or power-on) writes it. -/
def Obligations.OnlyInvocationsWriteAnActiveTransaction : Prop :=
  ∀ s t : State, step s = .next t → t.S ≠ s.S →
    (((∃ call, nextMove s = .handler call) ∧ s.E.flag = true ∧ s.P.gie = true ∧ s.S.state ≠ Config.idleCode) ∨
      (s.M.inited = false ∧ ∃ div src d, nextMove s = .host (.init div src d)) ∨
      (s.S.state = Config.idleCode ∧ nextMove s = .host .spin) ∨
      ∃ d, nextMove s = .powerOn d) ∧
    (ProtocolInv s → s.S.state ≠ Config.idleCode →
      ((∃ call, nextMove s = .handler call) ∧ s.E.flag = true ∧ s.P.gie = true) ∨ ∃ d, nextMove s = .powerOn d)

/-- R22: while a transaction is active, a step leaves the command view as it is or consumes one command from its front, unless it is a
power-on. -/
def Obligations.CommandViewOnlyShrinks : Prop :=
  ∀ s t : State, s.S.state ≠ Config.idleCode → step s = .next t → (∀ d, nextMove s ≠ .powerOn d) →
    (t.S.cmdPtr = s.S.cmdPtr ∧ t.S.cmdLen = s.S.cmdLen) ∨
    (s.S.cmdLen ≠ 0#16 ∧ t.S.cmdPtr = s.S.cmdPtr + 2#16 ∧ t.S.cmdLen = s.S.cmdLen - 1#16)

/-- R23, R65, R75: a handler's move changes memory only in `ReceivedData`, only at the cursor, only inside the declared buffer, and then the
cursor advances by one. -/
def Obligations.BlockWritesOnlyTheReceiveBuffer : Prop :=
  ∀ (s t : State) (call : Option HandlerCall) (a : Addr), step s = .next t → nextMove s = .handler call →
    Memory.readByte t.mem a ≠ Memory.readByte s.mem a →
    s.S.state = Config.receivedDataCode ∧ a = s.S.rxPtr ∧ t.S.rxPtr = s.S.rxPtr + 1#16 ∧
      ∃ r, s.M.rxRegion = some r ∧ r.base.toNat ≤ a.toNat ∧ a.toNat < r.base.toNat + r.cap

/-- R72: while a transaction is active, a move of the host leaves every byte of the command region and of the receive region as it is. -/
def Obligations.HostLeavesActiveRegionsAlone : Prop :=
  ∀ (s t : State) (op : HostOp) (a : Addr), s.S.state ≠ Config.idleCode → nextMove s = .host op → step s = .next t →
    (inCmdRegion s.M.cmdRegion a = true ∨ inRxRegion s.M.rxRegion a = true) →
    Memory.readByte t.mem a = Memory.readByte s.mem a

/-- R40, R101: the port trace is appended to and never rewritten, but by a power-on. -/
def Obligations.TraceOnlyGrows : Prop :=
  ∀ s t : State, step s = .next t → (∀ d, nextMove s ≠ .powerOn d) → ∃ l, t.M.trace = s.M.trace ++ l

/-- R24, R35, R36, R158: an invocation never writes the interrupt enable nor the wake mask, and writes the wake status only in `Stop` with a
nonzero mask, by clearing the mask's bits. -/
def Obligations.BlockOnlyClearsWakeBitsInStop : Prop :=
  ∀ (s t : State) (call : Option HandlerCall), nextMove s = .handler call → step s = .next t →
    t.P.gie = s.P.gie ∧ t.S.wakeMask = s.S.wakeMask ∧
    (t.P.wakeStatus ≠ s.P.wakeStatus →
      s.S.state = Config.stopCode ∧ s.S.wakeMask ≠ 0#16 ∧ t.P.wakeStatus = s.P.wakeStatus &&& ~~~ s.S.wakeMask)

/-- R150, R161: while a transaction is active no step raises the bound on its invocations, and every invocation that raises no fault lowers
it. -/
def Obligations.EveryInvocationLowersTheBound : Prop :=
  ∀ s t : State, s.S.state ≠ Config.idleCode → s.S.state ≠ Config.reservedCode → s.M.inited = true → step s = .next t →
    invocationsLeft t ≤ invocationsLeft s ∧
    (∀ call, nextMove s = .handler call → s.E.flag = true → s.P.gie = true → t.M.fault = none → invocationsLeft t < invocationsLeft s) ∧
    (s.E.flag = true → t.E.flag = false → invocationsLeft t < invocationsLeft s)

/-! ## Whole transactions -/

/-- R162, R165, R75, R113: a transaction in which every tested slot samples 0 is active until its last invocation, returns to `Idle` with it,
having consumed every command, and takes `2 + 2W + 2R + X` invocations; the receive addresses hold the bytes that the `Read`s sampled, in
command order, and every other byte of memory reads as before. -/
def Obligations.AckedTransactionTakesTheCountedInvocations : Prop :=
  ∀ (s : State) (l : List CommandDraws) (framing : Byte) (rest : List Move), JustInstalled s l →
    s.env.agenda = .handler none :: ackedMoves l framing ++ rest →
    handlerMoves (.handler none :: ackedMoves l framing) = 2 + 2 * writes l + 2 * reads l + restarts l ∧
    (∀ k ≤ (ackedMoves l framing).length, ∃ t, runFrom k s = .next t ∧ t.S.state ≠ Config.idleCode) ∧
    ∃ t, runFrom (1 + (ackedMoves l framing).length) s = .next t ∧ t.S.state = Config.idleCode ∧ t.M.fault = none ∧
      t.S.cmdLen = 0#16 ∧ t.S.rxPtr = s.S.rxPtr + BitVec.ofNat 16 (reads l) ∧ t.env.agenda = rest ∧
      (Memory.wf s.mem = true → ∀ (k : Nat) (b : Byte), (readBytes l)[k]? = some b →
        Memory.readByte t.mem (s.S.rxPtr + BitVec.ofNat 16 k) = b) ∧
      ∀ a : Addr, (∀ k < reads l, a ≠ s.S.rxPtr + BitVec.ofNat 16 k) → Memory.readByte t.mem a = Memory.readByte s.mem a

/-- R163, R118: after a slave slot samples 1, exactly two invocations follow, with the records of the STOP framing and the STOP between; no command
is consumed and no byte is stored. The statement's premises: interrupts are enabled, and the schedule holds nothing but the two engine
completions and the two invocations, in turn. -/
def Obligations.NackEndsTheTransactionInTwoInvocations : Prop :=
  ∀ (s : State) (d e : Byte) (rest : List Move), s.M.fault = none → s.P.gie = true → s.S.state = Config.handleRxTxCode →
    s.E.cnt = 1 → s.E.oe = false → d.getLsbD 0 = true → s.env.agenda = [.engine d, .handler none, .engine e, .handler none] ++ rest →
    (∃ u, runFrom 2 s = .next u ∧ u.S.state = Config.stopCode) ∧
    ∃ t v x, runFrom 4 s = .next t ∧ t.S = { s.S with state := Config.idleCode } ∧ t.mem = s.mem ∧ t.M.fault = none ∧
      t.E.cnt = 0 ∧ t.E.flag = false ∧
      t.M.trace = s.M.trace ++ [.group 1 false s.E.sr 1#8, .read v, .drive true, .load 0x00#8, .arm 1, .clear,
        .group 1 true 0x00#8 x, .load 0xFF#8, .gateOpen, .gateClose] ++
        (if s.S.wakeMask = 0#16 then [] else [.wake s.S.wakeMask]) ++ [.clear]

/-- R113, R156: the byte an active `Read` stores is the byte its group sampled. -/
def Obligations.ReadStoresTheSampledByte : Prop :=
  ∀ (s : State) (d : Byte) (r : RxRegion) (rest : List Move), s.M.fault = none → s.P.gie = true →
    s.S.state = Config.receivedDataCode → s.E.cnt = 8 → s.E.oe = false → Memory.wf s.mem = true → s.M.rxRegion = some r →
    r.base.toNat ≤ s.S.rxPtr.toNat → s.S.rxPtr.toNat < r.base.toNat + r.cap →
    s.env.agenda = [.engine d, .handler none] ++ rest →
    ∃ t, runFrom 2 s = .next t ∧ t.M.fault = none ∧ Memory.readByte t.mem s.S.rxPtr = d ∧
      (∀ a, a ≠ s.S.rxPtr → Memory.readByte t.mem a = Memory.readByte s.mem a) ∧ t.S.rxPtr = s.S.rxPtr + 1#16

/-- R194, R254: a host that spins with interrupts disabled while a transaction is active stays so, whatever any agent does, until power-on. -/
def Obligations.HoldWithInterruptsOffNeverEnds : Prop :=
  ∀ s t : State, StuckHold s → step s = .next t → (∀ d, nextMove s ≠ .powerOn d) →
    StuckHold t ∧ t.S = s.S

/-- R114, R194: under the spec's premise `EngineFair` and the model's own premise `InterruptFair` (log 26), every transaction comes to `Idle`,
unless a fault is recorded. -/
def Obligations.FairTransactionsEnd : Prop :=
  ∀ s : State, ProtocolInv s → EngineFair s → InterruptFair s →
    ∃ k t, runFrom k s = .next t ∧ (t.S.state = Config.idleCode ∨ t.M.fault ≠ none)
end

