-- ==== Sys2Proof/Laws/State.lean ====
section
/-! SUPPORT. One lemma per component per update of the state: the component an update writes, and the six it leaves alone. Proofs over
the state cite these (they are simp lemmas) and never unfold a record update. -/

namespace Sys2Proof.Machine

variable (s : State)

@[simp] theorem goto_S (c : StateCode) : (goto c s).S = { s.S with state := c } := rfl
@[simp] theorem goto_E (c : StateCode) : (goto c s).E = s.E := rfl
@[simp] theorem goto_P (c : StateCode) : (goto c s).P = s.P := rfl
@[simp] theorem goto_M (c : StateCode) : (goto c s).M = s.M := rfl
@[simp] theorem goto_mem (c : StateCode) : (goto c s).mem = s.mem := rfl
@[simp] theorem goto_host (c : StateCode) : (goto c s).host = s.host := rfl
@[simp] theorem goto_env (c : StateCode) : (goto c s).env = s.env := rfl

@[simp] theorem setCmdView_S (p : Addr) (n : CmdCount) : (setCmdView p n s).S = { s.S with cmdPtr := p, cmdLen := n } := rfl
@[simp] theorem setCmdView_E (p : Addr) (n : CmdCount) : (setCmdView p n s).E = s.E := rfl
@[simp] theorem setCmdView_P (p : Addr) (n : CmdCount) : (setCmdView p n s).P = s.P := rfl
@[simp] theorem setCmdView_M (p : Addr) (n : CmdCount) : (setCmdView p n s).M = s.M := rfl
@[simp] theorem setCmdView_mem (p : Addr) (n : CmdCount) : (setCmdView p n s).mem = s.mem := rfl
@[simp] theorem setCmdView_host (p : Addr) (n : CmdCount) : (setCmdView p n s).host = s.host := rfl
@[simp] theorem setCmdView_env (p : Addr) (n : CmdCount) : (setCmdView p n s).env = s.env := rfl

@[simp] theorem setRxPtr_S (a : Addr) : (setRxPtr a s).S = { s.S with rxPtr := a } := rfl
@[simp] theorem setRxPtr_E (a : Addr) : (setRxPtr a s).E = s.E := rfl
@[simp] theorem setRxPtr_P (a : Addr) : (setRxPtr a s).P = s.P := rfl
@[simp] theorem setRxPtr_M (a : Addr) : (setRxPtr a s).M = s.M := rfl
@[simp] theorem setRxPtr_mem (a : Addr) : (setRxPtr a s).mem = s.mem := rfl
@[simp] theorem setRxPtr_host (a : Addr) : (setRxPtr a s).host = s.host := rfl
@[simp] theorem setRxPtr_env (a : Addr) : (setRxPtr a s).env = s.env := rfl

@[simp] theorem setWakeMask_S (m : WakeBits) : (setWakeMask m s).S = { s.S with wakeMask := m } := rfl
@[simp] theorem setWakeMask_E (m : WakeBits) : (setWakeMask m s).E = s.E := rfl
@[simp] theorem setWakeMask_P (m : WakeBits) : (setWakeMask m s).P = s.P := rfl
@[simp] theorem setWakeMask_M (m : WakeBits) : (setWakeMask m s).M = s.M := rfl
@[simp] theorem setWakeMask_mem (m : WakeBits) : (setWakeMask m s).mem = s.mem := rfl
@[simp] theorem setWakeMask_host (m : WakeBits) : (setWakeMask m s).host = s.host := rfl
@[simp] theorem setWakeMask_env (m : WakeBits) : (setWakeMask m s).env = s.env := rfl

@[simp] theorem setOe_S (b : Bool) : (setOe b s).S = s.S := rfl
@[simp] theorem setOe_E (b : Bool) : (setOe b s).E = { s.E with oe := b } := rfl
@[simp] theorem setOe_P (b : Bool) : (setOe b s).P = s.P := rfl
@[simp] theorem setOe_M (b : Bool) : (setOe b s).M = s.M := rfl
@[simp] theorem setOe_mem (b : Bool) : (setOe b s).mem = s.mem := rfl
@[simp] theorem setOe_host (b : Bool) : (setOe b s).host = s.host := rfl
@[simp] theorem setOe_env (b : Bool) : (setOe b s).env = s.env := rfl

@[simp] theorem setSr_S (v : Byte) : (setSr v s).S = s.S := rfl
@[simp] theorem setSr_E (v : Byte) : (setSr v s).E = { s.E with sr := v } := rfl
@[simp] theorem setSr_P (v : Byte) : (setSr v s).P = s.P := rfl
@[simp] theorem setSr_M (v : Byte) : (setSr v s).M = s.M := rfl
@[simp] theorem setSr_mem (v : Byte) : (setSr v s).mem = s.mem := rfl
@[simp] theorem setSr_host (v : Byte) : (setSr v s).host = s.host := rfl
@[simp] theorem setSr_env (v : Byte) : (setSr v s).env = s.env := rfl

@[simp] theorem setCnt_S (n : BitCount) : (setCnt n s).S = s.S := rfl
@[simp] theorem setCnt_E (n : BitCount) : (setCnt n s).E = { s.E with cnt := n } := rfl
@[simp] theorem setCnt_P (n : BitCount) : (setCnt n s).P = s.P := rfl
@[simp] theorem setCnt_M (n : BitCount) : (setCnt n s).M = s.M := rfl
@[simp] theorem setCnt_mem (n : BitCount) : (setCnt n s).mem = s.mem := rfl
@[simp] theorem setCnt_host (n : BitCount) : (setCnt n s).host = s.host := rfl
@[simp] theorem setCnt_env (n : BitCount) : (setCnt n s).env = s.env := rfl

@[simp] theorem setGe_S (b : Bool) : (setGe b s).S = s.S := rfl
@[simp] theorem setGe_E (b : Bool) : (setGe b s).E = { s.E with ge := b } := rfl
@[simp] theorem setGe_P (b : Bool) : (setGe b s).P = s.P := rfl
@[simp] theorem setGe_M (b : Bool) : (setGe b s).M = s.M := rfl
@[simp] theorem setGe_mem (b : Bool) : (setGe b s).mem = s.mem := rfl
@[simp] theorem setGe_host (b : Bool) : (setGe b s).host = s.host := rfl
@[simp] theorem setGe_env (b : Bool) : (setGe b s).env = s.env := rfl

@[simp] theorem setFlag_S (b : Bool) : (setFlag b s).S = s.S := rfl
@[simp] theorem setFlag_E (b : Bool) : (setFlag b s).E = { s.E with flag := b } := rfl
@[simp] theorem setFlag_P (b : Bool) : (setFlag b s).P = s.P := rfl
@[simp] theorem setFlag_M (b : Bool) : (setFlag b s).M = s.M := rfl
@[simp] theorem setFlag_mem (b : Bool) : (setFlag b s).mem = s.mem := rfl
@[simp] theorem setFlag_host (b : Bool) : (setFlag b s).host = s.host := rfl
@[simp] theorem setFlag_env (b : Bool) : (setFlag b s).env = s.env := rfl

@[simp] theorem setGie_S (b : Bool) : (setGie b s).S = s.S := rfl
@[simp] theorem setGie_E (b : Bool) : (setGie b s).E = s.E := rfl
@[simp] theorem setGie_P (b : Bool) : (setGie b s).P = { s.P with gie := b } := rfl
@[simp] theorem setGie_M (b : Bool) : (setGie b s).M = s.M := rfl
@[simp] theorem setGie_mem (b : Bool) : (setGie b s).mem = s.mem := rfl
@[simp] theorem setGie_host (b : Bool) : (setGie b s).host = s.host := rfl
@[simp] theorem setGie_env (b : Bool) : (setGie b s).env = s.env := rfl

@[simp] theorem setWakeStatus_S (v : WakeBits) : (setWakeStatus v s).S = s.S := rfl
@[simp] theorem setWakeStatus_E (v : WakeBits) : (setWakeStatus v s).E = s.E := rfl
@[simp] theorem setWakeStatus_P (v : WakeBits) : (setWakeStatus v s).P = { s.P with wakeStatus := v } := rfl
@[simp] theorem setWakeStatus_M (v : WakeBits) : (setWakeStatus v s).M = s.M := rfl
@[simp] theorem setWakeStatus_mem (v : WakeBits) : (setWakeStatus v s).mem = s.mem := rfl
@[simp] theorem setWakeStatus_host (v : WakeBits) : (setWakeStatus v s).host = s.host := rfl
@[simp] theorem setWakeStatus_env (v : WakeBits) : (setWakeStatus v s).env = s.env := rfl

@[simp] theorem setInited_S (b : Bool) : (setInited b s).S = s.S := rfl
@[simp] theorem setInited_E (b : Bool) : (setInited b s).E = s.E := rfl
@[simp] theorem setInited_P (b : Bool) : (setInited b s).P = s.P := rfl
@[simp] theorem setInited_M (b : Bool) : (setInited b s).M = { s.M with inited := b } := rfl
@[simp] theorem setInited_mem (b : Bool) : (setInited b s).mem = s.mem := rfl
@[simp] theorem setInited_host (b : Bool) : (setInited b s).host = s.host := rfl
@[simp] theorem setInited_env (b : Bool) : (setInited b s).env = s.env := rfl

@[simp] theorem setCmdRegion_S (r : Option CmdRegion) : (setCmdRegion r s).S = s.S := rfl
@[simp] theorem setCmdRegion_E (r : Option CmdRegion) : (setCmdRegion r s).E = s.E := rfl
@[simp] theorem setCmdRegion_P (r : Option CmdRegion) : (setCmdRegion r s).P = s.P := rfl
@[simp] theorem setCmdRegion_M (r : Option CmdRegion) : (setCmdRegion r s).M = { s.M with cmdRegion := r } := rfl
@[simp] theorem setCmdRegion_mem (r : Option CmdRegion) : (setCmdRegion r s).mem = s.mem := rfl
@[simp] theorem setCmdRegion_host (r : Option CmdRegion) : (setCmdRegion r s).host = s.host := rfl
@[simp] theorem setCmdRegion_env (r : Option CmdRegion) : (setCmdRegion r s).env = s.env := rfl

@[simp] theorem setRxRegion_S (r : Option RxRegion) : (setRxRegion r s).S = s.S := rfl
@[simp] theorem setRxRegion_E (r : Option RxRegion) : (setRxRegion r s).E = s.E := rfl
@[simp] theorem setRxRegion_P (r : Option RxRegion) : (setRxRegion r s).P = s.P := rfl
@[simp] theorem setRxRegion_M (r : Option RxRegion) : (setRxRegion r s).M = { s.M with rxRegion := r } := rfl
@[simp] theorem setRxRegion_mem (r : Option RxRegion) : (setRxRegion r s).mem = s.mem := rfl
@[simp] theorem setRxRegion_host (r : Option RxRegion) : (setRxRegion r s).host = s.host := rfl
@[simp] theorem setRxRegion_env (r : Option RxRegion) : (setRxRegion r s).env = s.env := rfl

@[simp] theorem setFault_S (f : Option Fault) : (setFault f s).S = s.S := rfl
@[simp] theorem setFault_E (f : Option Fault) : (setFault f s).E = s.E := rfl
@[simp] theorem setFault_P (f : Option Fault) : (setFault f s).P = s.P := rfl
@[simp] theorem setFault_M (f : Option Fault) : (setFault f s).M = { s.M with fault := f } := rfl
@[simp] theorem setFault_mem (f : Option Fault) : (setFault f s).mem = s.mem := rfl
@[simp] theorem setFault_host (f : Option Fault) : (setFault f s).host = s.host := rfl
@[simp] theorem setFault_env (f : Option Fault) : (setFault f s).env = s.env := rfl

@[simp] theorem record_S (r : Record) : (record r s).S = s.S := rfl
@[simp] theorem record_E (r : Record) : (record r s).E = s.E := rfl
@[simp] theorem record_P (r : Record) : (record r s).P = s.P := rfl
@[simp] theorem record_M (r : Record) : (record r s).M = { s.M with trace := s.M.trace ++ [r] } := rfl
@[simp] theorem record_mem (r : Record) : (record r s).mem = s.mem := rfl
@[simp] theorem record_host (r : Record) : (record r s).host = s.host := rfl
@[simp] theorem record_env (r : Record) : (record r s).env = s.env := rfl

@[simp] theorem setMem_S (m : List Host.Cell) : (setMem m s).S = s.S := rfl
@[simp] theorem setMem_E (m : List Host.Cell) : (setMem m s).E = s.E := rfl
@[simp] theorem setMem_P (m : List Host.Cell) : (setMem m s).P = s.P := rfl
@[simp] theorem setMem_M (m : List Host.Cell) : (setMem m s).M = s.M := rfl
@[simp] theorem setMem_mem (m : List Host.Cell) : (setMem m s).mem = m := rfl
@[simp] theorem setMem_host (m : List Host.Cell) : (setMem m s).host = s.host := rfl
@[simp] theorem setMem_env (m : List Host.Cell) : (setMem m s).env = s.env := rfl

@[simp] theorem setPending_S (p : Option SendArgs) : (setPending p s).S = s.S := rfl
@[simp] theorem setPending_E (p : Option SendArgs) : (setPending p s).E = s.E := rfl
@[simp] theorem setPending_P (p : Option SendArgs) : (setPending p s).P = s.P := rfl
@[simp] theorem setPending_M (p : Option SendArgs) : (setPending p s).M = s.M := rfl
@[simp] theorem setPending_mem (p : Option SendArgs) : (setPending p s).mem = s.mem := rfl
@[simp] theorem setPending_host (p : Option SendArgs) : (setPending p s).host = { s.host with pending := p } := rfl
@[simp] theorem setPending_env (p : Option SendArgs) : (setPending p s).env = s.env := rfl

@[simp] theorem setResult_S (r : HostResult) : (setResult r s).S = s.S := rfl
@[simp] theorem setResult_E (r : HostResult) : (setResult r s).E = s.E := rfl
@[simp] theorem setResult_P (r : HostResult) : (setResult r s).P = s.P := rfl
@[simp] theorem setResult_M (r : HostResult) : (setResult r s).M = s.M := rfl
@[simp] theorem setResult_mem (r : HostResult) : (setResult r s).mem = s.mem := rfl
@[simp] theorem setResult_host (r : HostResult) : (setResult r s).host = { s.host with result := r } := rfl
@[simp] theorem setResult_env (r : HostResult) : (setResult r s).env = s.env := rfl

@[simp] theorem setAgenda_S (l : List Move) : (setAgenda l s).S = s.S := rfl
@[simp] theorem setAgenda_E (l : List Move) : (setAgenda l s).E = s.E := rfl
@[simp] theorem setAgenda_P (l : List Move) : (setAgenda l s).P = s.P := rfl
@[simp] theorem setAgenda_M (l : List Move) : (setAgenda l s).M = s.M := rfl
@[simp] theorem setAgenda_mem (l : List Move) : (setAgenda l s).mem = s.mem := rfl
@[simp] theorem setAgenda_host (l : List Move) : (setAgenda l s).host = s.host := rfl
@[simp] theorem setAgenda_env (l : List Move) : (setAgenda l s).env = { s.env with agenda := l } := rfl

@[simp] theorem setTurn_S (n : Nat) : (setTurn n s).S = s.S := rfl
@[simp] theorem setTurn_E (n : Nat) : (setTurn n s).E = s.E := rfl
@[simp] theorem setTurn_P (n : Nat) : (setTurn n s).P = s.P := rfl
@[simp] theorem setTurn_M (n : Nat) : (setTurn n s).M = s.M := rfl
@[simp] theorem setTurn_mem (n : Nat) : (setTurn n s).mem = s.mem := rfl
@[simp] theorem setTurn_host (n : Nat) : (setTurn n s).host = s.host := rfl
@[simp] theorem setTurn_env (n : Nat) : (setTurn n s).env = { s.env with turn := n } := rfl

end Sys2Proof.Machine
end

