-- ==== Sys2Proof/Laws/Ops.lean ====
section
/-! SUPPORT. What each port primitive and each shared operation does to each component of the state, said once (R102 to R110, R131,
R135, R214). -/

namespace Sys2Proof.Machine

variable (s : State)

@[simp] theorem driveLine_S (b : Bool) : (driveLine b s).S = s.S := rfl
@[simp] theorem driveLine_E (b : Bool) : (driveLine b s).E = { s.E with oe := b } := rfl
@[simp] theorem driveLine_P (b : Bool) : (driveLine b s).P = s.P := rfl
@[simp] theorem driveLine_M (b : Bool) : (driveLine b s).M = { s.M with trace := s.M.trace ++ [.drive b] } := rfl
@[simp] theorem driveLine_mem (b : Bool) : (driveLine b s).mem = s.mem := rfl
@[simp] theorem driveLine_host (b : Bool) : (driveLine b s).host = s.host := rfl
@[simp] theorem driveLine_env (b : Bool) : (driveLine b s).env = s.env := rfl

@[simp] theorem loadSR_S (v : Byte) : (loadSR v s).S = s.S := rfl
@[simp] theorem loadSR_E (v : Byte) : (loadSR v s).E = { s.E with sr := v } := rfl
@[simp] theorem loadSR_P (v : Byte) : (loadSR v s).P = s.P := rfl
@[simp] theorem loadSR_M (v : Byte) : (loadSR v s).M = { s.M with trace := s.M.trace ++ [.load v] } := rfl
@[simp] theorem loadSR_mem (v : Byte) : (loadSR v s).mem = s.mem := rfl
@[simp] theorem loadSR_host (v : Byte) : (loadSR v s).host = s.host := rfl
@[simp] theorem loadSR_env (v : Byte) : (loadSR v s).env = s.env := rfl

@[simp] theorem readSR_S : (readSR s).S = s.S := rfl
@[simp] theorem readSR_E : (readSR s).E = s.E := rfl
@[simp] theorem readSR_P : (readSR s).P = s.P := rfl
@[simp] theorem readSR_M : (readSR s).M = { s.M with trace := s.M.trace ++ [.read s.E.sr] } := rfl
@[simp] theorem readSR_mem : (readSR s).mem = s.mem := rfl
@[simp] theorem readSR_host : (readSR s).host = s.host := rfl
@[simp] theorem readSR_env : (readSR s).env = s.env := rfl

@[simp] theorem gateOpen_S : (gateOpen s).S = s.S := rfl
@[simp] theorem gateOpen_E : (gateOpen s).E = { s.E with ge := true } := rfl
@[simp] theorem gateOpen_P : (gateOpen s).P = s.P := rfl
@[simp] theorem gateOpen_M : (gateOpen s).M = { s.M with trace := s.M.trace ++ [.gateOpen] } := rfl
@[simp] theorem gateOpen_mem : (gateOpen s).mem = s.mem := rfl
@[simp] theorem gateOpen_host : (gateOpen s).host = s.host := rfl
@[simp] theorem gateOpen_env : (gateOpen s).env = s.env := rfl

@[simp] theorem gateClose_S : (gateClose s).S = s.S := rfl
@[simp] theorem gateClose_E : (gateClose s).E = { s.E with ge := false } := rfl
@[simp] theorem gateClose_P : (gateClose s).P = s.P := rfl
@[simp] theorem gateClose_M : (gateClose s).M = { s.M with trace := s.M.trace ++ [.gateClose] } := rfl
@[simp] theorem gateClose_mem : (gateClose s).mem = s.mem := rfl
@[simp] theorem gateClose_host : (gateClose s).host = s.host := rfl
@[simp] theorem gateClose_env : (gateClose s).env = s.env := rfl

@[simp] theorem setBitCount_S (n : BitCount) : (setBitCount n s).S = s.S := rfl
@[simp] theorem setBitCount_E (n : BitCount) : (setBitCount n s).E = { s.E with cnt := n } := rfl
@[simp] theorem setBitCount_P (n : BitCount) : (setBitCount n s).P = s.P := rfl
@[simp] theorem setBitCount_M (n : BitCount) : (setBitCount n s).M = { s.M with trace := s.M.trace ++ [.arm n] } := rfl
@[simp] theorem setBitCount_mem (n : BitCount) : (setBitCount n s).mem = s.mem := rfl
@[simp] theorem setBitCount_host (n : BitCount) : (setBitCount n s).host = s.host := rfl
@[simp] theorem setBitCount_env (n : BitCount) : (setBitCount n s).env = s.env := rfl

@[simp] theorem clearFlag_S : (clearFlag s).S = s.S := rfl
@[simp] theorem clearFlag_E : (clearFlag s).E = { s.E with flag := false } := rfl
@[simp] theorem clearFlag_P : (clearFlag s).P = s.P := rfl
@[simp] theorem clearFlag_M : (clearFlag s).M = { s.M with trace := s.M.trace ++ [.clear] } := rfl
@[simp] theorem clearFlag_mem : (clearFlag s).mem = s.mem := rfl
@[simp] theorem clearFlag_host : (clearFlag s).host = s.host := rfl
@[simp] theorem clearFlag_env : (clearFlag s).env = s.env := rfl

@[simp] theorem raiseFlag_S : (raiseFlag s).S = s.S := rfl
@[simp] theorem raiseFlag_E : (raiseFlag s).E = { s.E with flag := true } := rfl
@[simp] theorem raiseFlag_P : (raiseFlag s).P = s.P := rfl
@[simp] theorem raiseFlag_M : (raiseFlag s).M = { s.M with trace := s.M.trace ++ [.kick] } := rfl
@[simp] theorem raiseFlag_mem : (raiseFlag s).mem = s.mem := rfl
@[simp] theorem raiseFlag_host : (raiseFlag s).host = s.host := rfl
@[simp] theorem raiseFlag_env : (raiseFlag s).env = s.env := rfl

@[simp] theorem latchPulse_S : (latchPulse s).S = s.S := rfl
@[simp] theorem latchPulse_E : (latchPulse s).E = { s.E with ge := false } := rfl
@[simp] theorem latchPulse_P : (latchPulse s).P = s.P := rfl
@[simp] theorem latchPulse_M : (latchPulse s).M = { s.M with trace := s.M.trace ++ [.gateOpen, .gateClose] } := by
  simp [latchPulse]
@[simp] theorem latchPulse_mem : (latchPulse s).mem = s.mem := rfl
@[simp] theorem latchPulse_host : (latchPulse s).host = s.host := rfl
@[simp] theorem latchPulse_env : (latchPulse s).env = s.env := rfl

@[simp] theorem generateStart_S : (generateStart s).S = s.S := rfl
@[simp] theorem generateStart_E : (generateStart s).E = { s.E with oe := true, sr := 0x00#8, ge := false } := rfl
@[simp] theorem generateStart_P : (generateStart s).P = s.P := rfl
@[simp] theorem generateStart_M : (generateStart s).M = { s.M with trace := s.M.trace ++ [.load 0x00#8, .gateOpen, .drive true, .gateClose] } := by
  simp [generateStart]
@[simp] theorem generateStart_mem : (generateStart s).mem = s.mem := rfl
@[simp] theorem generateStart_host : (generateStart s).host = s.host := rfl
@[simp] theorem generateStart_env : (generateStart s).env = s.env := rfl

@[simp] theorem stopFraming_S : (stopFraming s).S = { s.S with state := Config.stopCode } := rfl
@[simp] theorem stopFraming_E : (stopFraming s).E = { s.E with oe := true, sr := 0x00#8, cnt := 1 } := rfl
@[simp] theorem stopFraming_P : (stopFraming s).P = s.P := rfl
@[simp] theorem stopFraming_M : (stopFraming s).M = { s.M with trace := s.M.trace ++ [.drive true, .load 0x00#8, .arm 1] } := by
  simp [stopFraming]
@[simp] theorem stopFraming_mem : (stopFraming s).mem = s.mem := rfl
@[simp] theorem stopFraming_host : (stopFraming s).host = s.host := rfl
@[simp] theorem stopFraming_env : (stopFraming s).env = s.env := rfl

@[simp] theorem raiseFault_S (f : Fault) : (raiseFault f s).S = s.S := rfl
@[simp] theorem raiseFault_E (f : Fault) : (raiseFault f s).E = s.E := rfl
@[simp] theorem raiseFault_P (f : Fault) : (raiseFault f s).P = s.P := rfl
@[simp] theorem raiseFault_M (f : Fault) : (raiseFault f s).M = { s.M with fault := some f } := rfl
@[simp] theorem raiseFault_mem (f : Fault) : (raiseFault f s).mem = s.mem := rfl
@[simp] theorem raiseFault_host (f : Fault) : (raiseFault f s).host = s.host := rfl
@[simp] theorem raiseFault_env (f : Fault) : (raiseFault f s).env = s.env := rfl

@[simp] theorem consume_S : (consume s).S = { s.S with cmdPtr := s.S.cmdPtr + 2#16, cmdLen := s.S.cmdLen - 1#16 } := rfl
@[simp] theorem consume_E : (consume s).E = s.E := rfl
@[simp] theorem consume_P : (consume s).P = s.P := rfl
@[simp] theorem consume_M : (consume s).M = s.M := rfl
@[simp] theorem consume_mem : (consume s).mem = s.mem := rfl
@[simp] theorem consume_host : (consume s).host = s.host := rfl
@[simp] theorem consume_env : (consume s).env = s.env := rfl

/-- The return of an invocation that raised nothing clears the flag (R150). -/
theorem returnFromHandler_of_no_fault (h : s.M.fault = none) : returnFromHandler s = clearFlag s := by
  simp [returnFromHandler, h]

/-- The return of an invocation that raised a fault changes nothing, the flag least of all (R214). -/
theorem returnFromHandler_of_fault (h : s.M.fault ≠ none) : returnFromHandler s = s := by
  unfold returnFromHandler
  split
  · contradiction
  · rfl

/-- Two states with the same components are the same state. -/
theorem state_ext {s t : State} (hS : s.S = t.S) (hE : s.E = t.E) (hP : s.P = t.P) (hM : s.M = t.M) (hmem : s.mem = t.mem)
    (hhost : s.host = t.host) (henv : s.env = t.env) : s = t := by
  cases s; cases t; simp_all

end Sys2Proof.Machine
end

