-- ==== Sys2Proof/Laws/Agents.lean ====
section
/-! SUPPORT. Everything the engine and the host can do in one move (R111, R190 to R198). -/

namespace Sys2Proof.Machine

@[simp] theorem completeGroup_S (b : Byte) (s : State) : (completeGroup b s).S = s.S := rfl
@[simp] theorem completeGroup_E (b : Byte) (s : State) :
    (completeGroup b s).E = { s.E with sr := shiftIn s.E.cnt s.E.sr b, cnt := 0, flag := true } := rfl
@[simp] theorem completeGroup_P (b : Byte) (s : State) : (completeGroup b s).P = s.P := rfl
@[simp] theorem completeGroup_M (b : Byte) (s : State) :
    (completeGroup b s).M = { s.M with trace := s.M.trace ++ [.group s.E.cnt s.E.oe s.E.sr b] } := rfl
@[simp] theorem completeGroup_mem (b : Byte) (s : State) : (completeGroup b s).mem = s.mem := rfl
@[simp] theorem completeGroup_host (b : Byte) (s : State) : (completeGroup b s).host = s.host := rfl
@[simp] theorem completeGroup_env (b : Byte) (s : State) : (completeGroup b s).env = s.env := rfl

/-- Everything the engine can do: nothing while no group is armed, else the completion (R111). -/
theorem engineStep_cases (d : Byte) (s : State) :
    (s.E.cnt = 0 ∧ engineStep d s = s) ∨
    (s.E.cnt ≠ 0 ∧
      engineStep d s = completeGroup (sampledBits s.env.params.readback s.E.cnt s.E.oe s.E.sr d) s) := by
  by_cases h : s.E.cnt = 0
  · exact .inl ⟨h, by simp [engineStep, h]⟩
  · exact .inr ⟨h, by simp [engineStep, h]⟩

@[simp] theorem configureMaster_S (d : EngineDraw) (s : State) : (configureMaster d s).S = s.S := rfl
@[simp] theorem configureMaster_E (d : EngineDraw) (s : State) :
    (configureMaster d s).E = { oe := d.oe, sr := d.sr, cnt := d.cnt, ge := d.ge, flag := s.E.flag } := rfl
@[simp] theorem configureMaster_P (d : EngineDraw) (s : State) : (configureMaster d s).P = s.P := rfl
@[simp] theorem configureMaster_M (d : EngineDraw) (s : State) : (configureMaster d s).M = s.M := rfl
@[simp] theorem configureMaster_mem (d : EngineDraw) (s : State) : (configureMaster d s).mem = s.mem := rfl
@[simp] theorem configureMaster_host (d : EngineDraw) (s : State) : (configureMaster d s).host = s.host := rfl
@[simp] theorem configureMaster_env (d : EngineDraw) (s : State) : (configureMaster d s).env = s.env := rfl

/-- The state an admitted install leaves (R193). -/
def afterInstall (a : SendArgs) (s : State) : State :=
  { s with
    S := { state := Config.startCode, cmdPtr := a.cmdBase, cmdLen := a.cmdCount, rxPtr := a.rxBase, wakeMask := a.wakeMask }
    E := { s.E with flag := true }
    M := { s.M with
      cmdRegion := some { base := a.cmdBase, count := a.cmdCount }
      rxRegion := some { base := a.rxBase, cap := a.rxCap }
      trace := s.M.trace ++ [.kick] }
    host := { s.host with pending := none } }

/-- Everything the install can do: the first failing check's fault, or the installed state (R193, R216). -/
theorem install_cases (a : SendArgs) (s : State) :
    (∃ f, installFault a = some f ∧ install a s = raiseFault f s) ∨ (installFault a = none ∧ install a s = afterInstall a s) := by
  cases h : installFault a with
  | some f => exact .inl ⟨f, rfl, by simp [install, h]⟩
  | none =>
    refine .inr ⟨rfl, ?_⟩
    refine (show install a s = setPending none (raiseFlag (goto Config.startCode (declareRegions a
      (setWakeMask a.wakeMask (setRxPtr a.rxBase (setCmdView a.cmdBase a.cmdCount s)))))) by simp [install, h]).trans ?_
    rfl

/-- The checks of the install step, one by one and in order (R64, R193, R216). -/
theorem installFault_odd {a : SendArgs} (h : a.cmdBase.getLsbD 0 = true) :
    installFault a = some (.misalignedCommands a.cmdBase) := by
  simp [installFault, h]

theorem installFault_commands_wrap {a : SendArgs} (h : a.cmdBase.getLsbD 0 = false)
    (h1 : 0x10000 < a.cmdBase.toNat + 2 * a.cmdCount.toNat) :
    installFault a = some (.commandRegionWraps a.cmdBase a.cmdCount) := by
  unfold installFault
  rw [if_neg (by rw [h]; exact Bool.false_ne_true)]
  exact if_pos h1

theorem installFault_buffer_wraps {a : SendArgs} (h : a.cmdBase.getLsbD 0 = false)
    (h1 : a.cmdBase.toNat + 2 * a.cmdCount.toNat ≤ 0x10000) (h2 : 0x10000 < a.rxBase.toNat + a.rxCap) :
    installFault a = some (.rxRegionWraps a.rxBase a.rxCap) := by
  unfold installFault
  rw [if_neg (by rw [h]; exact Bool.false_ne_true)]
  exact (if_neg (Nat.not_lt.2 h1)).trans (if_pos h2)

/-- An install has no failing check exactly when its base is even and both regions end inside memory. -/
theorem installFault_none_iff {a : SendArgs} :
    installFault a = none ↔ a.cmdBase.getLsbD 0 = false ∧ a.cmdBase.toNat + 2 * a.cmdCount.toNat ≤ 0x10000 ∧
      a.rxBase.toNat + a.rxCap ≤ 0x10000 := by
  constructor
  · intro h
    refine ⟨?_, ?_, ?_⟩
    · by_contra h0
      rw [installFault_odd (by simpa using h0)] at h
      cases h
    · by_contra h1
      cases h0 : a.cmdBase.getLsbD 0
      · rw [installFault_commands_wrap h0 (by omega)] at h
        cases h
      · rw [installFault_odd h0] at h
        cases h
    · by_contra h2
      cases h0 : a.cmdBase.getLsbD 0
      · by_cases h1 : a.cmdBase.toNat + 2 * a.cmdCount.toNat ≤ 0x10000
        · rw [installFault_buffer_wraps h0 h1 (by omega)] at h
          cases h
        · rw [installFault_commands_wrap h0 (by omega)] at h
          cases h
      · rw [installFault_odd h0] at h
        cases h
  · rintro ⟨h0, h1, h2⟩
    unfold installFault
    rw [if_neg (by rw [h0]; exact Bool.false_ne_true)]
    exact (if_neg (Nat.not_lt.2 h1)).trans (if_neg (Nat.not_lt.2 h2))

/-- The state an admitted `init` leaves (R190). -/
def afterInit (div src : Nat) (d : EngineDraw) (s : State) : State :=
  { s with
    S := { s.S with state := Config.idleCode }
    E := { oe := d.oe, sr := d.sr, cnt := d.cnt, ge := d.ge, flag := false }
    P := { s.P with gie := true }
    M := { s.M with inited := true, trace := s.M.trace ++ [.init div src, .clear] } }

/-- Everything `init` can do (R190). -/
theorem hostInit_cases (div src : Nat) (d : EngineDraw) (s : State) :
    (s.M.inited = true ∧ hostInit div src d s = raiseFault .initTwice s) ∨
    (s.M.inited = false ∧ hostInit div src d s = afterInit div src d s) := by
  cases h : s.M.inited
  · refine .inr ⟨rfl, ?_⟩
    refine (show hostInit div src d s = setInited true (goto Config.idleCode (setGie true (clearFlag (record (.init div src)
      (configureMaster d (setGie false s)))))) by simp [hostInit, h]).trans ?_
    refine state_ext ?_ ?_ ?_ ?_ ?_ ?_ ?_ <;> simp [afterInit]
  · exact .inl ⟨rfl, by simp [hostInit, h]⟩

/-- Everything the call step can do (R193). -/
theorem callSend_cases (a : SendArgs) (ctx : Context) (s : State) :
    (ctx = .handler ∧ callSend a ctx s = raiseFault .sendFromHandler s) ∨
    (ctx = .normal ∧ s.M.inited = false ∧ callSend a ctx s = raiseFault .notInitialised s) ∨
    (ctx = .normal ∧ s.M.inited = true ∧ callSend a ctx s = setPending (some a) s) := by
  cases ctx with
  | handler => exact .inl ⟨rfl, rfl⟩
  | normal =>
    cases h : s.M.inited
    · exact .inr (.inl ⟨rfl, rfl, by simp [callSend, h]⟩)
    · exact .inr (.inr ⟨rfl, rfl, by simp [callSend, h]⟩)

/-- Everything one iteration of the busy-wait can do (R193, R194). -/
theorem spinOnce_cases (s : State) :
    spinOnce s = s ∨ (s.S.state = Config.idleCode ∧ ∃ a, s.host.pending = some a ∧ spinOnce s = install a s) := by
  unfold spinOnce
  split
  · exact .inl rfl
  · rename_i a ha
    split
    · rename_i hi
      exact .inr ⟨by simpa [isIdle] using hi, a, ha, rfl⟩
    · exact .inl rfl

/-- Everything a host write can do (R72). -/
theorem hostWrite_cases (a : Addr) (v : Byte) (s : State) :
    (s.S.state ≠ Config.idleCode ∧ hostWrite a v s = raiseFault (.commandRegionWritten a) s) ∨
    (s.S.state = Config.idleCode ∧ hostWrite a v s = setMem (Memory.writeByte s.mem a v) s) := by
  by_cases hi : s.S.state = Config.idleCode
  · exact .inr ⟨hi, by simp [hostWrite, isActive, isIdle, hi]⟩
  · exact .inl ⟨hi, by simp [hostWrite, isActive, isIdle, hi]⟩

@[simp] theorem callDone_S (s : State) : (callDone s).S = s.S := rfl
@[simp] theorem callDone_E (s : State) : (callDone s).E = s.E := rfl
@[simp] theorem callDone_P (s : State) : (callDone s).P = s.P := rfl
@[simp] theorem callDone_M (s : State) : (callDone s).M = s.M := rfl
@[simp] theorem callDone_mem (s : State) : (callDone s).mem = s.mem := rfl
@[simp] theorem callDone_host (s : State) : (callDone s).host = { s.host with result := .isIdle (isIdle s) } := rfl
@[simp] theorem callDone_env (s : State) : (callDone s).env = s.env := rfl

/-- A host that neither spins nor sleeps is free. -/
theorem hostFree_eq {s : State} (hp : s.host.pending = none) (hz : s.P.wakeStatus &&& s.env.params.sleepBits = 0#16) :
    hostFree s = true := by
  simp [hostFree, hostHolds, hp, hostAsleep, hz]

/-- A host that spins has no move but the spin (R194). -/
theorem hostCanRun_of_holds {op : HostOp} {s : State} (hp : s.host.pending ≠ none) (ho : op ≠ .spin) : hostCanRun op s = false := by
  have h : hostHolds s = true := Option.isSome_iff_ne_none.2 hp
  cases op <;> simp_all [hostCanRun, hostFree]

/-- A host operation that cannot run passes. -/
theorem hostStep_cases (op : HostOp) (s : State) :
    (hostCanRun op s = false ∧ hostStep op s = s) ∨ (hostCanRun op s = true ∧ hostStep op s = hostEffect op s) := by
  cases h : hostCanRun op s
  · exact .inl ⟨rfl, by simp [hostStep, h]⟩
  · exact .inr ⟨rfl, by simp [hostStep, h]⟩

end Sys2Proof.Machine
end

