-- ==== Sys2Proof/Laws/Decode.lean ====
section
/-! SUPPORT. What the decoders answer, said once. -/

namespace Sys2Proof

/-- A word is its tag over its data. -/
theorem tag_append_data (w : CmdWord) : tagOf w ++ dataOf w = w := by
  apply BitVec.eq_of_getLsbD_eq
  intro i hi
  simp only [tagOf, dataOf, BitVec.getLsbD_append, BitVec.getLsbD_extractLsb']
  by_cases h : i < 8
  · simp [h]
  · have h8 : 8 + (i - 8) = i := by omega
    have h9 : i - 8 < 8 := by omega
    simp [h, h8, h9]

@[simp] theorem tagOf_append (t d : Byte) : tagOf (t ++ d) = t := by
  apply BitVec.eq_of_getLsbD_eq
  intro i hi
  have h := BitVec.getLsbD_append (x := t) (y := d) (i := 8 + i)
  simp only [tagOf, BitVec.getLsbD_extractLsb', hi, decide_true, Bool.true_and]
  exact h.trans (by simp)

@[simp] theorem dataOf_append (t d : Byte) : dataOf (t ++ d) = d := by
  apply BitVec.eq_of_getLsbD_eq
  intro i hi
  have h := BitVec.getLsbD_append (x := t) (y := d) (i := 0 + i)
  simp only [dataOf, BitVec.getLsbD_extractLsb', hi, decide_true, Bool.true_and]
  exact h.trans (by simp [hi])

/-- The four answers of the command decoder (R85). -/
theorem decodeCommand_cases (w : CmdWord) :
    (tagOf w = 0x00#8 ∧ decodeCommand w = .ok (.write (dataOf w))) ∨
    (w = Config.restartWord ∧ decodeCommand w = .ok .restart) ∨
    (w = Config.readWord ∧ decodeCommand w = .ok .read) ∨
    (tagOf w ≠ 0x00#8 ∧ w ≠ Config.restartWord ∧ w ≠ Config.readWord ∧ decodeCommand w = .error (.reservedCommand w)) := by
  by_cases h0 : tagOf w = 0x00#8
  · exact .inl ⟨h0, by simp [decodeCommand, h0]⟩
  · by_cases h1 : w = Config.restartWord
    · exact .inr (.inl ⟨h1, by subst h1; decide⟩)
    · by_cases h2 : w = Config.readWord
      · exact .inr (.inr (.inl ⟨h2, by subst h2; decide⟩))
      · exact .inr (.inr (.inr ⟨h0, h1, h2, by simp [decodeCommand, h0, h1, h2]⟩))

/-- The command decoder rejects a word under that word's own name. -/
theorem decodeCommand_error {w : CmdWord} {e : DecodeError} (h : decodeCommand w = .error e) : e = .reservedCommand w := by
  rcases decodeCommand_cases w with ⟨_, hd⟩ | ⟨_, hd⟩ | ⟨_, hd⟩ | ⟨_, _, _, hd⟩ <;> rw [hd] at h <;> cases h
  rfl

/-- The seven states and the reserved code (R88). -/
theorem decodeState_cases (c : StateCode) :
    (c = Config.idleCode ∧ decodeState c = .ok .idle) ∨ (c = Config.startCode ∧ decodeState c = .ok .start) ∨
    (c = Config.prepareAckNackCode ∧ decodeState c = .ok .prepareAckNack) ∨
    (c = Config.handleRxTxCode ∧ decodeState c = .ok .handleRxTx) ∨
    (c = Config.receivedDataCode ∧ decodeState c = .ok .receivedData) ∨
    (c = Config.prepareStopCode ∧ decodeState c = .ok .prepareStop) ∨ (c = Config.stopCode ∧ decodeState c = .ok .stop) ∨
    (c = Config.reservedCode ∧ decodeState c = .error (.reservedState c)) := by
  have h : ∀ n : Fin 8, let c := BitVec.ofFin (w := 3) n
      (c = Config.idleCode ∧ decodeState c = .ok .idle) ∨ (c = Config.startCode ∧ decodeState c = .ok .start) ∨
      (c = Config.prepareAckNackCode ∧ decodeState c = .ok .prepareAckNack) ∨
      (c = Config.handleRxTxCode ∧ decodeState c = .ok .handleRxTx) ∨
      (c = Config.receivedDataCode ∧ decodeState c = .ok .receivedData) ∨
      (c = Config.prepareStopCode ∧ decodeState c = .ok .prepareStop) ∨ (c = Config.stopCode ∧ decodeState c = .ok .stop) ∨
      (c = Config.reservedCode ∧ decodeState c = .error (.reservedState c)) := by decide
  exact h c.toFin

end Sys2Proof
end

