-- ==== Sys2Proof/Laws/Commands.lean ====
section
/-! SUPPORT. What a command does, and everything an advance can do (41_commands.md R131 to R136). -/

namespace Sys2Proof.Machine

/-- The state a command goes to (R132 to R134). -/
def commandTarget (c : Command) : StateCode :=
  match c with
  | .write _ => Config.prepareAckNackCode
  | .read => Config.receivedDataCode
  | .restart => Config.startCode

/-- The ports after a command (R132 to R134). -/
def commandPorts (c : Command) (e : EnginePorts) : EnginePorts :=
  match c with
  | .write b => { e with oe := true, sr := b, cnt := 8 }
  | .read => { e with oe := false, cnt := 8 }
  | .restart => { e with oe := true, sr := 0xFF#8, cnt := 1 }

/-- The records of a command (R132 to R134). -/
def commandRecords (c : Command) : List Record :=
  match c with
  | .write b => [.drive true, .load b, .arm 8]
  | .read => [.drive false, .arm 8]
  | .restart => [.drive true, .load 0xFF#8, .arm 1]

/-- The state after a command: its target, one command consumed, its ports, its records, and nothing else (R130). -/
def afterCommand (c : Command) (s : State) : State :=
  { s with
    S := { s.S with state := commandTarget c, cmdPtr := s.S.cmdPtr + 2#16, cmdLen := s.S.cmdLen - 1#16 }
    E := commandPorts c s.E
    M := { s.M with trace := s.M.trace ++ commandRecords c } }

/-- Everything a command does (R130 to R134). -/
theorem execCommand_eq (c : Command) (s : State) : execCommand c s = .next (afterCommand c s) := by
  cases c <;> refine congrArg Host.Outcome.next (state_ext ?_ ?_ ?_ ?_ ?_ ?_ ?_) <;>
    simp [afterCommand, commandTarget, commandPorts, commandRecords]

theorem execWrite_eq (b : Byte) (s : State) : execWrite b s = .next (afterCommand (.write b) s) := execCommand_eq (.write b) s

theorem execRead_eq (s : State) : execRead s = .next (afterCommand .read s) := execCommand_eq .read s

theorem execRestart_eq (s : State) : execRestart s = .next (afterCommand .restart s) := execCommand_eq .restart s

/-- Everything an advance can do (R131, R136): stop framing when no command is left; else the decoded command; else, for a reserved word,
the fault or a write of its low byte, by the policy. -/
theorem advance_cases (s : State) :
    (s.S.cmdLen = 0#16 ∧ advance s = .next (stopFraming s)) ∨
    (s.S.cmdLen ≠ 0#16 ∧ ∃ c, decodeCommand (nextWord s) = .ok c ∧ advance s = .next (afterCommand c s)) ∨
    (s.S.cmdLen ≠ 0#16 ∧ (∃ e, decodeCommand (nextWord s) = .error e) ∧
      ((s.env.params.reservedPolicy = .fault ∧
          advance s = .next (raiseFault (.reservedCommand (nextWord s) s.S.cmdPtr) s)) ∨
        (s.env.params.reservedPolicy = .writeLowByte ∧
          advance s = .next (afterCommand (.write (dataOf (nextWord s))) s)))) := by
  by_cases hl : s.S.cmdLen = 0#16
  · exact .inl ⟨hl, by simp [advance, commandsRemain, hl]⟩
  · cases hd : decodeCommand (nextWord s) with
    | ok c => exact .inr (.inl ⟨hl, c, rfl, by simp [advance, commandsRemain, hl, hd, execCommand_eq]⟩)
    | error e =>
      refine .inr (.inr ⟨hl, ⟨e, rfl⟩, ?_⟩)
      cases hp : s.env.params.reservedPolicy with
      | fault => exact .inl ⟨rfl, by simp [advance, commandsRemain, hl, hd, reservedCommand, hp]⟩
      | writeLowByte => exact .inr ⟨rfl, by simp [advance, commandsRemain, hl, hd, reservedCommand, hp, execWrite_eq]⟩

/-- An advance always ends in a next state: the stop framing, a command's state, or a raised fault. -/
theorem advance_next (s : State) :
    ∃ t, advance s = .next t ∧
      ((s.S.cmdLen = 0#16 ∧ t = stopFraming s) ∨ (s.S.cmdLen ≠ 0#16 ∧ ∃ c, t = afterCommand c s) ∨
        (s.S.cmdLen ≠ 0#16 ∧ t = raiseFault (.reservedCommand (nextWord s) s.S.cmdPtr) s)) := by
  rcases advance_cases s with ⟨h, e⟩ | ⟨h, c, _, e⟩ | ⟨h, _, ⟨_, e⟩ | ⟨_, e⟩⟩
  · exact ⟨_, e, .inl ⟨h, rfl⟩⟩
  · exact ⟨_, e, .inr (.inl ⟨h, c, rfl⟩)⟩
  · exact ⟨_, e, .inr (.inr ⟨h, rfl⟩)⟩
  · exact ⟨_, e, .inr (.inl ⟨h, _, rfl⟩)⟩

end Sys2Proof.Machine
end

