-- ==== Sys2Proof/Laws/Memory.lean ====
section
/-! SUPPORT. Data memory: a read after a write, the canonical form kept by every memory operation, equal memories as equal data, and the
bytes of a fetched word. -/

namespace Sys2Proof.Machine

namespace Memory

/-! ## The canonical form -/

theorem keysAbove_mono {j k : Nat} {m : List Host.Cell} (hjk : j ≤ k) (h : keysAbove k m = true) : keysAbove j m = true := by
  simp only [keysAbove, List.all_eq_true, Bool.and_eq_true, decide_eq_true_eq] at h ⊢
  exact fun c hc => ⟨by have := (h c hc).1; omega, (h c hc).2⟩

/-- The canonical form of a nonempty memory, field by field. -/
theorem wf_cons_iff (c : Host.Cell) (m : List Host.Cell) :
    wf (c :: m) = true ↔ c.1 < Config.memSize ∧ c.2 ≠ unlisted ∧ keysAbove c.1 m = true ∧ wf m = true := by
  simp [wf, and_assoc]

theorem keysAbove_cons_iff (k : Nat) (c : Host.Cell) (m : List Host.Cell) :
    keysAbove k (c :: m) = true ↔ (k < c.1 ∧ c.1 < Config.memSize) ∧ keysAbove k m = true := by
  simp [keysAbove]

theorem wf_putFront {k : Nat} {v : Byte} {m : List Host.Cell} (hk : k < Config.memSize) (ha : keysAbove k m = true)
    (hw : wf m = true) : wf (putFront k v m) = true := by
  unfold putFront
  split
  · exact hw
  · rename_i hv
    exact (wf_cons_iff _ _).2 ⟨hk, hv, ha, hw⟩

theorem keysAbove_putFront {j k : Nat} {v : Byte} {m : List Host.Cell} (hjk : j < k) (hk : k < Config.memSize)
    (ha : keysAbove j m = true) : keysAbove j (putFront k v m) = true := by
  unfold putFront
  split
  · exact ha
  · exact (keysAbove_cons_iff _ _ _).2 ⟨⟨hjk, hk⟩, ha⟩

theorem keysAbove_put {j k : Nat} {v : Byte} {m : List Host.Cell} (hjk : j < k) (hk : k < Config.memSize)
    (ha : keysAbove j m = true) : keysAbove j (put m k v) = true := by
  induction m with
  | nil => exact keysAbove_putFront hjk hk ha
  | cons c rest ih =>
    have hc := (keysAbove_cons_iff _ _ _).1 ha
    simp only [put]
    split
    · exact keysAbove_putFront hjk hk ha
    · split
      · exact keysAbove_putFront hjk hk hc.2
      · exact (keysAbove_cons_iff _ _ _).2 ⟨hc.1, ih hc.2⟩

/-- A write of one byte keeps the canonical form. -/
theorem wf_put {k : Nat} {v : Byte} {m : List Host.Cell} (hk : k < Config.memSize) (hw : wf m = true) : wf (put m k v) = true := by
  induction m with
  | nil => exact wf_putFront hk rfl rfl
  | cons c rest ih =>
    have hc := (wf_cons_iff _ _).1 hw
    simp only [put]
    split
    · rename_i hlt
      exact wf_putFront hk ((keysAbove_cons_iff _ _ _).2 ⟨⟨hlt, hc.1⟩, keysAbove_mono (Nat.le_of_lt hlt) hc.2.2.1⟩) hw
    · split
      · rename_i heq
        exact wf_putFront hk (heq ▸ hc.2.2.1) hc.2.2.2
      · rename_i hnlt hne
        exact (wf_cons_iff _ _).2 ⟨hc.1, hc.2.1, keysAbove_put (by omega) hk hc.2.2.1, ih hc.2.2.2⟩

theorem addr_lt_memSize (a : Addr) : a.toNat < Config.memSize := a.isLt

/-- `writeByte` keeps the canonical form. -/
theorem wf_writeByte {m : List Host.Cell} (a : Addr) (v : Byte) (hw : wf m = true) : wf (writeByte m a v) = true :=
  wf_put (addr_lt_memSize a) hw

/-- `MemWrite` keeps the canonical form, at every width. -/
theorem wf_write {m : List Host.Cell} (a : Addr) (n v : Nat) (hw : wf m = true) : wf (write m a n v) = true := by
  induction n generalizing m a v with
  | zero => exact hw
  | succ k ih => exact ih _ _ (wf_writeByte _ _ hw)

/-- The memory of a power-on draw is in the canonical form. -/
theorem wf_ofCells (l : List Host.Cell) : wf (ofCells l) = true := by
  induction l with
  | nil => rfl
  | cons c rest ih => exact wf_put (Nat.mod_lt _ (by decide)) ih

/-! ## Reading after writing -/

theorem get_of_keysAbove {j k : Nat} {m : List Host.Cell} (ha : keysAbove k m = true) (hj : j ≤ k) : get m j = unlisted := by
  induction m with
  | nil => rfl
  | cons c rest ih =>
    have hc := (keysAbove_cons_iff _ _ _).1 ha
    have hne : c.1 ≠ j := by omega
    simp only [get, if_neg hne]
    exact ih hc.2

theorem get_putFront_self {k : Nat} {v : Byte} {m : List Host.Cell} (ha : keysAbove k m = true) : get (putFront k v m) k = v := by
  unfold putFront
  split
  · rename_i hv
    rw [hv]
    exact get_of_keysAbove ha (Nat.le_refl k)
  · simp [get]

theorem get_putFront_of_ne {j k : Nat} {v : Byte} {m : List Host.Cell} (h : j ≠ k) : get (putFront k v m) j = get m j := by
  unfold putFront
  split
  · rfl
  · simp [get, Ne.symm h]

/-- A read after a write to the same key gives the value written. -/
theorem get_put_self {k : Nat} {v : Byte} {m : List Host.Cell} (hw : wf m = true) :
    get (put m k v) k = v := by
  induction m with
  | nil => exact get_putFront_self rfl
  | cons c rest ih =>
    have hc := (wf_cons_iff _ _).1 hw
    simp only [put]
    split
    · rename_i hlt
      exact get_putFront_self ((keysAbove_cons_iff _ _ _).2 ⟨⟨hlt, hc.1⟩, keysAbove_mono (Nat.le_of_lt hlt) hc.2.2.1⟩)
    · split
      · rename_i heq
        exact get_putFront_self (heq ▸ hc.2.2.1)
      · rename_i hne
        simp only [get, if_neg (Ne.symm hne)]
        exact ih hc.2.2.2

/-- A write leaves every other key alone. -/
theorem get_put_of_ne {j k : Nat} {v : Byte} {m : List Host.Cell} (h : j ≠ k) : get (put m k v) j = get m j := by
  induction m with
  | nil => exact get_putFront_of_ne h
  | cons c rest ih =>
    simp only [put]
    split
    · exact get_putFront_of_ne h
    · split
      · rename_i heq
        rw [get_putFront_of_ne h]
        simp [get, ← heq, Ne.symm h]
      · simp only [get, ih]

theorem readByte_writeByte_self {m : List Host.Cell} (a : Addr) (v : Byte) (hw : wf m = true) :
    readByte (writeByte m a v) a = v :=
  get_put_self hw

theorem readByte_writeByte_of_ne {m : List Host.Cell} {a b : Addr} (v : Byte) (h : b ≠ a) :
    readByte (writeByte m a v) b = readByte m b :=
  get_put_of_ne (fun e => h (BitVec.eq_of_toNat_eq e))

/-- A one-byte `MemWrite` is a write of that byte (R62). -/
@[simp] theorem write_one (m : List Host.Cell) (a : Addr) (b : Byte) : write m a 1 b.toNat = writeByte m a b := by
  simp [write]

/-- The least key of a canonical memory is listed with a value of its own. -/
theorem get_head {c : Host.Cell} {m : List Host.Cell} : get (c :: m) c.1 = c.2 := by simp [get]

end Memory

/-- The fetched word's high byte is at the next address, its low byte at the address itself (R61, R63). -/
theorem cmdFetch_eq_bytes (m : List Host.Cell) (a : Addr) :
    cmdFetch m a = Memory.readByte m (a + 1#16) ++ Memory.readByte m a := by
  apply BitVec.eq_of_toNat_eq
  have hlo := (Memory.readByte m a).isLt
  have hhi := (Memory.readByte m (a + 1#16)).isLt
  rw [cmdFetch, BitVec.toNat_ofNat, BitVec.toNat_append]
  simp only [Memory.read, Nat.mul_zero, Nat.add_zero]
  rw [Nat.shiftLeft_eq, Nat.mul_comm _ (2 ^ 8), ← Nat.two_pow_add_eq_or_of_lt hlo]
  omega

/-- A fetched word is its two bytes read as a little-endian word. -/
theorem cmdFetch_eq_wordOfBytes (m : List Host.Cell) (a : Addr) :
    cmdFetch m a = wordOfBytes (Memory.readByte m a) (Memory.readByte m (a + 1#16)) := cmdFetch_eq_bytes m a

/-- A fetch depends on its two bytes only. -/
theorem cmdFetch_congr {m m' : List Host.Cell} {a : Addr} (h0 : Memory.readByte m' a = Memory.readByte m a)
    (h1 : Memory.readByte m' (a + 1#16) = Memory.readByte m (a + 1#16)) : cmdFetch m' a = cmdFetch m a := by
  rw [cmdFetch_eq_bytes, cmdFetch_eq_bytes, h0, h1]

end Sys2Proof.Machine
end

