-- ==== Sys2Proof/Laws/Handlers.lean ====
section
/-! SUPPORT. Everything each handler can do (42_state_machine.md R151 to R158), what every meaning leaves alone, and the invocation. -/

namespace Sys2Proof.Machine

/-- The store of a received byte, component by component (R156). -/
@[simp] theorem storeReceived_S (b : Byte) (s : State) : (storeReceived b s).S = { s.S with rxPtr := s.S.rxPtr + 1#16 } := rfl
@[simp] theorem storeReceived_E (b : Byte) (s : State) : (storeReceived b s).E = s.E := rfl
@[simp] theorem storeReceived_P (b : Byte) (s : State) : (storeReceived b s).P = s.P := rfl
@[simp] theorem storeReceived_M (b : Byte) (s : State) :
    (storeReceived b s).M = { s.M with trace := s.M.trace ++ [.rxWrite s.S.rxPtr b] } := rfl
@[simp] theorem storeReceived_mem (b : Byte) (s : State) : (storeReceived b s).mem = Memory.writeByte s.mem s.S.rxPtr b :=
  Memory.write_one _ _ _
@[simp] theorem storeReceived_host (b : Byte) (s : State) : (storeReceived b s).host = s.host := rfl
@[simp] theorem storeReceived_env (b : Byte) (s : State) : (storeReceived b s).env = s.env := rfl

/-- The answer to a received byte, in both cases (R156, R159). -/
theorem answerReceived_cases (s : State) :
    (s.S.cmdLen ≠ 0#16 ∧ answerReceived s = setBitCount 1 (goto Config.handleRxTxCode (loadSR 0x00#8 (driveLine true s)))) ∨
    (s.S.cmdLen = 0#16 ∧ answerReceived s = setBitCount 1 (goto Config.prepareStopCode (loadSR 0xFF#8 (driveLine true s)))) := by
  by_cases h : s.S.cmdLen = 0#16
  · exact .inr ⟨h, by simp [answerReceived, commandsRemain, h]⟩
  · exact .inl ⟨h, by simp [answerReceived, commandsRemain, h]⟩

@[simp] theorem answerReceived_P (s : State) : (answerReceived s).P = s.P := by
  rcases answerReceived_cases s with ⟨_, e⟩ | ⟨_, e⟩ <;> simp [e]
@[simp] theorem answerReceived_mem (s : State) : (answerReceived s).mem = s.mem := by
  rcases answerReceived_cases s with ⟨_, e⟩ | ⟨_, e⟩ <;> simp [e]
@[simp] theorem answerReceived_host (s : State) : (answerReceived s).host = s.host := by
  rcases answerReceived_cases s with ⟨_, e⟩ | ⟨_, e⟩ <;> simp [e]
@[simp] theorem answerReceived_env (s : State) : (answerReceived s).env = s.env := by
  rcases answerReceived_cases s with ⟨_, e⟩ | ⟨_, e⟩ <;> simp [e]

/-- The wake request, in both cases (R158). -/
theorem wakeHost_cases (s : State) :
    (s.S.wakeMask = 0#16 ∧ wakeHost s = s) ∨
    (s.S.wakeMask ≠ 0#16 ∧
      wakeHost s = record (.wake s.S.wakeMask) (setWakeStatus (s.P.wakeStatus &&& ~~~ s.S.wakeMask) s)) := by
  by_cases h : s.S.wakeMask = 0#16
  · exact .inl ⟨h, by simp [wakeHost, h]⟩
  · exact .inr ⟨h, by simp [wakeHost, h]⟩

@[simp] theorem wakeHost_S (s : State) : (wakeHost s).S = s.S := by rcases wakeHost_cases s with ⟨_, e⟩ | ⟨_, e⟩ <;> simp [e]
@[simp] theorem wakeHost_E (s : State) : (wakeHost s).E = s.E := by rcases wakeHost_cases s with ⟨_, e⟩ | ⟨_, e⟩ <;> simp [e]
@[simp] theorem wakeHost_mem (s : State) : (wakeHost s).mem = s.mem := by
  rcases wakeHost_cases s with ⟨_, e⟩ | ⟨_, e⟩ <;> simp [e]
@[simp] theorem wakeHost_host (s : State) : (wakeHost s).host = s.host := by
  rcases wakeHost_cases s with ⟨_, e⟩ | ⟨_, e⟩ <;> simp [e]
@[simp] theorem wakeHost_env (s : State) : (wakeHost s).env = s.env := by
  rcases wakeHost_cases s with ⟨_, e⟩ | ⟨_, e⟩ <;> simp [e]

/-- What no meaning of an instruction changes: the completion flag, the global interrupt enable, the wake mask, the declared regions, the
host and the model's own fields; the trace only grows. -/
structure KeptByMeanings (s t : State) : Prop where
  flag : t.E.flag = s.E.flag
  gie : t.P.gie = s.P.gie
  wakeMask : t.S.wakeMask = s.S.wakeMask
  inited : t.M.inited = s.M.inited
  cmdRegion : t.M.cmdRegion = s.M.cmdRegion
  rxRegion : t.M.rxRegion = s.M.rxRegion
  host : t.host = s.host
  env : t.env = s.env
  trace : ∃ l, t.M.trace = s.M.trace ++ l

theorem KeptByMeanings.trans {s t u : State} (h : KeptByMeanings s t) (g : KeptByMeanings t u) : KeptByMeanings s u where
  flag := g.flag.trans h.flag
  gie := g.gie.trans h.gie
  wakeMask := g.wakeMask.trans h.wakeMask
  inited := g.inited.trans h.inited
  cmdRegion := g.cmdRegion.trans h.cmdRegion
  rxRegion := g.rxRegion.trans h.rxRegion
  host := g.host.trans h.host
  env := g.env.trans h.env
  trace := by
    obtain ⟨l, hl⟩ := h.trace
    obtain ⟨k, hk⟩ := g.trace
    exact ⟨l ++ k, by rw [hk, hl, List.append_assoc]⟩

theorem kept_stopFraming (s : State) : KeptByMeanings s (stopFraming s) := by
  constructor <;> simp

theorem kept_generateStart (s : State) : KeptByMeanings s (generateStart s) := by
  constructor <;> simp

theorem kept_readSR (s : State) : KeptByMeanings s (readSR s) := by
  constructor <;> simp

theorem kept_afterCommand (c : Command) (s : State) : KeptByMeanings s (afterCommand c s) := by
  cases c <;> constructor <;> simp [afterCommand, commandPorts]

theorem kept_raiseFault (f : Fault) (s : State) : KeptByMeanings s (raiseFault f s) := by
  constructor <;> simp

theorem kept_storeReceived (b : Byte) (s : State) : KeptByMeanings s (storeReceived b s) := by
  constructor <;> simp

theorem kept_answerReceived (s : State) : KeptByMeanings s (answerReceived s) := by
  rcases answerReceived_cases s with ⟨_, e⟩ | ⟨_, e⟩ <;> constructor <;> simp [e]

theorem kept_wakeHost (s : State) : KeptByMeanings s (wakeHost s) := by
  rcases wakeHost_cases s with ⟨_, e⟩ | ⟨_, e⟩ <;> constructor <;> simp [e]

theorem kept_advance {s t : State} (h : advance s = .next t) : KeptByMeanings s t := by
  obtain ⟨u, hu, hcase⟩ := advance_next s
  obtain rfl : u = t := by rw [hu] at h; exact Host.Outcome.next.inj h
  rcases hcase with ⟨_, rfl⟩ | ⟨_, c, rfl⟩ | ⟨_, rfl⟩
  · exact kept_stopFraming s
  · exact kept_afterCommand c s
  · exact kept_raiseFault _ s

/-- Everything each handler's meaning can do, in terms of the shared operations. -/
theorem execReceivedData_cases (s : State) :
    (inRxRegion s.M.rxRegion s.S.rxPtr = true ∧
      execReceivedData s = .next (answerReceived (storeReceived s.E.sr (readSR s)))) ∨
    (inRxRegion s.M.rxRegion s.S.rxPtr = false ∧ execReceivedData s = .next (raiseFault (.rxOverflow s.S.rxPtr) (readSR s))) := by
  cases h : inRxRegion s.M.rxRegion s.S.rxPtr
  · exact .inr ⟨rfl, by simp [execReceivedData, h]⟩
  · exact .inl ⟨rfl, by simp [execReceivedData, h, receivedByte]⟩

theorem execHandleRxTx_cases (s : State) :
    (receivedBit s = true ∧ execHandleRxTx s = .next (stopFraming (readSR s))) ∨
    (receivedBit s = false ∧ execHandleRxTx s = advance (readSR s)) := by
  cases h : receivedBit s
  · exact .inr ⟨rfl, by simp [execHandleRxTx, h]⟩
  · exact .inl ⟨rfl, by simp [execHandleRxTx, h]⟩

/-- Every meaning answers a next state and keeps what no meaning changes. -/
theorem exec_next (i : Instr) (s : State) : ∃ t, exec i s = .next t ∧ KeptByMeanings s t := by
  cases i with
  | write b => exact ⟨_, execWrite_eq b s, kept_afterCommand _ s⟩
  | restart => exact ⟨_, execRestart_eq s, kept_afterCommand _ s⟩
  | read => exact ⟨_, execRead_eq s, kept_afterCommand _ s⟩
  | idle => exact ⟨s, rfl, by constructor <;> simp⟩
  | start =>
    obtain ⟨t, ht, _⟩ := advance_next (generateStart s)
    exact ⟨t, ht, (kept_generateStart s).trans (kept_advance ht)⟩
  | prepareAckNack => exact ⟨_, rfl, by constructor <;> simp⟩
  | handleRxTx =>
    rcases execHandleRxTx_cases s with ⟨_, e⟩ | ⟨_, e⟩
    · exact ⟨_, e, (kept_readSR s).trans (kept_stopFraming _)⟩
    · obtain ⟨t, ht, _⟩ := advance_next (readSR s)
      exact ⟨t, e.trans ht, (kept_readSR s).trans (kept_advance ht)⟩
  | receivedData =>
    rcases execReceivedData_cases s with ⟨_, e⟩ | ⟨_, e⟩
    · exact ⟨_, e, (kept_readSR s).trans ((kept_storeReceived _ _).trans (kept_answerReceived _))⟩
    · exact ⟨_, e, (kept_readSR s).trans (kept_raiseFault _ _)⟩
  | prepareStop => exact ⟨_, rfl, kept_stopFraming s⟩
  | stop =>
    refine ⟨_, rfl, KeptByMeanings.trans ?_ (kept_wakeHost _)⟩
    constructor <;> simp

/-- An invocation always answers a next state: the handler's with its return, or `BadState` (R150). -/
theorem invocation_cases (s : State) :
    (∃ i t, decodeState s.S.state = .ok i ∧ exec i s = .next t ∧ invocation s = .next (returnFromHandler t)) ∨
    (s.S.state = Config.reservedCode ∧ invocation s = .next (raiseFault (.badState s.S.state) s)) := by
  cases hd : decodeState s.S.state with
  | ok i =>
    obtain ⟨t, ht, _⟩ := exec_next i s
    exact .inl ⟨i, t, rfl, ht, by simp [invocation, hd, ht, finishInvocation]⟩
  | error e =>
    refine .inr ⟨?_, by simp [invocation, hd]⟩
    rcases decodeState_cases s.S.state with ⟨_, h⟩ | ⟨_, h⟩ | ⟨_, h⟩ | ⟨_, h⟩ | ⟨_, h⟩ | ⟨_, h⟩ | ⟨_, h⟩ | ⟨hc, _⟩
    all_goals first | exact hc | (rw [hd] at h; cases h)

/-- How an invocation that advances from `u` can end (R131, R136, R150): the stop framing or a command, and the clear; or a raised fault. -/
def AdvanceEnds (u t : State) : Prop :=
  (u.S.cmdLen = 0#16 ∧ t = clearFlag (stopFraming u)) ∨ (u.S.cmdLen ≠ 0#16 ∧ ∃ c, t = clearFlag (afterCommand c u)) ∨
    (u.S.cmdLen ≠ 0#16 ∧ t = raiseFault (.reservedCommand (nextWord u) u.S.cmdPtr) u)

theorem advanceEnds_of_advance {u v : State} (hf : u.M.fault = none) (h : advance u = .next v) :
    AdvanceEnds u (returnFromHandler v) := by
  obtain ⟨w, hw, hcase⟩ := advance_next u
  obtain rfl : w = v := by rw [hw] at h; exact Host.Outcome.next.inj h
  rcases hcase with ⟨hl, rfl⟩ | ⟨hl, c, rfl⟩ | ⟨hl, rfl⟩
  · exact .inl ⟨hl, returnFromHandler_of_no_fault _ (by simpa using hf)⟩
  · exact .inr (.inl ⟨hl, c, returnFromHandler_of_no_fault _ (by simpa [afterCommand] using hf)⟩)
  · exact .inr (.inr ⟨hl, returnFromHandler_of_fault _ (by simp)⟩)

@[simp] theorem answerReceived_fault (s : State) : (answerReceived s).M.fault = s.M.fault := by
  rcases answerReceived_cases s with ⟨_, e⟩ | ⟨_, e⟩ <;> simp [e]

@[simp] theorem wakeHost_fault (s : State) : (wakeHost s).M.fault = s.M.fault := by
  rcases wakeHost_cases s with ⟨_, e⟩ | ⟨_, e⟩ <;> simp [e]

/-- Everything one invocation can do, state by state (R150 to R158, R161). -/
theorem invocation_inversion {s t : State} (hf : s.M.fault = none) (h : invocation s = .next t) :
    (s.S.state = Config.idleCode ∧ t = clearFlag s) ∨
    (s.S.state = Config.startCode ∧ AdvanceEnds (generateStart s) t) ∨
    (s.S.state = Config.prepareAckNackCode ∧ t = clearFlag (goto Config.handleRxTxCode (setBitCount 1 (driveLine false s)))) ∨
    (s.S.state = Config.handleRxTxCode ∧ receivedBit s = true ∧ t = clearFlag (stopFraming (readSR s))) ∨
    (s.S.state = Config.handleRxTxCode ∧ receivedBit s = false ∧ AdvanceEnds (readSR s) t) ∨
    (s.S.state = Config.receivedDataCode ∧ inRxRegion s.M.rxRegion s.S.rxPtr = true ∧
      t = clearFlag (answerReceived (storeReceived s.E.sr (readSR s)))) ∨
    (s.S.state = Config.receivedDataCode ∧ inRxRegion s.M.rxRegion s.S.rxPtr = false ∧
      t = raiseFault (.rxOverflow s.S.rxPtr) (readSR s)) ∨
    (s.S.state = Config.prepareStopCode ∧ t = clearFlag (stopFraming s)) ∨
    (s.S.state = Config.stopCode ∧ t = clearFlag (wakeHost (goto Config.idleCode (latchPulse (loadSR 0xFF#8 s))))) ∨
    (s.S.state = Config.reservedCode ∧ t = raiseFault (.badState s.S.state) s) := by
  rcases invocation_cases s with ⟨i, u, hd, hu, e⟩ | ⟨hc, e⟩
  · obtain rfl : returnFromHandler u = t := by rw [e] at h; exact Host.Outcome.next.inj h
    rcases decodeState_cases s.S.state with ⟨hc, h'⟩ | ⟨hc, h'⟩ | ⟨hc, h'⟩ | ⟨hc, h'⟩ | ⟨hc, h'⟩ | ⟨hc, h'⟩ | ⟨hc, h'⟩ | ⟨hc, h'⟩ <;>
      rw [hd] at h' <;> cases h'
    · cases hu
      exact .inl ⟨hc, returnFromHandler_of_no_fault _ hf⟩
    · exact .inr (.inl ⟨hc, advanceEnds_of_advance (by simpa using hf) hu⟩)
    · cases hu
      exact .inr (.inr (.inl ⟨hc, returnFromHandler_of_no_fault _ (by simpa using hf)⟩))
    · rcases execHandleRxTx_cases s with ⟨hb, e'⟩ | ⟨hb, e'⟩
      · cases e'.symm.trans hu
        exact .inr (.inr (.inr (.inl ⟨hc, hb, returnFromHandler_of_no_fault _ (by simpa using hf)⟩)))
      · exact .inr (.inr (.inr (.inr (.inl ⟨hc, hb, advanceEnds_of_advance (by simpa using hf) (e'.symm.trans hu)⟩))))
    · rcases execReceivedData_cases s with ⟨hb, e'⟩ | ⟨hb, e'⟩
      · cases e'.symm.trans hu
        exact .inr (.inr (.inr (.inr (.inr (.inl ⟨hc, hb, returnFromHandler_of_no_fault _ (by simpa using hf)⟩)))))
      · cases e'.symm.trans hu
        exact .inr (.inr (.inr (.inr (.inr (.inr (.inl ⟨hc, hb, returnFromHandler_of_fault _ (by simp)⟩))))))
    · cases hu
      exact .inr (.inr (.inr (.inr (.inr (.inr (.inr (.inl ⟨hc, returnFromHandler_of_no_fault _ (by simpa using hf)⟩)))))))
    · cases hu
      exact .inr (.inr (.inr (.inr (.inr (.inr (.inr (.inr (.inl ⟨hc, returnFromHandler_of_no_fault _ (by simpa using hf)⟩))))))))
  · obtain rfl : raiseFault (.badState s.S.state) s = t := by rw [e] at h; exact Host.Outcome.next.inj h
    exact .inr (.inr (.inr (.inr (.inr (.inr (.inr (.inr (.inr ⟨hc, rfl⟩))))))))

end Sys2Proof.Machine
end

