-- ==== Sys2Proof/Laws/PerInstr.lean ====
section
/-! SUPPORT. Statements made once per instruction. -/

namespace Sys2Proof.Laws.EncodedLength

/-- The encoding of an instruction has the length of its format: two bytes for a command word (R80), one for a state code (log 15). -/
def Statement (i : Instr) : Prop :=
  (encode i).length = match formatOf i with
    | .cmd16 => 2
    | .state3 => 1

theorem write (b : Byte) : Statement (.write b) := rfl
theorem restart : Statement .restart := rfl
theorem read : Statement .read := rfl
theorem idle : Statement .idle := rfl
theorem start : Statement .start := rfl
theorem prepareAckNack : Statement .prepareAckNack := rfl
theorem handleRxTx : Statement .handleRxTx := rfl
theorem receivedData : Statement .receivedData := rfl
theorem prepareStop : Statement .prepareStop := rfl
theorem stop : Statement .stop := rfl

end Sys2Proof.Laws.EncodedLength
end

