-- ==== Sys2Proof/Laws/Step.lean ====
section
/-! SUPPORT. Everything one step can do. -/

namespace Sys2Proof.Machine

/-- Taking a move off changes the model's own fields only. -/
@[simp] theorem takeMove_S (s : State) : (takeMove s).S = s.S := by unfold takeMove; split <;> rfl
@[simp] theorem takeMove_E (s : State) : (takeMove s).E = s.E := by unfold takeMove; split <;> rfl
@[simp] theorem takeMove_P (s : State) : (takeMove s).P = s.P := by unfold takeMove; split <;> rfl
@[simp] theorem takeMove_M (s : State) : (takeMove s).M = s.M := by unfold takeMove; split <;> rfl
@[simp] theorem takeMove_mem (s : State) : (takeMove s).mem = s.mem := by unfold takeMove; split <;> rfl
@[simp] theorem takeMove_host (s : State) : (takeMove s).host = s.host := by unfold takeMove; split <;> rfl
@[simp] theorem takeMove_params (s : State) : (takeMove s).env.params = s.env.params := by unfold takeMove; split <;> rfl

/-- With a move on the agenda, that move is the next one. -/
theorem nextMove_cons {s : State} {m : Move} {l : List Move} (h : s.env.agenda = m :: l) : nextMove s = m := by
  simp [nextMove, h]

/-- With a move on the agenda, taking it leaves the rest. -/
theorem takeMove_cons {s : State} {m : Move} {l : List Move} (h : s.env.agenda = m :: l) : takeMove s = setAgenda l s := by
  simp [takeMove, h]

/-- A state with a recorded fault has no further step (R39, R214). -/
theorem step_of_fault {s : State} {f : Fault} (h : s.M.fault = some f) : step s = .fault f := by
  simp [step, machineStep, h]

/-- Without one, a step is the next move. -/
theorem step_of_no_fault {s : State} (h : s.M.fault = none) : step s = performMove (nextMove s) (takeMove s) := by
  simp [step, machineStep, h]

/-- Handler context without a call is the invocation; with `done()` it is the invocation after the answer; with `send_sequence` it is the fault
(R193, R196, R220). -/
theorem runHandlerContext_none {s : State} (hf : s.M.fault = none) : runHandlerContext none s = invocation s := by
  simp [runHandlerContext, hf]

theorem runHandlerContext_done {s : State} (hf : s.M.fault = none) : runHandlerContext (some .done) s = invocation (callDone s) := by
  simp [runHandlerContext, handlerCall, hf]

theorem runHandlerContext_send (a : SendArgs) (s : State) :
    runHandlerContext (some (.send a)) s = .next (raiseFault .sendFromHandler s) := rfl

/-- Handler context always answers a next state. -/
theorem runHandlerContext_next (call : Option HandlerCall) {s : State} (hf : s.M.fault = none) :
    ∃ t, runHandlerContext call s = .next t := by
  have inv : ∀ u, ∃ t, invocation u = .next t := fun u => by
    rcases invocation_cases u with ⟨_, t, _, _, h⟩ | ⟨_, h⟩ <;> exact ⟨_, h⟩
  match call with
  | none => rw [runHandlerContext_none hf]; exact inv _
  | some .done => rw [runHandlerContext_done hf]; exact inv _
  | some (.send _) => exact ⟨_, rfl⟩

/-- Everything a step that answers a next state can have been. -/
theorem step_cases {s t : State} (h : step s = .next t) :
    s.M.fault = none ∧
      ((∃ call, nextMove s = .handler call ∧ eventTaken s = false ∧ t = takeMove s) ∨
        (∃ a, nextMove s = .handler (some (.send a)) ∧ eventTaken s = true ∧ t = raiseFault .sendFromHandler (takeMove s)) ∨
        (∃ call r, nextMove s = .handler call ∧ (∀ a, call ≠ some (.send a)) ∧ eventTaken s = true ∧
          (call = none → r = s.host.result) ∧ (call = some .done → r = .isIdle (isIdle s)) ∧
          invocation (setResult r (takeMove s)) = .next t) ∨
        (∃ d, nextMove s = .engine d ∧ t = engineStep d (takeMove s)) ∨
        (∃ op, nextMove s = .host op ∧ t = hostStep op (takeMove s)) ∨
        (∃ d, nextMove s = .powerOn d ∧ t = powerOn d (takeMove s))) := by
  cases hf : s.M.fault with
  | some f => rw [step_of_fault hf] at h; cases h
  | none =>
    refine ⟨rfl, ?_⟩
    rw [step_of_no_fault hf] at h
    cases hm : nextMove s with
    | handler call =>
      rw [hm] at h
      have he : eventTaken (takeMove s) = eventTaken s := by simp [eventTaken]
      cases hv : eventTaken s with
      | false => exact .inl ⟨call, rfl, rfl, by simpa [performMove, handlerStep, he, hv] using h.symm⟩
      | true =>
        rw [performMove, handlerStep, he, hv, if_pos rfl] at h
        cases call with
        | none =>
          rw [runHandlerContext_none (by simpa using hf)] at h
          exact .inr (.inr (.inl ⟨none, (takeMove s).host.result, rfl, by simp, rfl, by simp, by simp, h⟩))
        | some c =>
          cases c with
          | send a => exact .inr (.inl ⟨a, rfl, rfl, (Host.Outcome.next.inj h).symm⟩)
          | done =>
            rw [runHandlerContext_done (by simpa using hf)] at h
            exact .inr (.inr (.inl ⟨_, _, rfl, by simp, rfl, by simp, fun _ => by simp [isIdle], h⟩))
    | engine d => rw [hm] at h; exact .inr (.inr (.inr (.inl ⟨d, rfl, (Host.Outcome.next.inj h).symm⟩)))
    | host op => rw [hm] at h; exact .inr (.inr (.inr (.inr (.inl ⟨op, rfl, (Host.Outcome.next.inj h).symm⟩))))
    | powerOn d => rw [hm] at h; exact .inr (.inr (.inr (.inr (.inr ⟨d, rfl, (Host.Outcome.next.inj h).symm⟩))))

/-- An invocation that the schedule and the event allow. -/
theorem step_handler {s : State} {call : Option HandlerCall} (hf : s.M.fault = none) (hm : nextMove s = .handler call)
    (he : eventTaken s = true) : step s = runHandlerContext call (takeMove s) := by
  have he' : eventTaken (takeMove s) = true := by simpa [eventTaken] using he
  rw [step_of_no_fault hf, hm]
  simp [performMove, handlerStep, he']

/-- The same, where handler code makes no call. -/
theorem step_invocation {s : State} (hf : s.M.fault = none) (hm : nextMove s = .handler none) (he : eventTaken s = true) :
    step s = invocation (takeMove s) :=
  (step_handler hf hm he).trans (runHandlerContext_none (by simpa using hf))

theorem step_engine {s : State} {d : Byte} (hf : s.M.fault = none) (hm : nextMove s = .engine d) :
    step s = .next (engineStep d (takeMove s)) := by
  rw [step_of_no_fault hf, hm]; rfl

theorem step_host {s : State} {op : HostOp} (hf : s.M.fault = none) (hm : nextMove s = .host op) :
    step s = .next (hostStep op (takeMove s)) := by
  rw [step_of_no_fault hf, hm]; rfl

theorem step_powerOn {s : State} {d : PowerOnDraw} (hf : s.M.fault = none) (hm : nextMove s = .powerOn d) :
    step s = .next (powerOn d (takeMove s)) := by
  rw [step_of_no_fault hf, hm]; rfl

/-- A step without a recorded fault always answers a next state. -/
theorem step_next {s : State} (hf : s.M.fault = none) : ∃ t, step s = .next t := by
  cases hm : nextMove s with
  | handler call =>
    by_cases he : eventTaken s = true
    · exact (runHandlerContext_next call (by simpa using hf)).imp fun _ h => (step_handler hf hm he).trans h
    · have he' : eventTaken (takeMove s) = false := by simpa [eventTaken] using he
      exact ⟨takeMove s, by rw [step_of_no_fault hf, hm]; simp [performMove, handlerStep, he']⟩
  | engine d => exact ⟨_, step_engine hf hm⟩
  | host op => exact ⟨_, step_host hf hm⟩
  | powerOn d => exact ⟨_, step_powerOn hf hm⟩

end Sys2Proof.Machine
end

