-- ==== Sys2Proof/Laws/Run.lean ====
section
/-! SUPPORT. Runs of the machine, one step at a time, and what holds along every one. -/

namespace Sys2Proof.Machine

@[simp] theorem runFrom_zero (s : State) : runFrom 0 s = .next s := rfl

/-- A run whose first step answers a next state goes on from it. -/
theorem runFrom_succ_of_next {s t : State} (k : Nat) (h : step s = .next t) : runFrom (k + 1) s = runFrom k t := by
  simp [runFrom, h]

/-- A run whose first step answers a fault ends with it. -/
theorem runFrom_succ_of_fault {s : State} {f : Fault} (k : Nat) (h : step s = .fault f) : runFrom (k + 1) s = .fault f := by
  simp [runFrom, h]

/-- Two runs one after the other are one run. -/
theorem runFrom_add {s t : State} {j : Nat} (k : Nat) (h : runFrom j s = .next t) : runFrom (j + k) s = runFrom k t := by
  induction j generalizing s with
  | zero => cases h; rw [Nat.zero_add]
  | succ j ih =>
    cases hs : step s with
    | next u =>
      rw [runFrom_succ_of_next _ hs] at h
      rw [Nat.succ_add_eq_add_succ j k, Nat.add_succ, runFrom_succ_of_next _ hs, ih h]
    | fault f => rw [runFrom_succ_of_fault _ hs] at h; cases h
    | refused r => simp [runFrom, hs] at h

/-- A run that comes to its last step comes to the one before. -/
theorem runFrom_succ_last {s t : State} {k : Nat} (h : runFrom (k + 1) s = .next t) :
    ∃ u, runFrom k s = .next u ∧ step u = .next t := by
  induction k generalizing s with
  | zero =>
    refine ⟨s, rfl, ?_⟩
    cases hs : step s <;> simp_all [runFrom]
  | succ k ih =>
    cases hs : step s with
    | next u =>
      rw [runFrom_succ_of_next _ hs] at h
      obtain ⟨v, hv, hvt⟩ := ih h
      exact ⟨v, by rw [runFrom_succ_of_next _ hs, hv], hvt⟩
    | fault f => rw [runFrom_succ_of_fault _ hs] at h; cases h
    | refused r => simp [runFrom, hs] at h

/-- What holds at first and is kept by every step holds along the whole run. -/
theorem runFrom_induction {p : State → Prop} (hstep : ∀ s t, p s → step s = .next t → p t) {k : Nat} {s t : State} (hs : p s)
    (h : runFrom k s = .next t) : p t := by
  induction k generalizing t with
  | zero => cases h; exact hs
  | succ k ih =>
    obtain ⟨u, hu, hut⟩ := runFrom_succ_last h
    exact hstep u t (ih hu) hut

/-- A run that records a fault is fair: nothing is left waiting in it. -/
theorem fair_of_faulting_run {s u : State} {f : Fault} {n : Nat} (h : runFrom n s = .next u) (hf : u.M.fault = some f) :
    EngineFair s ∧ InterruptFair s := by
  have key : ∀ k t, runFrom k s = .next t → ∃ j, runFrom (k + j) s = .next u := by
    intro k t hk
    refine ⟨n - k, ?_⟩
    by_cases hle : k ≤ n
    · rw [Nat.add_sub_cancel' hle, h]
    · obtain ⟨m, rfl⟩ : ∃ m, k = n + (m + 1) := ⟨k - n - 1, by omega⟩
      rw [runFrom_add (m + 1) h, runFrom_succ_of_fault m (step_of_fault hf)] at hk
      cases hk
  have hne : u.M.fault ≠ none := by rw [hf]; exact Option.some_ne_none f
  exact ⟨fun k t hk _ _ => (key k t hk).imp fun _ hj => ⟨u, hj, .inr hne⟩,
    fun k t hk _ _ => (key k t hk).imp fun _ hj => ⟨u, hj, .inr hne⟩⟩

/-- The host's run, for any machine, one step at a time. -/
theorem coreRun_of_next {M : Host.Core} {s t : M.State} (k : Nat) (h : M.step s = .next t) : M.run (k + 1) s = M.run k t := by
  rw [Host.Core.run.eq_def]
  simp [h]

theorem coreRun_of_fault {M : Host.Core} {s : M.State} {f : M.Fault} (k : Nat) (h : M.step s = .fault f) :
    M.run (k + 1) s = .fault f := by
  rw [Host.Core.run.eq_def]
  simp [h]

theorem coreRun_of_refused {M : Host.Core} {s : M.State} {r : M.Refusal} (k : Nat) (h : M.step s = .refused r) :
    M.run (k + 1) s = .refused r := by
  rw [Host.Core.run.eq_def]
  simp [h]

/-- `runFrom` is the host's run of this machine. -/
theorem runFrom_eq_core_run (k : Nat) (s : State) : runFrom k s = Host.Core.run core k s := by
  induction k generalizing s with
  | zero => rfl
  | succ k ih =>
    cases hs : step s with
    | next t => exact (runFrom_succ_of_next k hs).trans ((ih t).trans (coreRun_of_next (M := core) k hs).symm)
    | fault f => exact (runFrom_succ_of_fault k hs).trans (coreRun_of_fault (M := core) k hs).symm
    | refused r => exact (by simp [runFrom, hs] : runFrom (k + 1) s = .refused r).trans (coreRun_of_refused (M := core) k hs).symm

end Sys2Proof.Machine
end

