-- ==== Sys2Proof/Tests/Slice0.lean ====
section
/-! SUPPORT. The model's own tests, from the spec's vectors (95_test_vectors.md), and a witness for the hypotheses of every statement. -/

namespace Sys2Proof.Tests

open Sys2Proof.Machine

/-! ## Well-formedness smoke: what each check refuses -/

theorem test_state_code_in_a_command_sequence : onlyCommands [.write 0xA0#8, .start] = false := by decide
theorem test_sequence_with_a_state_code_is_ill_formed : wellFormedSequence [.stop] = false := by decide
theorem test_too_long_a_sequence (l : List Instr) (h : l.length = 65536) : countFits l = false ∧ wellFormedSequence l = false := by
  have h' : countFits l = false := by simp [countFits, h]
  exact ⟨h', by simp [wellFormedSequence, h']⟩
theorem test_well_formed_sequence : wellFormedSequence [.write 0xA1#8, .restart, .write 0xA0#8, .read] = true := by decide

/-! ## Decoding: words written out bit by bit (R80 to R88), and the vectors V-E1 to V-E12 -/

theorem test_decode_write_bits : decodeTableWord 16 0b0000000010100000 = some (.write 0xA0#8) := by decide
theorem test_decode_restart_bits : decodeTableWord 16 0b0000000100000000 = some .restart := by decide
theorem test_decode_read_bits : decodeTableWord 16 0b0000001000000000 = some .read := by decide
theorem test_decode_idle_bits : decodeTableWord 8 0b000 = some .idle := by decide
theorem test_decode_start_bits : decodeTableWord 8 0b001 = some .start := by decide
theorem test_decode_prepare_acknack_bits : decodeTableWord 8 0b010 = some .prepareAckNack := by decide
theorem test_decode_handle_rxtx_bits : decodeTableWord 8 0b011 = some .handleRxTx := by decide
theorem test_decode_received_data_bits : decodeTableWord 8 0b100 = some .receivedData := by decide
theorem test_decode_prepare_stop_bits : decodeTableWord 8 0b101 = some .prepareStop := by decide
theorem test_decode_stop_bits : decodeTableWord 8 0b110 = some .stop := by decide
theorem test_decode_code_7_reserved : decodeTableWord 8 0b111 = none := by decide

/-- V-E1, V-E3, V-E4, V-E7. -/
theorem test_decode_command_words :
    decodeCommand 0x0000#16 = .ok (.write 0x00#8) ∧ decodeCommand 0x00FF#16 = .ok (.write 0xFF#8) ∧
    decodeCommand 0x0100#16 = .ok .restart ∧ decodeCommand 0x0200#16 = .ok .read := ⟨rfl, rfl, rfl, rfl⟩

/-- V-E5, V-E6, V-E8 to V-E12. -/
theorem test_decode_reserved_words :
    decodeCommand 0x0101#16 = .error (.reservedCommand 0x0101#16) ∧
    decodeCommand 0x01FF#16 = .error (.reservedCommand 0x01FF#16) ∧
    decodeCommand 0x0201#16 = .error (.reservedCommand 0x0201#16) ∧
    decodeCommand 0x02FF#16 = .error (.reservedCommand 0x02FF#16) ∧
    decodeCommand 0x0300#16 = .error (.reservedCommand 0x0300#16) ∧
    decodeCommand 0x8000#16 = .error (.reservedCommand 0x8000#16) ∧
    decodeCommand 0xFFFF#16 = .error (.reservedCommand 0xFFFF#16) := ⟨rfl, rfl, rfl, rfl, rfl, rfl, rfl⟩

/-- V-M1 to V-M3: the bytes in memory order. -/
theorem test_fetch_is_little_endian :
    cmdFetch [(0x201, 0x01#8)] 0x0200#16 = 0x0100#16 ∧ cmdFetch [(0x200, 0x01#8)] 0x0200#16 = 0x0001#16 ∧
    cmdFetch [(0x201, 0x02#8)] 0x0200#16 = 0x0200#16 := by decide

/-! ## The state of the vectors -/

/-- The next state's part that a test looks at; nothing for a fault or a refusal. -/
def after {α : Type} (f : State → α) (o : Host.Outcome State Fault Refusal) : Option α :=
  match o with
  | .next t => some (f t)
  | _ => none

/-- A state in the middle of a transaction: commands at 0x0200, a receive buffer of two bytes at 0x0300, the event pending and enabled, and
the given moves to come. -/
def mid (code : StateCode) (len : CmdCount) (sr : Byte) (mem : List Host.Cell) (moves : List Move) : State where
  S := { state := code, cmdPtr := 0x0200#16, cmdLen := len, rxPtr := 0x0300#16, wakeMask := 0x0010#16 }
  E := { oe := true, sr := sr, cnt := 0, ge := false, flag := true }
  P := { gie := true, wakeStatus := 0x00F8#16 }
  M := { inited := true, cmdRegion := some ⟨0x0200#16, len⟩, rxRegion := some ⟨0x0300#16, 2⟩, fault := none, trace := [] }
  mem := mem
  host := { pending := none, result := .none }
  env := { params := State.reset.env.params, agenda := moves, turn := 0 }

/-- The same with a group of `n` bits armed and no event pending. -/
def armed (code : StateCode) (n : BitCount) (oe : Bool) (sr : Byte) (moves : List Move) : State :=
  { mid code 1#16 sr [] moves with E := { oe := oe, sr := sr, cnt := n, ge := false, flag := false } }

/-- The operands of a call. -/
def args (base : Addr) (count : CmdCount) (rx : Addr) (cap : Nat) : SendArgs :=
  { cmdBase := base, cmdCount := count, rxBase := rx, wakeMask := 0x0000#16, rxCap := cap }

/-- A host in `Idle` after `init`, with a call in progress or none, and the given moves to come. -/
def idleHost (pending : Option SendArgs) (moves : List Move) : State :=
  { mid Config.idleCode 0#16 0xFF#8 [] moves with
    E := { oe := true, sr := 0xFF#8, cnt := 0, ge := false, flag := false }
    host := { pending := pending, result := .none } }

/-! ## Instructions, by the vectors of 95_test_vectors.md -/

/-- V-A2. -/
theorem test_write :
    after (fun t => (t.S, t.E.oe, t.E.sr, t.E.cnt, t.M.trace)) (exec (.write 0xA0#8) (mid 1#3 3#16 0x5A#8 [] [])) =
      some (⟨2#3, 0x0202#16, 2#16, 0x0300#16, 0x0010#16⟩, true, 0xA0#8, 8, [.drive true, .load 0xA0#8, .arm 8]) := by decide

/-- V-A4. -/
theorem test_read :
    after (fun t => (t.S, t.E.oe, t.E.sr, t.E.cnt, t.M.trace)) (exec .read (mid 1#3 1#16 0x5A#8 [] [])) =
      some (⟨4#3, 0x0202#16, 0#16, 0x0300#16, 0x0010#16⟩, false, 0x5A#8, 8, [.drive false, .arm 8]) := by decide

/-- V-A5. -/
theorem test_restart :
    after (fun t => (t.S, t.E.oe, t.E.sr, t.E.cnt, t.M.trace)) (exec .restart (mid 3#3 3#16 0x5A#8 [] [])) =
      some (⟨1#3, 0x0202#16, 2#16, 0x0300#16, 0x0010#16⟩, true, 0xFF#8, 1, [.drive true, .load 0xFF#8, .arm 1]) := by decide

/-- V-A8: the pointer wraps past the last command. -/
theorem test_write_pointer_wraps :
    after (fun t => (t.S.cmdPtr, t.S.cmdLen)) (exec (.write 0x55#8) { mid 1#3 1#16 0x00#8 [] [] with S := ⟨1#3, 0xFFFE#16, 1#16, 0#16, 0#16⟩ }) =
      some (0x0000#16, 0#16) := by decide

/-- V-S1. -/
theorem test_idle :
    after (fun t => (t.S.state, t.E.flag, t.M.trace)) (step (mid 0#3 3#16 0x5A#8 [] [.handler none])) = some (0#3, false, [.clear]) := by decide

/-- V-S2. -/
theorem test_start_empty :
    after (fun t => (t.S.state, t.E.cnt, t.M.trace)) (step (mid 1#3 0#16 0xFF#8 [] [.handler none])) =
      some (6#3, 1, [.load 0x00#8, .gateOpen, .drive true, .gateClose, .drive true, .load 0x00#8, .arm 1, .clear]) := by decide

/-- V-S3. -/
theorem test_start_write :
    after (fun t => (t.S.state, t.S.cmdLen, t.M.trace)) (step (mid 1#3 1#16 0xFF#8 [(0x200, 0xA0#8)] [.handler none])) =
      some (2#3, 0#16, [.load 0x00#8, .gateOpen, .drive true, .gateClose, .drive true, .load 0xA0#8, .arm 8, .clear]) := by decide

/-- V-S6. -/
theorem test_prepare_acknack :
    after (fun t => (t.S.state, t.E.oe, t.E.cnt, t.M.trace)) (step (mid 2#3 1#16 0xA0#8 [] [.handler none])) =
      some (3#3, false, 1, [.drive false, .arm 1, .clear]) := by decide

/-- V-S7: a NACK; the commands are not consumed. -/
theorem test_handle_rxtx_nack :
    after (fun t => (t.S.state, t.S.cmdLen, t.M.trace)) (step (mid 3#3 2#16 0x41#8 [(0x200, 0x10#8)] [.handler none])) =
      some (6#3, 2#16, [.read 0x41#8, .drive true, .load 0x00#8, .arm 1, .clear]) := by decide

/-- V-S10. -/
theorem test_handle_rxtx_ack :
    after (fun t => (t.S.state, t.S.cmdLen, t.M.trace)) (step (mid 3#3 2#16 0x40#8 [(0x200, 0x10#8)] [.handler none])) =
      some (2#3, 1#16, [.read 0x40#8, .drive true, .load 0x10#8, .arm 8, .clear]) := by decide

/-- V-S11, V-S12: the last byte is answered NACK, one before a further command ACK. -/
theorem test_received :
    after (fun t => (t.S.state, t.S.rxPtr, t.mem, t.M.trace)) (step (mid 4#3 0#16 0x42#8 [] [.handler none])) =
      some (5#3, 0x0301#16, [(0x300, 0x42#8)],
        [.read 0x42#8, .rxWrite 0x0300#16 0x42#8, .drive true, .load 0xFF#8, .arm 1, .clear]) ∧
    after (fun t => (t.S.state, t.S.rxPtr, t.mem, t.M.trace)) (step (mid 4#3 1#16 0x11#8 [] [.handler none])) =
      some (3#3, 0x0301#16, [(0x300, 0x11#8)],
        [.read 0x11#8, .rxWrite 0x0300#16 0x11#8, .drive true, .load 0x00#8, .arm 1, .clear]) := ⟨by decide, by decide⟩

/-- V-S13, V-S14: the cursor outside the buffer, and a buffer that ends at the top of memory. -/
theorem test_received_at_the_edges :
    after (fun t => (t.M.fault, t.E.flag, t.M.trace)) (step { mid 4#3 0#16 0x22#8 [] [.handler none] with S := ⟨4#3, 0#16, 0#16, 0x0302#16, 0#16⟩ }) =
      some (some (.rxOverflow 0x0302#16), true, [.read 0x22#8]) ∧
    after (fun t => (t.S.state, t.S.rxPtr, t.mem)) (step { mid 4#3 0#16 0x22#8 [] [.handler none] with
      S := ⟨4#3, 0#16, 0#16, 0xFFFF#16, 0#16⟩
      M := { inited := true, cmdRegion := none, rxRegion := some ⟨0xFFFF#16, 1⟩, fault := none, trace := [] } }) =
      some (5#3, 0x0000#16, [(0xFFFF, 0x22#8)]) := by decide

/-- V-S15. -/
theorem test_prepare_stop :
    after (fun t => (t.S.state, t.E.sr, t.M.trace)) (step (mid 5#3 0#16 0xFF#8 [] [.handler none])) =
      some (6#3, 0x00#8, [.drive true, .load 0x00#8, .arm 1, .clear]) := by decide

/-- V-S16. -/
theorem test_stop_wakes :
    after (fun t => (t.S.state, t.P.wakeStatus, t.E.sr, t.M.trace)) (step (mid 6#3 0#16 0x00#8 [] [.handler none])) =
      some (0#3, 0x00E8#16, 0xFF#8, [.load 0xFF#8, .gateOpen, .gateClose, .wake 0x0010#16, .clear]) := by decide

/-- V-S17, V-S18. -/
theorem test_stop_masks :
    after (fun t => (t.P.wakeStatus, t.M.trace)) (step { mid 6#3 0#16 0x00#8 [] [.handler none] with S := ⟨6#3, 0#16, 0#16, 0#16, 0#16⟩ }) =
      some (0x00F8#16, [.load 0xFF#8, .gateOpen, .gateClose, .clear]) ∧
    after (fun t => (t.P.wakeStatus, t.M.trace)) (step { mid 6#3 0#16 0x00#8 [] [.handler none] with S := ⟨6#3, 0#16, 0#16, 0#16, 0x0100#16⟩ }) =
      some (0x00F8#16, [.load 0xFF#8, .gateOpen, .gateClose, .wake 0x0100#16, .clear]) := by decide

/-- V-S19, V-S20: code 7, and a masked event. -/
theorem test_dispatch_edges :
    after (fun t => (t.M.fault, t.E.flag, t.M.trace)) (step (mid 7#3 0#16 0x00#8 [] [.handler none])) = some (some (.badState 7#3), true, []) ∧
    after (fun t => (t.S.state, t.E.flag, t.M.trace)) (step { mid 6#3 0#16 0x00#8 [] [.handler none] with P := ⟨false, 0#16⟩ }) =
      some (6#3, true, []) := by decide

/-- V-A6, V-A7: a reserved word under both policies. -/
theorem test_reserved_word :
    after (fun t => (t.M.fault, t.S.cmdPtr, t.S.cmdLen, t.E.flag)) (step (mid 3#3 2#16 0xFE#8 [(0x201, 0x03#8)] [.handler none])) =
      some (some (.reservedCommand 0x0300#16 0x0200#16), 0x0200#16, 2#16, true) ∧
    after (fun t => (t.S.state, t.S.cmdPtr, t.S.cmdLen, t.E.sr, t.M.fault))
        (step { mid 3#3 2#16 0xFE#8 [(0x200, 0xA5#8), (0x201, 0x01#8)] [.handler none] with
          env := { params := ⟨.writeLowByte, .free, 0#16⟩, agenda := [.handler none], turn := 0 } }) =
      some (2#3, 0x0202#16, 1#16, 0xA5#8, none) := by decide

/-! ## The engine and the host -/

/-- V-G4, V-G6, V-G7, V-G11 under `free`. -/
theorem test_engine_groups :
    after (fun t => (t.E.sr, t.E.cnt, t.E.flag)) (step (armed 4#3 8 false 0x40#8 [.engine 0x42#8])) = some (0x42#8, 0, true) ∧
    after (fun t => (t.E.sr, t.M.trace)) (step (armed 3#3 1 false 0xA0#8 [.engine 0xFF#8])) = some (0x41#8, [.group 1 false 0xA0#8 0x01#8]) ∧
    after (fun t => t.E.sr) (step (armed 3#3 1 false 0xFF#8 [.engine 0x00#8])) = some 0xFE#8 ∧
    after (fun t => t.E.sr) (step (armed 1#3 1 true 0xFF#8 [.engine 0x00#8])) = some 0xFE#8 := by decide

/-- V-G3, V-G8, V-G9: what `wired_and` excludes. -/
theorem test_engine_readback :
    sampledBits .free 8 true 0xA0#8 0x40#8 = 0x40#8 ∧ sampledBits .wiredAnd 8 true 0xA0#8 0x40#8 = 0x00#8 ∧
    sampledBits .wiredAnd 8 true 0xA0#8 0x20#8 = 0x20#8 ∧ sampledBits .wiredAnd 1 true 0x00#8 0x01#8 = 0x00#8 ∧
    sampledBits .free 1 true 0x00#8 0x01#8 = 0x01#8 := by decide

/-- V-H1, V-H2. -/
theorem test_init :
    after (fun t => (t.S.state, t.E.flag, t.P.gie, t.M.inited, t.M.trace))
        (step { State.reset with env := { State.reset.env with agenda := [.host (.init 3 2 ⟨true, 0x5A#8, 4, true⟩)] } }) =
      some (0#3, false, true, true, [.init 3 2, .clear]) ∧
    after (fun t => t.M.fault) (step (idleHost none [.host (.init 3 2 ⟨true, 0x5A#8, 4, true⟩)])) = some (some .initTwice) := by decide

/-- V-H3; V-H5 with R216's order; and R220: without an event there is no handler context to call from. -/
theorem test_send_call :
    after (fun t => t.M.fault) (step { State.reset with env := { State.reset.env with agenda := [.host (.send (args 0x0200#16 3#16 0x0300#16 0))] } }) =
      some (some .notInitialised) ∧
    after (fun t => t.M.fault) (step { mid 0#3 0#16 0x00#8 [] [.handler (some (.send (args 0x0200#16 3#16 0x0300#16 0)))] with M := State.reset.M }) =
      some (some .sendFromHandler) ∧
    after (fun t => t.M.fault) (step { State.reset with env := { State.reset.env with agenda := [.handler (some (.send (args 0x0200#16 3#16 0x0300#16 0)))] } }) =
      some none := by decide

/-- V-M4, V-H9, V-H11. -/
theorem test_install_checks :
    after (fun t => t.M.fault) (step (idleHost (some (args 0x0201#16 1#16 0x0300#16 0)) [.host .spin])) =
      some (some (.misalignedCommands 0x0201#16)) ∧
    after (fun t => t.M.fault) (step (idleHost (some (args 0xFFFE#16 2#16 0x0300#16 0)) [.host .spin])) =
      some (some (.commandRegionWraps 0xFFFE#16 2#16)) ∧
    after (fun t => t.M.fault) (step (idleHost (some (args 0x0200#16 1#16 0xFFFF#16 2)) [.host .spin])) =
      some (some (.rxRegionWraps 0xFFFF#16 2)) := by decide

/-- V-H8, V-H10. -/
theorem test_install :
    after (fun t => (t.S, t.E.flag, t.M.fault, t.M.trace)) (step (idleHost (some (args 0xFFFE#16 1#16 0xFFFF#16 1)) [.host .spin])) =
      some (⟨1#3, 0xFFFE#16, 1#16, 0xFFFF#16, 0#16⟩, true, none, [.kick]) := by decide

/-- V-H4, V-H7. -/
theorem test_hold_and_done :
    after (fun t => (t.S, t.E.flag, t.host.pending.isSome)) (step { mid 3#3 2#16 0xFE#8 [] [.host .spin] with
      host := ⟨some (args 0x0400#16 1#16 0x0300#16 0), .none⟩ }) =
      some (⟨3#3, 0x0200#16, 2#16, 0x0300#16, 0x0010#16⟩, true, true) ∧
    after (fun t => t.host.result) (step (mid 4#3 2#16 0xFE#8 [] [.host .done])) = some (.isIdle false) := by decide

/-- R196, R220, R253: a call from handler context is made inside the invocation, which goes on to its return; the forbidden call ends it. -/
theorem test_handler_context :
    after (fun t => (t.host.result, t.S.state, t.E.flag, t.M.trace)) (step (mid 2#3 1#16 0xA0#8 [] [.handler (some .done)])) =
      some (.isIdle false, 3#3, false, [.drive false, .arm 1, .clear]) ∧
    after (fun t => (t.M.fault, t.S.state, t.E.flag, t.M.trace))
        (step (mid 2#3 1#16 0xA0#8 [] [.handler (some (.send (args 0x0200#16 3#16 0x0300#16 0)))])) =
      some (some .sendFromHandler, 2#3, true, []) := by decide

/-- R198, R72, R73: during a transaction, next to the receive buffer and in it. -/
theorem test_host_liberties :
    after (fun t => (t.host.result, t.mem)) (step (mid 3#3 1#16 0xFE#8 [(0x301, 0x11#8), (0x302, 0x22#8)] [.host (.readByte 0x0301#16)])) =
      some (.byte 0x11#8, [(0x301, 0x11#8), (0x302, 0x22#8)]) ∧
    after (fun t => t.host.result) (step (mid 3#3 1#16 0xFE#8 [(0x302, 0x22#8)] [.host (.readByte 0x0302#16)])) = some .none ∧
    after (fun t => (t.mem, t.M.fault)) (step (mid 3#3 1#16 0xFE#8 [] [.host (.writeByte 0x0302#16 0x55#8)])) = some ([], none) ∧
    after (fun t => (t.mem, t.M.fault)) (step (mid 3#3 1#16 0xFE#8 [] [.host (.writeByte 0x0301#16 0x55#8)])) =
      some ([], some (.commandRegionWritten 0x0301#16)) := by decide

/-- R117: the bus symbols of program P3's records (Scenario C). -/
theorem test_bus_symbols :
    readWire ⟨false, false, none, false⟩
      [.kick, .load 0x00#8, .gateOpen, .drive true, .gateClose, .drive true, .load 0xA0#8, .arm 8, .clear,
        .group 8 true 0xA0#8 0xA0#8, .drive false, .arm 1, .clear, .group 1 false 0xA0#8 0x01#8,
        .read 0x41#8, .drive true, .load 0x00#8, .arm 1, .clear, .group 1 true 0x00#8 0x00#8,
        .load 0xFF#8, .gateOpen, .gateClose, .clear] =
      [.start, .transmit 0xA0#8, .slaveNack, .stopFrameLow, .stop] := by decide

/-- R117, R116: the driven bits' rows name their issuer, and a bit left armed before the first START has no symbol. -/
theorem test_bus_symbols_name_their_issuer :
    readWire ⟨false, false, none, false⟩ [.kick, .group 1 true 0x00#8 0x00#8, .load 0x00#8, .gateOpen, .drive true, .gateClose] = [.start] ∧
    readWire ⟨true, false, none, false⟩ [.rxWrite 0x0300#16 0x11#8, .drive true, .load 0x00#8, .arm 1, .clear, .group 1 true 0x00#8 0x00#8] =
      [.masterAck] ∧
    readWire ⟨true, false, none, false⟩ [.drive true, .load 0xFF#8, .arm 1, .clear, .group 1 true 0xFF#8 0x01#8] = [.dummyHigh] := by decide

/-- A word of the opcode table placed on the reset state runs as the next instruction. -/
theorem test_placed_words_run :
    after (fun t => (t.S.state, t.E.sr, t.M.fault)) (step (State.reset.withFetchWord 16 0x00A5)) = some (2#3, 0xA5#8, none) ∧
    after (fun t => (t.S.state, t.P.gie, t.M.fault)) (step (State.reset.withFetchWord 8 6)) = some (0#3, true, none) := by decide

/-! ## Witnesses: for every statement with hypotheses, what meets them, each clause at a boundary -/

theorem witness_DecodeOfEncodeIsTheInstruction : wellFormed (.write 0xFF#8) = true ∧ wellFormed .stop = true := by decide

theorem witness_EncodeOfDecodeIsTheWord :
    decodeCommand 0x0100#16 = .ok .restart ∧ decodeCommand 0x00FF#16 = .ok (.write 0xFF#8) ∧ decodeState 6#3 = .ok .stop :=
  ⟨rfl, rfl, rfl⟩

theorem witness_CommandDecodeCoversEveryWord :
    (0x00FF#16).toNat ≤ 0xFF ∧ (0x0101 ≤ (0x0101#16).toNat ∧ (0x01FF#16).toNat ≤ 0x01FF) ∧
    (0x0201 ≤ (0x0201#16).toNat ∧ (0x02FF#16).toNat ≤ 0x02FF) ∧ 0x0300 ≤ (0x0300#16).toNat ∧ 0x0300 ≤ (0xFFFF#16).toNat := by simp

/-- A two-byte write at the top of memory goes on at address 0, and leaves address 1. -/
theorem witness_MemReadAfterMemWrite :
    Memory.wf [(0xFFFF, 0x01#8)] = true ∧ 2 ≤ 0x10000 ∧ ∀ k < 2, 0x0001#16 ≠ 0xFFFF#16 + BitVec.ofNat 16 k := by decide

theorem witness_EqualMemoriesAreEqualData :
    Memory.wf [(0, 0x01#8), (0xFFFF, 0x02#8)] = true ∧
      ∀ a : Addr, Memory.readByte [(0, 0x01#8), (0xFFFF, 0x02#8)] a = Memory.readByte [(0, 0x01#8), (0xFFFF, 0x02#8)] a :=
  ⟨by decide, fun _ => rfl⟩

theorem witness_StoredCommandIsFetchedBack :
    Memory.wf [(0xFFFF, 0x7F#8)] = true ∧ 0x01#8 ++ 0x00#8 = encodeCommand .restart ∧ 0x00#8 ++ 0xFF#8 = encodeCommand (.write 0xFF#8) := by
  decide

/-- Each clause: no command left, and each command as the next one. -/
theorem witness_StartEffect :
    (mid 1#3 0#16 0xFF#8 [] []).S.cmdLen = 0#16 ∧ 1#16 ≠ 0#16 ∧ 0xFFFF#16 ≠ 0#16 ∧
    decodeCommand (cmdFetch [(0x200, 0xFF#8)] 0x0200#16) = .ok (.write 0xFF#8) ∧
    decodeCommand (cmdFetch [(0x201, 0x02#8)] 0x0200#16) = .ok .read ∧
    decodeCommand (cmdFetch [(0x201, 0x01#8)] 0x0200#16) = .ok .restart := ⟨rfl, by decide, by decide, rfl, rfl, rfl⟩

theorem witness_HandleRxTxEffect :
    (0x01#8).getLsbD 0 = true ∧ (mid 3#3 0#16 0xFE#8 [] []).S.cmdLen = 0#16 ∧ (0xFE#8).getLsbD 0 = false ∧ 1#16 ≠ 0#16 ∧
    decodeCommand (cmdFetch [(0x200, 0x01#8)] 0x0200#16) = .ok (.write 0x01#8) ∧
    decodeCommand (cmdFetch [(0x201, 0x02#8)] 0x0200#16) = .ok .read ∧
    decodeCommand (cmdFetch [(0x201, 0x01#8)] 0x0200#16) = .ok .restart := ⟨rfl, rfl, rfl, by decide, rfl, rfl, rfl⟩

theorem witness_OnlyTheReceivedBitDecides : (0xFE#8).getLsbD 0 = (mid 3#3 0#16 0x00#8 [] []).E.sr.getLsbD 0 := by decide

/-- A buffer of one byte at the top of memory, with and without a command left. -/
def topOfMemory (len : CmdCount) : State :=
  { mid 4#3 len 0x42#8 [] [] with
    S := ⟨4#3, 0x0200#16, len, 0xFFFF#16, 0#16⟩
    M := { inited := true, cmdRegion := none, rxRegion := some ⟨0xFFFF#16, 1⟩, fault := none, trace := [] } }

theorem witness_ReceivedDataStoresAndAnswers : ∀ len ∈ [0#16, 1#16],
    Memory.wf (topOfMemory len).mem = true ∧ (topOfMemory len).M.rxRegion = some ⟨0xFFFF#16, 1⟩ ∧
    (0xFFFF#16).toNat ≤ (topOfMemory len).S.rxPtr.toNat ∧ (topOfMemory len).S.rxPtr.toNat < (0xFFFF#16).toNat + 1 := by
  intro len hlen
  rcases List.mem_pair.1 hlen with rfl | rfl <;> exact ⟨rfl, rfl, Nat.le_refl _, Nat.lt_succ_self _⟩

/-- One below the buffer, and one past it. -/
theorem witness_ReceivedDataOutsideTheBuffer :
    (mid 4#3 0#16 0x22#8 [] []).M.rxRegion = some ⟨0x0300#16, 2⟩ ∧
    ((0x02FF#16).toNat < (0x0300#16).toNat ∨ (0x0300#16).toNat + 2 ≤ (0x02FF#16).toNat) ∧
    ((0x0302#16).toNat < (0x0300#16).toNat ∨ (0x0300#16).toNat + 2 ≤ (0x0302#16).toNat) := by decide

theorem witness_StopEffect : (mid 6#3 0#16 0x00#8 [] []).S.wakeMask ≠ 0#16 ∧ State.reset.S.wakeMask = 0#16 := by decide

/-- The first and the last reserved word, under each policy, with bit 0 of the shift register clear. -/
theorem witness_ReservedWordByPolicy :
    (mid 3#3 1#16 0xFE#8 [(0x200, 0x01#8), (0x201, 0x01#8)] []).S.cmdLen ≠ 0#16 ∧
    cmdFetch [(0x200, 0x01#8), (0x201, 0x01#8)] 0x0200#16 = 0x0101#16 ∧ cmdFetch [(0x200, 0xFF#8), (0x201, 0xFF#8)] 0x0200#16 = 0xFFFF#16 ∧
    (0x0100 ≤ (0x0101#16).toNat ∧ 0x0101#16 ≠ 0x0100#16 ∧ 0x0101#16 ≠ 0x0200#16) ∧
    (0x0100 ≤ (0xFFFF#16).toNat ∧ 0xFFFF#16 ≠ 0x0100#16 ∧ 0xFFFF#16 ≠ 0x0200#16) ∧
    (mid 3#3 1#16 0xFE#8 [] []).env.params.reservedPolicy = .fault ∧ (Params.mk .writeLowByte .free 0#16).reservedPolicy = .writeLowByte ∧
    (mid 3#3 1#16 0xFE#8 [] []).E.sr.getLsbD 0 = false := by decide

/-- Each clause: no command left, the last command, and a reserved word. -/
theorem witness_AdvanceRunsTheDecodedCommand :
    (mid 3#3 0#16 0xFE#8 [] []).S.cmdLen = 0#16 ∧ (mid 3#3 1#16 0xFE#8 [] []).S.cmdLen ≠ 0#16 ∧
    decodeCommand (cmdFetch [(0x201, 0x02#8)] 0x0200#16) = .ok .read ∧
    decodeCommand (cmdFetch [(0x201, 0x03#8)] 0x0200#16) = .error (.reservedCommand 0x0300#16) ∧
    (mid 3#3 1#16 0xFE#8 [] []).env.params.reservedPolicy = .fault ∧ (mid 3#3 1#16 0xFE#8 [] []).E.sr.getLsbD 0 = false :=
  ⟨rfl, by decide, rfl, rfl, rfl, rfl⟩

/-- Every clause's instruction: one that writes memory, `Start`, `Stop`, and the others. -/
theorem witness_InstructionFrames :
    ∀ i ∈ [Instr.receivedData, .start, .stop, .write 0xFF#8, .read, .restart, .handleRxTx, .prepareAckNack, .prepareStop, .idle],
      (after (fun _ => ()) (exec i (mid 4#3 1#16 0x42#8 [] []))).isSome = true := by decide

theorem witness_StepRunsTheSelectedHandler :
    (mid 6#3 0#16 0x00#8 [] [.handler none]).M.fault = none ∧ (mid 6#3 0#16 0x00#8 [] [.handler none]).env.agenda = [.handler none] ∧
    (mid 6#3 0#16 0x00#8 [] [.handler none]).E.flag = true ∧ (mid 6#3 0#16 0x00#8 [] [.handler none]).P.gie = true ∧
    decode .state3 [(mid 6#3 0#16 0x00#8 [] [.handler none]).S.state.setWidth 8] = .ok (.stop, []) := ⟨rfl, rfl, rfl, rfl, rfl⟩

theorem witness_ReservedStateRaisesBadState :
    (mid 7#3 0#16 0x00#8 [] [.handler none]).M.fault = none ∧ (mid 7#3 0#16 0x00#8 [] [.handler none]).env.agenda = [.handler none] ∧
    (mid 7#3 0#16 0x00#8 [] [.handler none]).E.flag = true ∧ (mid 7#3 0#16 0x00#8 [] [.handler none]).P.gie = true ∧
    (mid 7#3 0#16 0x00#8 [] [.handler none]).S.state = 7#3 := by decide

theorem witness_RecordedFaultEndsEveryRun : (raiseFault .initTwice State.reset).M.fault = some .initTwice := by decide

/-- An invocation without a fault, and one with. -/
theorem witness_InvocationAcknowledgesUnlessItFaults :
    ∀ c ∈ [6#3, 7#3], ∃ t, (mid c 0#16 0x00#8 [] [.handler none]).env.agenda = [.handler none] ∧ (mid c 0#16 0x00#8 [] [.handler none]).E.flag = true ∧
      (mid c 0#16 0x00#8 [] [.handler none]).P.gie = true ∧ step (mid c 0#16 0x00#8 [] [.handler none]) = .next t ∧
      (t.M.fault = none ↔ c = 6#3) := by
  intro c hc
  rcases List.mem_pair.1 hc with rfl | rfl <;> exact ⟨_, rfl, rfl, rfl, rfl, by decide⟩

/-- No event; an event masked; a disarmed engine; a read and a write one past each region; a host asleep, a host that spins, and a spin without a
call. -/
theorem witness_DisabledMovesPass :
    (idleHost none [.handler none]).M.fault = none ∧ (idleHost none [.handler none]).env.agenda = [.handler none] ∧
    (idleHost none [.handler none]).E.flag = false ∧ State.reset.P.gie = false ∧
    ((idleHost none [.engine 0xFF#8]).env.agenda = [.engine 0xFF#8] ∧ (idleHost none [.engine 0xFF#8]).E.cnt = 0) ∧
    (idleHost none [.handler (some .done)]).env.agenda = [.handler (some .done)] ∧
    ((mid 3#3 1#16 0xFE#8 [] [.host (.readByte 0x0302#16)]).env.agenda = [.host (.readByte 0x0302#16)] ∧
      (mid 3#3 1#16 0xFE#8 [] [.host (.writeByte 0x0202#16 0#8)]).env.agenda = [.host (.writeByte 0x0202#16 0#8)] ∧
      (mid 3#3 1#16 0xFE#8 [] []).M.fault = none ∧ (mid 3#3 1#16 0xFE#8 [] []).S.state ≠ Config.idleCode ∧
      (mid 3#3 1#16 0xFE#8 [] []).M.cmdRegion = some ⟨0x0200#16, 1#16⟩ ∧ (mid 3#3 1#16 0xFE#8 [] []).M.rxRegion = some ⟨0x0300#16, 2⟩ ∧
      0x0200 + 2 * 1 ≤ (0x0202#16).toNat ∧ (0x0202#16).toNat < 0x0300 ∧ 0x0300 + 2 ≤ (0x0302#16).toNat) ∧
    ((idleHost none [.host (.setGie false)]).P.wakeStatus &&& 0x0010#16 ≠ 0#16 ∧
      (idleHost (some (args 0#16 0#16 0#16 0)) [.host (.setGie false)]).host.pending ≠ none ∧ HostOp.setGie false ≠ .spin) ∧
    ((idleHost none [.host .spin]).env.agenda = [.host .spin] ∧ (idleHost none [.host .spin]).host.pending = none) := by decide

/-- Every group size: 1, 8, and the sizes that only an unspecified value can have. -/
theorem witness_EngineCompletesTheGroup : ∀ n : BitCount, n ≠ 0 →
    (armed 3#3 n true 0xA0#8 [.engine 0xFF#8]).M.fault = none ∧ (armed 3#3 n true 0xA0#8 [.engine 0xFF#8]).env.agenda = [.engine 0xFF#8] ∧
    (armed 3#3 n true 0xA0#8 [.engine 0xFF#8]).E.cnt ≠ 0 ∧
    (armed 3#3 n true 0xA0#8 [.engine 0xFF#8]).env.params.readback = .free := by decide

/-- Under `wired_and`, with the line driven and its first bit low. -/
theorem witness_EngineCompletesTheGroup_wiredAnd :
    let s : State := { armed 3#3 8 true 0x7F#8 [.engine 0xFF#8] with env := ⟨⟨.fault, .wiredAnd, 0#16⟩, [.engine 0xFF#8], 0⟩ }
    s.M.fault = none ∧ s.env.agenda = [.engine 0xFF#8] ∧ s.E.cnt ≠ 0 ∧ s.env.params.readback = .wiredAnd ∧ s.E.oe = true ∧
    0 < s.E.cnt.val ∧ s.E.sr.getLsbD (7 - 0) = false := by decide

theorem witness_SampledBitsAfterAGroup :
    (∃ t, step (armed 4#3 8 false 0x40#8 [.engine 0x42#8]) = .next t ∧ t.M.trace = [] ++ [.group 8 false 0x40#8 0x42#8]) ∧
    (∃ t, step (armed 3#3 1 false 0xA0#8 [.engine 0xFF#8]) = .next t ∧ t.M.trace = [] ++ [.group 1 false 0xA0#8 0x01#8]) :=
  ⟨⟨_, rfl, by decide⟩, ⟨_, rfl, by decide⟩⟩

/-- The smallest and the largest group, a bit driven low, and values at the bound. -/
theorem witness_SampledBitsObeyTheReadbackLaw :
    (1 : BitCount) ≠ 0 ∧ (8 : BitCount) ≠ 0 ∧ (7 < (8 : BitCount).val ∧ (0xFE#8).getLsbD (7 - 7) = false) ∧
    (0xFF#8).toNat < 2 ^ (8 : BitCount).val ∧ (0x01#8).toNat < 2 ^ (1 : BitCount).val ∧
    ∀ i < (8 : BitCount).val, (0xA0#8).getLsbD (7 - i) = false → (0x20#8).getLsbD ((8 : BitCount).val - 1 - i) = false := by decide

/-- Both readback laws. -/
theorem witness_MasterAckReadback :
    (armed 3#3 1 true 0x00#8 [.engine 0x01#8]).M.fault = none ∧ (armed 3#3 1 true 0x00#8 [.engine 0x01#8]).env.agenda = [.engine 0x01#8] ∧
    (armed 3#3 1 true 0x00#8 [.engine 0x01#8]).E.cnt = 1 ∧ (armed 3#3 1 true 0x00#8 [.engine 0x01#8]).E.oe = true ∧
    (armed 3#3 1 true 0x00#8 [.engine 0x01#8]).E.sr = 0x00#8 ∧ (armed 3#3 1 true 0x00#8 [.engine 0x01#8]).env.params.readback = .free ∧
    (0x01#8).getLsbD 0 = true ∧
    ReadbackWiredAnd { armed 3#3 1 true 0x00#8 [.engine 0x01#8] with env := ⟨⟨.fault, .wiredAnd, 0#16⟩, [.engine 0x01#8], 0⟩ } :=
  ⟨rfl, rfl, rfl, rfl, rfl, rfl, rfl, rfl⟩

/-- A host that can run: before and after `init`, asleep bits clear of a nonzero mask. -/
theorem witness_InitEffect : ∀ b : Bool,
    let s : State := { idleHost none [.host (.init 0 0 ⟨true, 0xFF#8, 8, true⟩)] with
      M := { State.reset.M with inited := b }
      env := ⟨⟨.fault, .free, 0x0100#16⟩, [.host (.init 0 0 ⟨true, 0xFF#8, 8, true⟩)], 0⟩ }
    s.M.fault = none ∧ s.env.agenda = [.host (.init 0 0 ⟨true, 0xFF#8, 8, true⟩)] ∧ s.host.pending = none ∧
    s.P.wakeStatus &&& s.env.params.sleepBits = 0#16 ∧ s.M.inited = b := by decide

/-- A call from handler context, with the event; from normal context before and after `init`. -/
theorem witness_SendCallChecks :
    ((mid 3#3 0#16 0#8 [] [.handler (some (.send (args 0#16 0#16 0#16 0)))]).M.fault = none ∧
      (mid 3#3 0#16 0#8 [] [.handler (some (.send (args 0#16 0#16 0#16 0)))]).env.agenda = [.handler (some (.send (args 0#16 0#16 0#16 0)))] ∧
      (mid 3#3 0#16 0#8 [] []).E.flag = true ∧ (mid 3#3 0#16 0#8 [] []).P.gie = true) ∧
    (idleHost none [.host (.send (args 0#16 0#16 0#16 0))]).env.agenda = [.host (.send (args 0#16 0#16 0#16 0))] ∧
    (idleHost none [.host (.send (args 0#16 0#16 0#16 0))]).host.pending = none ∧
    (idleHost none []).P.wakeStatus &&& (idleHost none []).env.params.sleepBits = 0#16 ∧
    (idleHost none []).M.inited = true ∧ State.reset.M.inited = false := by decide

/-- Both regions end exactly at the top of memory. -/
theorem witness_SendInstallEffect :
    let a := args 0xFFFE#16 1#16 0xFFFF#16 1
    let s := idleHost (some a) [.host .spin]
    s.M.fault = none ∧ s.env.agenda = [.host .spin] ∧ s.host.pending = some a ∧ s.P.wakeStatus &&& s.env.params.sleepBits = 0#16 ∧
    s.S.state = Config.idleCode ∧ a.cmdBase.getLsbD 0 = false ∧ a.cmdBase.toNat + 2 * a.cmdCount.toNat ≤ 0x10000 ∧
    a.rxBase.toNat + a.rxCap ≤ 0x10000 := by decide

/-- Each failing check alone: an odd base; a region one word too long; a buffer one byte too long. -/
theorem witness_SendInstallFaults :
    (args 0x0201#16 0#16 0#16 0).cmdBase.getLsbD 0 = true ∧
    ((args 0xFFFE#16 2#16 0#16 0).cmdBase.getLsbD 0 = false ∧ 0x10000 < (0xFFFE#16).toNat + 2 * (2#16).toNat) ∧
    ((args 0xFFFE#16 1#16 0xFFFF#16 2).cmdBase.getLsbD 0 = false ∧ (0xFFFE#16).toNat + 2 * (1#16).toNat ≤ 0x10000 ∧
      0x10000 < (0xFFFF#16).toNat + 2) ∧
    ∀ a ∈ [args 0x0201#16 0#16 0#16 0, args 0xFFFE#16 2#16 0#16 0, args 0xFFFE#16 1#16 0xFFFF#16 2],
      (idleHost (some a) [.host .spin]).M.fault = none ∧ (idleHost (some a) [.host .spin]).env.agenda = [.host .spin] ∧
      (idleHost (some a) [.host .spin]).host.pending = some a ∧ (idleHost (some a) [.host .spin]).S.state = Config.idleCode ∧
      (idleHost (some a) [.host .spin]).P.wakeStatus &&& (idleHost (some a) [.host .spin]).env.params.sleepBits = 0#16 := by decide

/-- A call that spins while a transaction waits, whatever the host would do. -/
theorem witness_HeldHostWritesNothing :
    ∀ op ∈ [HostOp.spin, .writeByte 0x0200#16 0xFF#8, .done, .setGie false],
      let s : State := { mid 3#3 1#16 0xFE#8 [] [.host op] with host := ⟨some (args 0x0400#16 1#16 0x0300#16 0), .none⟩ }
      s.M.fault = none ∧ s.env.agenda = [.host op] ∧ s.host.pending ≠ none ∧ s.S.state ≠ Config.idleCode := by decide

theorem witness_DoneReportsIdle :
    (idleHost none [.host .done]).M.fault = none ∧ (idleHost none [.host .done]).env.agenda = [.host .done] ∧
    (idleHost none [.host .done]).host.pending = none ∧
    (idleHost none [.host .done]).P.wakeStatus &&& (idleHost none [.host .done]).env.params.sleepBits = 0#16 ∧
    (mid 4#3 1#16 0#8 [] [.handler (some .done)]).env.agenda = [.handler (some .done)] ∧
    (mid 4#3 1#16 0#8 [] []).E.flag = true ∧ (mid 4#3 1#16 0#8 [] []).P.gie = true := by decide

/-- While active: the last byte of each region, and the byte past each; in `Idle`, and with no region declared, any byte. -/
theorem witness_HostWriteRule :
    let s := mid 3#3 1#16 0xFE#8 [] [.host (.writeByte 0x0201#16 0x55#8)]
    (s.M.fault = none ∧ s.env.agenda = [.host (.writeByte 0x0201#16 0x55#8)] ∧ s.host.pending = none ∧
      s.P.wakeStatus &&& s.env.params.sleepBits = 0#16 ∧ Memory.wf s.mem = true ∧ s.M.cmdRegion = some ⟨0x0200#16, 1#16⟩ ∧
      s.M.rxRegion = some ⟨0x0300#16, 2⟩ ∧ s.S.state ≠ Config.idleCode) ∧
    (0x0200 ≤ (0x0201#16).toNat ∧ (0x0201#16).toNat < 0x0200 + 2 * (1#16).toNat) ∧
    (0x0300 ≤ (0x0301#16).toNat ∧ (0x0301#16).toNat < 0x0300 + 2) ∧
    (0x0200 + 2 * (1#16).toNat ≤ (0x0202#16).toNat ∧ (0x0202#16).toNat < 0x0300) ∧ 0x0300 + 2 ≤ (0x0302#16).toNat ∧
    (idleHost none []).S.state = Config.idleCode ∧ State.reset.M.cmdRegion = none ∧ State.reset.M.rxRegion = none := by decide

/-- Any byte in `Idle`, and the last byte of the receive buffer during a transaction. -/
theorem witness_HostReadAndPlatformMoves :
    ((mid 3#3 1#16 0xFE#8 [] [.host (.readByte 0x0301#16)]).env.agenda = [.host (.readByte 0x0301#16)] ∧
      (mid 3#3 1#16 0xFE#8 [] []).M.fault = none ∧ (mid 3#3 1#16 0xFE#8 [] []).host.pending = none ∧
      (mid 3#3 1#16 0xFE#8 [] []).P.wakeStatus &&& (mid 3#3 1#16 0xFE#8 [] []).env.params.sleepBits = 0#16 ∧
      (mid 3#3 1#16 0xFE#8 [] []).M.rxRegion = some ⟨0x0300#16, 2⟩ ∧ 0x0300 ≤ (0x0301#16).toNat ∧ (0x0301#16).toNat < 0x0300 + 2) ∧
    (idleHost none []).S.state = Config.idleCode ∧
    ∀ op ∈ [HostOp.readByte 0xFFFF#16, .setGie false, .sleep 0x0010#16],
      (idleHost none [.host op]).M.fault = none ∧ (idleHost none [.host op]).host.pending = none ∧
      (idleHost none [.host op]).P.wakeStatus &&& (idleHost none [.host op]).env.params.sleepBits = 0#16 ∧
      (idleHost none [.host op]).env.agenda = [.host op] := by decide

/-- A draw with every unspecified field at its other extreme. -/
def fullDraw : PowerOnDraw where
  cmdPtr := 0xFFFF#16
  cmdLen := 0xFFFF#16
  rxPtr := 0xFFFF#16
  wakeMask := 0xFFFF#16
  engine := ⟨true, 0xFF#8, 8, true⟩
  flag := true
  gie := true
  wakeStatus := 0xFFFF#16
  mem := [(0xFFFF, 0x01#8)]

theorem witness_PowerOnAtAnyTime :
    (mid 3#3 1#16 0xFE#8 [] [.powerOn fullDraw]).M.fault = none ∧
    (mid 3#3 1#16 0xFE#8 [] [.powerOn fullDraw]).env.agenda = [.powerOn fullDraw] ∧
    Memory.wf [(0, 0x01#8), (0xFFFF, 0x02#8)] = true := by decide

theorem witness_StepKeepsMemoryCanonical :
    ∃ t, Memory.wf (mid 4#3 0#16 0x42#8 [(0x300, 0x11#8)] [.handler none]).mem = true ∧
      step (mid 4#3 0#16 0x42#8 [(0x300, 0x11#8)] [.handler none]) = .next t := ⟨_, by decide, rfl⟩

/-- A transaction of one command that ends at the top of memory, and the state that waits for it. -/
def topCommand (code : StateCode) (moves : List Move) : State :=
  { mid code 1#16 0xFE#8 [(0xFFFE, 0x55#8)] moves with
    S := ⟨code, 0xFFFE#16, 1#16, 0xFFFF#16, 0x0010#16⟩
    M := { inited := true, cmdRegion := some ⟨0xFFFE#16, 1#16⟩, rxRegion := some ⟨0xFFFF#16, 1⟩, fault := none, trace := [] } }

theorem topCommand_invariant (code : StateCode) (moves : List Move) (h : code ≠ Config.idleCode ∧ code ≠ Config.reservedCode) :
    ProtocolInv (topCommand code moves) where
  legal := h.2
  active := fun _ => ⟨Option.some_ne_none _, Option.some_ne_none _⟩
  installed := fun _ => rfl
  view := fun c hc => by cases hc; exact ⟨by decide, by decide, Nat.le_refl _, rfl⟩
  cursor := fun r hr => by cases hr; exact ⟨by decide, 0, Nat.zero_le _, rfl⟩
  live := fun _ _ => .inl rfl
  single := fun _ _ h => h.2 rfl
  group := fun _ _ => .inl rfl
  quiet := fun hi _ => absurd hi h.1
  gate := fun _ => rfl

theorem witness_StepKeepsProtocolInvariant :
    ∃ t, ProtocolInv (topCommand 1#3 [.handler none]) ∧ step (topCommand 1#3 [.handler none]) = .next t ∧ t.S.cmdPtr = 0x0000#16 :=
  ⟨_, topCommand_invariant _ _ (by decide), rfl, by decide⟩

theorem witness_FetchStaysInTheCommandRegion :
    ProtocolInv (topCommand 1#3 []) ∧ (topCommand 1#3 []).M.cmdRegion = some ⟨0xFFFE#16, 1#16⟩ ∧ (topCommand 1#3 []).S.cmdLen ≠ 0#16 :=
  ⟨topCommand_invariant _ _ (by decide), rfl, by decide⟩

theorem witness_QuiescenceAfterStop :
    ∀ call ∈ [none, some HandlerCall.done], ∃ t, ProtocolInv (topCommand 6#3 [.handler call]) ∧
      (topCommand 6#3 [.handler call]).S.state = Config.stopCode ∧ (topCommand 6#3 [.handler call]).env.agenda = [.handler call] ∧
      (∀ a, call ≠ some (.send a)) ∧ (topCommand 6#3 [.handler call]).E.flag = true ∧
      (topCommand 6#3 [.handler call]).P.gie = true ∧ step (topCommand 6#3 [.handler call]) = .next t := by
  intro call hc
  rcases List.mem_pair.1 hc with rfl | rfl <;>
    exact ⟨_, topCommand_invariant _ _ (by decide), rfl, rfl, by simp, rfl, rfl, rfl⟩

/-- Each of the four ways the Transaction State is written. -/
theorem witness_OnlyInvocationsWriteAnActiveTransaction :
    (∃ t, step (mid 2#3 1#16 0xA0#8 [] [.handler none]) = .next t ∧ t.S ≠ (mid 2#3 1#16 0xA0#8 [] [.handler none]).S) ∧
    (∃ t, step { mid 2#3 1#16 0xA0#8 [] [.host (.init 0 0 ⟨true, 0xFF#8, 8, true⟩)] with M := State.reset.M } = .next t ∧
      t.S ≠ (mid 2#3 1#16 0xA0#8 [] []).S) ∧
    (∃ t, step (idleHost (some (args 0x0200#16 0#16 0#16 0)) [.host .spin]) = .next t ∧ t.S ≠ (idleHost none []).S) ∧
    (∃ t, step (mid 2#3 1#16 0xA0#8 [] [.powerOn fullDraw]) = .next t ∧ t.S ≠ (mid 2#3 1#16 0xA0#8 [] []).S) :=
  ⟨⟨_, rfl, by decide⟩, ⟨_, rfl, by decide⟩, ⟨_, rfl, by decide⟩, ⟨_, rfl, by decide⟩⟩

/-- In a state that meets the invariant, while a transaction is active. -/
theorem witness_OnlyInvocationsWriteAnActiveTransaction_active :
    ∃ t, ProtocolInv (topCommand 1#3 [.handler none]) ∧ (topCommand 1#3 [.handler none]).S.state ≠ Config.idleCode ∧
      step (topCommand 1#3 [.handler none]) = .next t ∧ t.S ≠ (topCommand 1#3 [.handler none]).S :=
  ⟨_, topCommand_invariant _ _ (by decide), by decide, rfl, by decide⟩

theorem witness_CommandViewOnlyShrinks :
    ∃ t, (topCommand 1#3 [.handler none]).S.state ≠ Config.idleCode ∧ step (topCommand 1#3 [.handler none]) = .next t ∧
      ∀ d, nextMove (topCommand 1#3 [.handler none]) ≠ .powerOn d := ⟨_, by decide, rfl, fun _ => Move.noConfusion⟩

theorem witness_BlockWritesOnlyTheReceiveBuffer :
    ∃ t, step { topOfMemory 0#16 with env := ⟨State.reset.env.params, [.handler none], 0⟩ } = .next t ∧
      nextMove { topOfMemory 0#16 with env := ⟨State.reset.env.params, [.handler none], 0⟩ } = .handler none ∧
      Memory.readByte t.mem 0xFFFF#16 ≠ Memory.readByte (topOfMemory 0#16).mem 0xFFFF#16 := ⟨_, rfl, rfl, by decide⟩

/-- A host write into the command region, and the regions' bounds. -/
theorem witness_HostLeavesActiveRegionsAlone :
    ∃ t, (mid 3#3 1#16 0xFE#8 [] [.host (.writeByte 0x0201#16 0x55#8)]).S.state ≠ Config.idleCode ∧
      nextMove (mid 3#3 1#16 0xFE#8 [] [.host (.writeByte 0x0201#16 0x55#8)]) = .host (.writeByte 0x0201#16 0x55#8) ∧
      step (mid 3#3 1#16 0xFE#8 [] [.host (.writeByte 0x0201#16 0x55#8)]) = .next t ∧
      inCmdRegion (some ⟨0x0200#16, 1#16⟩) 0x0201#16 = true ∧ inRxRegion (some ⟨0x0300#16, 2⟩) 0x0300#16 = true :=
  ⟨_, by decide, rfl, rfl, by decide, by decide⟩

theorem witness_TraceOnlyGrows :
    ∃ t, step (mid 2#3 1#16 0xA0#8 [] [.handler none]) = .next t ∧ ∀ d, nextMove (mid 2#3 1#16 0xA0#8 [] [.handler none]) ≠ .powerOn d :=
  ⟨_, rfl, fun _ => Move.noConfusion⟩

theorem witness_BlockOnlyClearsWakeBitsInStop :
    ∃ t, nextMove (mid 6#3 0#16 0x00#8 [] [.handler none]) = .handler none ∧ step (mid 6#3 0#16 0x00#8 [] [.handler none]) = .next t ∧
      t.P.wakeStatus ≠ (mid 6#3 0#16 0x00#8 [] [.handler none]).P.wakeStatus := ⟨_, rfl, rfl, by decide⟩

theorem witness_EveryInvocationLowersTheBound :
    ∃ t, (topCommand 1#3 [.handler none]).S.state ≠ Config.idleCode ∧ (topCommand 1#3 [.handler none]).S.state ≠ Config.reservedCode ∧
      (topCommand 1#3 [.handler none]).M.inited = true ∧ step (topCommand 1#3 [.handler none]) = .next t ∧
      nextMove (topCommand 1#3 [.handler none]) = .handler none ∧ (topCommand 1#3 [.handler none]).E.flag = true ∧
      (topCommand 1#3 [.handler none]).P.gie = true ∧ t.M.fault = none ∧ t.E.flag = false :=
  ⟨_, by decide, by decide, rfl, rfl, rfl, rfl, rfl, rfl, rfl⟩

/-- `[Write(0xA1), Restart, Read]`, with a receive buffer of exactly one byte. -/
def threeCommands : List CommandDraws :=
  [⟨.write 0xA1#8, 0xA1#8, 0xFF#8⟩, ⟨.restart, 0xFF#8, 0xFF#8⟩, ⟨.read, 0x42#8, 0xFF#8⟩]

def installedThree : State :=
  { mid 1#3 3#16 0xFF#8 [(0x200, 0xA1#8), (0x203, 0x01#8), (0x205, 0x02#8)] (.handler none :: ackedMoves threeCommands 0xFF#8) with
    M := { inited := true, cmdRegion := some ⟨0x0200#16, 3#16⟩, rxRegion := some ⟨0x0300#16, 1⟩, fault := none, trace := [.kick] } }

theorem witness_AckedTransactionTakesTheCountedInvocations :
    JustInstalled installedThree threeCommands ∧
      installedThree.env.agenda = .handler none :: ackedMoves threeCommands 0xFF#8 ++ [] ∧ Memory.wf installedThree.mem = true ∧
      (readBytes threeCommands)[0]? = some 0x42#8 ∧ ∀ k < reads threeCommands, 0x0301#16 ≠ installedThree.S.rxPtr + BitVec.ofNat 16 k where
  left :=
    { noFault := rfl
      gie := rfl
      flag := rfl
      start := rfl
      len := by decide
      cmds := ⟨rfl, rfl, rfl, trivial⟩
      fits := by decide
      buffer := ⟨⟨0x0300#16, 1⟩, rfl, by decide, by decide, by decide⟩
      apart := .inr (.inl (by decide)) }
  right := ⟨by rw [List.append_nil]; rfl, by decide, by decide, by decide⟩

theorem witness_NackEndsTheTransactionInTwoInvocations :
    let s := armed 3#3 1 false 0xA0#8 [.engine 0xFF#8, .handler none, .engine 0x00#8, .handler none]
    s.M.fault = none ∧ s.P.gie = true ∧ s.S.state = Config.handleRxTxCode ∧ s.E.cnt = 1 ∧ s.E.oe = false ∧ (0xFF#8).getLsbD 0 = true ∧
    s.env.agenda = [.engine 0xFF#8, .handler none, .engine 0x00#8, .handler none] ++ [] := by decide

theorem witness_ReadStoresTheSampledByte :
    let s : State := { topOfMemory 0#16 with
      E := ⟨false, 0xFF#8, 8, false, false⟩
      env := ⟨State.reset.env.params, [.engine 0x42#8, .handler none], 0⟩ }
    s.M.fault = none ∧ s.P.gie = true ∧ s.S.state = Config.receivedDataCode ∧ s.E.cnt = 8 ∧ s.E.oe = false ∧ Memory.wf s.mem = true ∧
    s.M.rxRegion = some ⟨0xFFFF#16, 1⟩ ∧ (0xFFFF#16).toNat ≤ s.S.rxPtr.toNat ∧ s.S.rxPtr.toNat < (0xFFFF#16).toNat + 1 ∧
    s.env.agenda = [.engine 0x42#8, .handler none] ++ [] := by decide

/-- A host that spins with interrupts disabled, and each agent's move. -/
theorem witness_HoldWithInterruptsOffNeverEnds :
    ∀ m ∈ [Move.handler none, .engine 0xFF#8, .host .spin],
      ∃ t, StuckHold { armed 3#3 1 false 0xA0#8 [m] with P := ⟨false, 0#16⟩, host := ⟨some (args 0#16 0#16 0#16 0), .none⟩ } ∧
        step { armed 3#3 1 false 0xA0#8 [m] with P := ⟨false, 0#16⟩, host := ⟨some (args 0#16 0#16 0#16 0), .none⟩ } = .next t ∧
        ∀ d, m ≠ .powerOn d := by
  intro m hm
  simp only [List.mem_cons, List.not_mem_nil, or_false] at hm
  rcases hm with rfl | rfl | rfl <;>
    exact ⟨_, ⟨Option.some_ne_none _, rfl, by decide⟩, rfl, fun _ => Move.noConfusion⟩

/-- An active transaction whose events are all taken: it comes to `Idle`, and the run ends with a second `init`. -/
def fairRun : State :=
  topCommand 5#3 [.handler none, .engine 0x00#8, .handler none, .host (.init 0 0 ⟨true, 0xFF#8, 8, true⟩)]

theorem witness_FairTransactionsEnd : ProtocolInv fairRun ∧ EngineFair fairRun ∧ InterruptFair fairRun :=
  ⟨topCommand_invariant _ _ (by decide), fair_of_faulting_run (n := 4) (f := .initTwice) rfl rfl⟩

end Sys2Proof.Tests
end

section
/-! SUPPORT. What every invocation leaves alone, and what it can do to the command view, to memory with the receive cursor, and to
the wake status (42_state_machine.md R150 to R158). -/

namespace Sys2Proof.Machine

/-! ## The return and the advance, component by component -/

@[simp] theorem returnFromHandler_S (s : State) : (returnFromHandler s).S = s.S := by unfold returnFromHandler; split <;> rfl
@[simp] theorem returnFromHandler_P (s : State) : (returnFromHandler s).P = s.P := by unfold returnFromHandler; split <;> rfl
@[simp] theorem returnFromHandler_host (s : State) : (returnFromHandler s).host = s.host := by
  unfold returnFromHandler; split <;> rfl
@[simp] theorem returnFromHandler_env (s : State) : (returnFromHandler s).env = s.env := by
  unfold returnFromHandler; split <;> rfl
@[simp] theorem returnFromHandler_inited (s : State) : (returnFromHandler s).M.inited = s.M.inited := by
  unfold returnFromHandler; split <;> rfl
@[simp] theorem returnFromHandler_cmdRegion (s : State) : (returnFromHandler s).M.cmdRegion = s.M.cmdRegion := by
  unfold returnFromHandler; split <;> rfl
@[simp] theorem returnFromHandler_rxRegion (s : State) : (returnFromHandler s).M.rxRegion = s.M.rxRegion := by
  unfold returnFromHandler; split <;> rfl

theorem returnFromHandler_trace_prefix (s : State) : s.M.trace <+: (returnFromHandler s).M.trace := by
  unfold returnFromHandler
  split
  · exact ⟨[.clear], rfl⟩
  · exact List.prefix_rfl

@[simp] theorem commandPorts_ge (c : Command) (e : EnginePorts) : (commandPorts c e).ge = e.ge := by cases c <;> rfl

/-! An advance leaves memory, the receive cursor and the platform alone, whatever it ends in. -/

theorem AdvanceEnds.mem_eq {u t : State} (h : AdvanceEnds u t) : t.mem = u.mem := by
  rcases h with ⟨_, rfl⟩ | ⟨_, _, rfl⟩ | ⟨_, rfl⟩ <;> rfl
theorem AdvanceEnds.rxPtr_eq {u t : State} (h : AdvanceEnds u t) : t.S.rxPtr = u.S.rxPtr := by
  rcases h with ⟨_, rfl⟩ | ⟨_, _, rfl⟩ | ⟨_, rfl⟩ <;> rfl
theorem AdvanceEnds.P_eq {u t : State} (h : AdvanceEnds u t) : t.P = u.P := by
  rcases h with ⟨_, rfl⟩ | ⟨_, _, rfl⟩ | ⟨_, rfl⟩ <;> rfl

@[simp] theorem answerReceived_cmdPtr (s : State) : (answerReceived s).S.cmdPtr = s.S.cmdPtr := by
  rcases answerReceived_cases s with ⟨_, e⟩ | ⟨_, e⟩ <;> simp [e]
@[simp] theorem answerReceived_cmdLen (s : State) : (answerReceived s).S.cmdLen = s.S.cmdLen := by
  rcases answerReceived_cases s with ⟨_, e⟩ | ⟨_, e⟩ <;> simp [e]
@[simp] theorem answerReceived_rxPtr (s : State) : (answerReceived s).S.rxPtr = s.S.rxPtr := by
  rcases answerReceived_cases s with ⟨_, e⟩ | ⟨_, e⟩ <;> simp [e]

/-! ## What no invocation writes -/

/-- What no invocation changes: the interrupt enable, the wake mask, the bookkeeping but for the fault and the trace, the host and the
model's own fields; the trace only grows. -/
structure KeptByInvocation (s t : State) : Prop where
  gie : t.P.gie = s.P.gie
  wakeMask : t.S.wakeMask = s.S.wakeMask
  inited : t.M.inited = s.M.inited
  cmdRegion : t.M.cmdRegion = s.M.cmdRegion
  rxRegion : t.M.rxRegion = s.M.rxRegion
  host : t.host = s.host
  env : t.env = s.env
  trace : s.M.trace <+: t.M.trace

theorem KeptByMeanings.on_return {s u : State} (k : KeptByMeanings s u) : KeptByInvocation s (returnFromHandler u) where
  gie := by simp [k.gie]
  wakeMask := by simp [k.wakeMask]
  inited := by simp [k.inited]
  cmdRegion := by simp [k.cmdRegion]
  rxRegion := by simp [k.rxRegion]
  host := by simp [k.host]
  env := by simp [k.env]
  trace := by
    obtain ⟨l, hl⟩ := k.trace
    exact List.IsPrefix.trans ⟨l, hl.symm⟩ (returnFromHandler_trace_prefix u)

theorem invocation_kept {s t : State} (h : invocation s = .next t) : KeptByInvocation s t := by
  rcases invocation_cases s with ⟨i, u, _, hu, e⟩ | ⟨_, e⟩ <;> cases e.symm.trans h
  · obtain ⟨v, hv, k⟩ := exec_next i s
    cases hv.symm.trans hu
    exact k.on_return
  · constructor <;> simp

/-! ## What an invocation can write -/

/-- The command view is left as it is, or one command is consumed from its front (R22, R131). -/
def ViewKeptOrConsumed (s t : State) : Prop :=
  (t.S.cmdPtr = s.S.cmdPtr ∧ t.S.cmdLen = s.S.cmdLen) ∨
    (s.S.cmdLen ≠ 0#16 ∧ t.S.cmdPtr = s.S.cmdPtr + 2#16 ∧ t.S.cmdLen = s.S.cmdLen - 1#16)

theorem viewKeptOrConsumed_of_S_eq {s t : State} (h : t.S = s.S) : ViewKeptOrConsumed s t := .inl (by simp [h])

theorem AdvanceEnds.view {u t : State} (h : AdvanceEnds u t) : ViewKeptOrConsumed u t := by
  rcases h with ⟨_, rfl⟩ | ⟨hl, c, rfl⟩ | ⟨_, rfl⟩
  · exact .inl ⟨rfl, rfl⟩
  · exact .inr ⟨hl, rfl, rfl⟩
  · exact .inl ⟨rfl, rfl⟩

theorem invocation_view {s t : State} (hf : s.M.fault = none) (h : invocation s = .next t) : ViewKeptOrConsumed s t := by
  rcases invocation_inversion hf h with ⟨_, rfl⟩ | ⟨_, ha⟩ | ⟨_, rfl⟩ | ⟨_, _, rfl⟩ | ⟨_, _, ha⟩ | ⟨_, _, rfl⟩ | ⟨_, _, rfl⟩ |
    ⟨_, rfl⟩ | ⟨_, rfl⟩ | ⟨_, rfl⟩
  · exact .inl ⟨rfl, rfl⟩
  · exact ha.view
  · exact .inl ⟨rfl, rfl⟩
  · exact .inl ⟨rfl, rfl⟩
  · exact ha.view
  · exact .inl (by simp)
  · exact .inl ⟨rfl, rfl⟩
  · exact .inl ⟨rfl, rfl⟩
  · exact .inl (by simp)
  · exact .inl ⟨rfl, rfl⟩

/-- Memory and the receive cursor are left as they are, or `ReceivedData` stores the shift register's byte at a cursor inside the declared
buffer and the cursor advances (R23, R65, R156). -/
def StoreKeptOrReceived (s t : State) : Prop :=
  (t.mem = s.mem ∧ t.S.rxPtr = s.S.rxPtr) ∨
    (s.S.state = Config.receivedDataCode ∧ inRxRegion s.M.rxRegion s.S.rxPtr = true ∧
      t.mem = Memory.writeByte s.mem s.S.rxPtr s.E.sr ∧ t.S.rxPtr = s.S.rxPtr + 1#16)

theorem invocation_store {s t : State} (hf : s.M.fault = none) (h : invocation s = .next t) : StoreKeptOrReceived s t := by
  rcases invocation_inversion hf h with ⟨_, rfl⟩ | ⟨_, ha⟩ | ⟨_, rfl⟩ | ⟨_, _, rfl⟩ | ⟨_, _, ha⟩ | ⟨hs, hr, rfl⟩ | ⟨_, _, rfl⟩ |
    ⟨_, rfl⟩ | ⟨_, rfl⟩ | ⟨_, rfl⟩
  · exact .inl ⟨rfl, rfl⟩
  · exact .inl ⟨ha.mem_eq, ha.rxPtr_eq⟩
  · exact .inl ⟨rfl, rfl⟩
  · exact .inl ⟨rfl, rfl⟩
  · exact .inl ⟨ha.mem_eq, ha.rxPtr_eq⟩
  · exact .inr ⟨hs, hr, by simp, by simp⟩
  · exact .inl ⟨rfl, rfl⟩
  · exact .inl ⟨rfl, rfl⟩
  · exact .inl (by simp)
  · exact .inl ⟨rfl, rfl⟩

/-- The wake status is left as it is, or `Stop` clears the bits of a nonzero mask (R24, R158). -/
def WakeKeptOrCleared (s t : State) : Prop :=
  t.P.wakeStatus = s.P.wakeStatus ∨
    (s.S.state = Config.stopCode ∧ s.S.wakeMask ≠ 0#16 ∧ t.P.wakeStatus = s.P.wakeStatus &&& ~~~ s.S.wakeMask)

theorem wakeHost_wakeStatus_cases (s : State) :
    (wakeHost s).P.wakeStatus = s.P.wakeStatus ∨
      (s.S.wakeMask ≠ 0#16 ∧ (wakeHost s).P.wakeStatus = s.P.wakeStatus &&& ~~~ s.S.wakeMask) := by
  rcases wakeHost_cases s with ⟨_, e⟩ | ⟨hm, e⟩
  · exact .inl (by simp [e])
  · exact .inr ⟨hm, by simp [e]⟩

theorem invocation_wake {s t : State} (hf : s.M.fault = none) (h : invocation s = .next t) : WakeKeptOrCleared s t := by
  rcases invocation_inversion hf h with ⟨_, rfl⟩ | ⟨_, ha⟩ | ⟨_, rfl⟩ | ⟨_, _, rfl⟩ | ⟨_, _, ha⟩ | ⟨_, _, rfl⟩ | ⟨_, _, rfl⟩ |
    ⟨_, rfl⟩ | ⟨hs, rfl⟩ | ⟨_, rfl⟩
  · exact .inl rfl
  · exact .inl (by simp [ha.P_eq])
  · exact .inl rfl
  · exact .inl rfl
  · exact .inl (by simp [ha.P_eq])
  · exact .inl (by simp)
  · exact .inl rfl
  · exact .inl rfl
  · exact (wakeHost_wakeStatus_cases (goto Config.idleCode (latchPulse (loadSR 0xFF#8 s)))).imp_right fun hw => ⟨hs, hw⟩
  · exact .inl rfl

theorem invocation_S_of_idle {s t : State} (hf : s.M.fault = none) (hs : s.S.state = Config.idleCode)
    (h : invocation s = .next t) : t.S = s.S := by
  rcases invocation_inversion hf h with ⟨_, rfl⟩ | h'
  · rfl
  · rw [hs] at h'
    rcases h' with ⟨hc, _⟩ | ⟨hc, _⟩ | ⟨hc, _⟩ | ⟨hc, _⟩ | ⟨hc, _⟩ | ⟨hc, _⟩ | ⟨hc, _⟩ | ⟨hc, _⟩ | ⟨hc, _⟩ <;> exact absurd hc (by decide)

theorem inRxRegion_eq_true_iff (r : Option RxRegion) (a : Addr) :
    inRxRegion r a = true ↔ ∃ x, r = some x ∧ x.base.toNat ≤ a.toNat ∧ a.toNat < x.base.toNat + x.cap := by
  cases r <;> simp [inRxRegion]

/-! ## What the host and the engine can write -/

/-- The engine writes no field of the Transaction State. -/
@[simp] theorem engineStep_S (d : Byte) (s : State) : (engineStep d s).S = s.S := by
  rcases engineStep_cases d s with ⟨_, e⟩ | ⟨_, e⟩ <;> simp [e]

/-- Everything the host can do to the Transaction State (R25): nothing, the first `init`'s return to `Idle`, or an iteration of the
busy-wait in `Idle`. -/
theorem hostStep_S_cases (op : HostOp) (s : State) :
    (hostStep op s).S = s.S ∨
    (s.M.inited = false ∧ (∃ div src d, op = .init div src d) ∧ (hostStep op s).S = { s.S with state := Config.idleCode }) ∨
    (s.S.state = Config.idleCode ∧ op = .spin) := by
  rcases hostStep_cases op s with ⟨_, e⟩ | ⟨_, e⟩ <;> rw [e]
  · exact .inl rfl
  cases op with
  | init div src d =>
    rcases hostInit_cases div src d s with ⟨_, e⟩ | ⟨hi, e⟩
    · exact .inl (by simp [hostEffect, e])
    · exact .inr (.inl ⟨hi, ⟨div, src, d, rfl⟩, by simp [hostEffect, e, afterInit]⟩)
  | send a => rcases callSend_cases a .normal s with ⟨_, e⟩ | ⟨_, _, e⟩ | ⟨_, _, e⟩ <;> exact .inl (by simp [hostEffect, e])
  | spin =>
    rcases spinOnce_cases s with e | ⟨hi, _⟩
    · exact .inl (by simp [hostEffect, e])
    · exact .inr (.inr ⟨hi, rfl⟩)
  | writeByte a v => rcases hostWrite_cases a v s with ⟨_, e⟩ | ⟨_, e⟩ <;> exact .inl (by simp [hostEffect, e])
  | done | readByte a | setGie b | sleep bits => exact .inl rfl

/-- The host's moves append to the port trace at most (R40). -/
theorem hostStep_trace_prefix (op : HostOp) (s : State) : s.M.trace <+: (hostStep op s).M.trace := by
  rcases hostStep_cases op s with ⟨_, e⟩ | ⟨_, e⟩ <;> rw [e]
  cases op with
  | init div src d => rcases hostInit_cases div src d s with ⟨_, e⟩ | ⟨_, e⟩ <;> simp [hostEffect, e, afterInit]
  | send a => rcases callSend_cases a .normal s with ⟨_, e⟩ | ⟨_, _, e⟩ | ⟨_, _, e⟩ <;> simp [hostEffect, e]
  | spin =>
    rcases spinOnce_cases s with e | ⟨_, a, _, e⟩
    · simp [hostEffect, e]
    · rcases install_cases a s with ⟨_, _, e'⟩ | ⟨_, e'⟩ <;> simp [hostEffect, e, e', afterInstall]
  | writeByte a v => rcases hostWrite_cases a v s with ⟨_, e⟩ | ⟨_, e⟩ <;> simp [hostEffect, e]
  | done | readByte a | setGie b | sleep bits => exact List.prefix_rfl

theorem engineStep_trace_prefix (d : Byte) (s : State) : s.M.trace <+: (engineStep d s).M.trace := by
  rcases engineStep_cases d s with ⟨_, e⟩ | ⟨_, e⟩ <;> simp [e]

theorem eventTaken_eq_true_iff (s : State) : eventTaken s = true ↔ s.E.flag = true ∧ s.P.gie = true := by
  simp [eventTaken]

/-- A handler's move passes, raises the fault of the forbidden call, or is a taken invocation. -/
theorem step_handler_cases {s t : State} {call : Option HandlerCall} (h : step s = .next t) (hm : nextMove s = .handler call) :
    s.M.fault = none ∧ (t = takeMove s ∨ t = raiseFault .sendFromHandler (takeMove s) ∨
      ∃ r, eventTaken s = true ∧ invocation (setResult r (takeMove s)) = .next t) := by
  obtain ⟨hf, hs⟩ := step_cases h
  refine ⟨hf, ?_⟩
  rcases hs with ⟨_, _, _, ht⟩ | ⟨_, _, _, ht⟩ | ⟨_, r, _, _, he, _, _, ht⟩ | ⟨_, hm', _⟩ | ⟨_, hm', _⟩ | ⟨_, hm', _⟩
  · exact .inl ht
  · exact .inr (.inl ht)
  · exact .inr (.inr ⟨r, he, ht⟩)
  all_goals cases hm.symm.trans hm'

end Sys2Proof.Machine
end

section
/-! SUPPORT. The protocol's invariant is kept by every move (R21, R31, R63, R64, R116, R137, R161, R164, R165). -/

namespace Sys2Proof.Machine

/-! ## The command view and the receive cursor -/

/-- The view agrees with its region after a consumption as before it (R131, R137). -/
theorem ViewOf.step {c : CmdRegion} {s t : State} (h : ViewOf c s) (hv : ViewKeptOrConsumed s t) : ViewOf c t := by
  obtain ⟨even, fits, len, ptr⟩ := h
  rcases hv with ⟨hp, hn⟩ | ⟨hne, hp, hn⟩
  · exact ⟨even, fits, by rwa [hn], by rwa [hp, hn]⟩
  · have hpos : s.S.cmdLen.toNat ≠ 0 := fun h0 => hne (BitVec.eq_of_toNat_eq h0)
    have hlen : t.S.cmdLen.toNat = s.S.cmdLen.toNat - 1 := by rw [hn]; bv_omega
    have hoff : 2 * (c.count.toNat - t.S.cmdLen.toNat) = 2 * (c.count.toNat - s.S.cmdLen.toNat) + 2 := by omega
    exact ⟨even, fits, by omega, by rw [hp, ptr, hoff, BitVec.ofNat_add, BitVec.add_assoc]⟩

theorem CursorOf.of_rxPtr_eq {r : RxRegion} {s t : State} (h : CursorOf r s) (e : t.S.rxPtr = s.S.rxPtr) : CursorOf r t :=
  ⟨h.fits, by rw [e]; exact h.ptr⟩

/-- The cursor agrees with its buffer after an admitted store as before it (R65, R165). -/
theorem CursorOf.step {r : RxRegion} {s t : State} (hr : s.M.rxRegion = some r) (h : CursorOf r s) (hs : StoreKeptOrReceived s t) :
    CursorOf r t := by
  rcases hs with ⟨_, hp⟩ | ⟨_, hin, _, hp⟩
  · exact h.of_rxPtr_eq hp
  · obtain ⟨x, hx, _, _⟩ := (inRxRegion_eq_true_iff _ _).1 hin
    cases hr.symm.trans hx
    refine ⟨h.fits, s.S.rxPtr.toNat - r.base.toNat + 1, by omega, ?_⟩
    rw [hp]
    bv_omega

/-! ## States that look the same to the protocol -/

/-- Two states the invariant does not tell apart: a gate may have been closed and a fault recorded between them. -/
structure SameForProtocol (s t : State) : Prop where
  S : t.S = s.S
  flag : t.E.flag = s.E.flag
  cnt : t.E.cnt = s.E.cnt
  gate : s.E.ge = false → t.E.ge = false
  inited : t.M.inited = s.M.inited
  cmdRegion : t.M.cmdRegion = s.M.cmdRegion
  rxRegion : t.M.rxRegion = s.M.rxRegion
  fault : t.M.fault = none → s.M.fault = none
  pending : t.host.pending = s.host.pending

theorem ProtocolInv.of_same {s t : State} (h : ProtocolInv s) (e : SameForProtocol s t) : ProtocolInv t where
  legal := by rw [e.S]; exact h.legal
  active := by rw [e.S, e.cmdRegion, e.rxRegion]; exact h.active
  installed := by rw [e.cmdRegion, e.rxRegion, e.pending, e.inited]; exact h.installed
  view c hc := (h.view c (e.cmdRegion ▸ hc)).step (viewKeptOrConsumed_of_S_eq e.S)
  cursor r hr := (h.cursor r (e.rxRegion ▸ hr)).of_rxPtr_eq (by rw [e.S])
  live hf := by rw [e.S, e.flag, e.cnt]; exact h.live (e.fault hf)
  single hf := by rw [pastStart, e.S, e.flag, e.cnt]; exact h.single (e.fault hf)
  group hf := by rw [pastStart, e.S, e.cnt]; exact h.group (e.fault hf)
  quiet := by rw [e.S, e.cmdRegion, e.flag, e.cnt]; exact h.quiet
  gate hp := e.gate (h.gate (by rwa [pastStart, e.S] at hp))

theorem same_takeMove (s : State) : SameForProtocol s (takeMove s) := by constructor <;> simp

theorem ProtocolInv.raiseFault {s : State} (h : ProtocolInv s) (f : Fault) : ProtocolInv (raiseFault f s) :=
  h.of_same (by constructor <;> simp)

/-! ## An invocation keeps the invariant -/

/-- What is armed when an invocation returns in a state: the group the state waits for, nothing in `Idle` (R161, R164). -/
def armedOnReturn (code : StateCode) : BitCount := if code = Config.idleCode then 0 else groupOf code

theorem groupOf_ne_zero (code : StateCode) : groupOf code ≠ 0 := by
  unfold groupOf
  split <;> decide

/-- What an invocation that raised no fault returns with: a legal state, the event cleared, the gate closed, and armed what the state waits
for. -/
structure Awaiting (t : State) : Prop where
  legal : t.S.state ≠ Config.reservedCode
  flag : t.E.flag = false
  gate : t.E.ge = false
  cnt : t.E.cnt = armedOnReturn t.S.state

/-- An invocation of an active transaction that ends awaiting the next event keeps the invariant. -/
theorem ProtocolInv.of_awaiting {s t : State} (h : ProtocolInv s) (ha : s.S.state ≠ Config.idleCode) (k : KeptByInvocation s t)
    (hv : ViewKeptOrConsumed s t) (hs : StoreKeptOrReceived s t) (hw : Awaiting t) : ProtocolInv t where
  legal := hw.legal
  active _ := by rw [k.cmdRegion, k.rxRegion]; exact h.active ha
  installed := by rw [k.cmdRegion, k.rxRegion, k.host, k.inited]; exact h.installed
  view c hc := (h.view c (k.cmdRegion ▸ hc)).step hv
  cursor r hr := (h.cursor r (k.rxRegion ▸ hr)).step (k.rxRegion ▸ hr) hs
  live _ hi := .inr (by rw [hw.cnt, armedOnReturn, if_neg hi]; exact groupOf_ne_zero _)
  single _ _ hb := Bool.false_ne_true (hw.flag.symm.trans hb.1)
  group _ hp := .inr (by rw [hw.cnt, armedOnReturn, if_neg hp.1])
  quiet hi _ := ⟨hw.flag, by rw [hw.cnt, armedOnReturn, if_pos hi]⟩
  gate _ := hw.gate

/-- The stop framing goes to `Stop` and arms its one bit (R135). -/
theorem awaiting_stopFraming {u : State} (hge : u.E.ge = false) : Awaiting (clearFlag (stopFraming u)) where
  legal := (by decide : Config.stopCode ≠ Config.reservedCode)
  flag := rfl
  gate := hge
  cnt := (by decide : 1 = armedOnReturn Config.stopCode)

theorem commandTarget_ne_reserved (c : Command) : commandTarget c ≠ Config.reservedCode := by
  cases c with
  | write b => exact (by decide : Config.prepareAckNackCode ≠ Config.reservedCode)
  | read => exact (by decide : Config.receivedDataCode ≠ Config.reservedCode)
  | restart => exact (by decide : Config.startCode ≠ Config.reservedCode)

/-- Every command arms the group its target waits for (R132 to R134). -/
theorem awaiting_afterCommand {u : State} (hge : u.E.ge = false) (c : Command) : Awaiting (clearFlag (afterCommand c u)) where
  legal := commandTarget_ne_reserved c
  flag := rfl
  gate := (commandPorts_ge c u.E).trans hge
  cnt := by cases c <;> rfl

/-- `PrepareAckNack` arms the slave's slot (R153). -/
theorem awaiting_ackSlot {u : State} (hge : u.E.ge = false) :
    Awaiting (clearFlag (goto Config.handleRxTxCode (setBitCount 1 (driveLine false u)))) where
  legal := (by decide : Config.handleRxTxCode ≠ Config.reservedCode)
  flag := rfl
  gate := hge
  cnt := (by decide : 1 = armedOnReturn Config.handleRxTxCode)

/-- Both answers to a received byte arm the master's slot (R156). -/
theorem awaiting_answerReceived {u : State} (hge : u.E.ge = false) : Awaiting (clearFlag (answerReceived u)) := by
  rcases answerReceived_cases u with ⟨_, e⟩ | ⟨_, e⟩ <;> rw [e]
  · exact ⟨(by decide : Config.handleRxTxCode ≠ Config.reservedCode), rfl, hge, (by decide : 1 = armedOnReturn Config.handleRxTxCode)⟩
  · exact ⟨(by decide : Config.prepareStopCode ≠ Config.reservedCode), rfl, hge, (by decide : 1 = armedOnReturn Config.prepareStopCode)⟩

/-- `Stop` arms nothing, so nothing is armed in `Idle` if nothing was before (R158, R164). -/
theorem awaiting_stop {u : State} (hcnt : u.E.cnt = 0) :
    Awaiting (clearFlag (wakeHost (goto Config.idleCode (latchPulse (loadSR 0xFF#8 u))))) where
  legal := by
    rw [clearFlag_S, wakeHost_S]
    exact (by decide : Config.idleCode ≠ Config.reservedCode)
  flag := rfl
  gate := by simp
  cnt := by simpa [armedOnReturn] using hcnt

/-- An advance with the gate closed ends awaiting the next event, or with a fault. -/
theorem AdvanceEnds.awaiting {u t : State} (h : AdvanceEnds u t) (hge : u.E.ge = false) : Awaiting t ∨ ∃ f, t = raiseFault f u := by
  rcases h with ⟨_, rfl⟩ | ⟨_, c, rfl⟩ | ⟨_, rfl⟩
  · exact .inl (awaiting_stopFraming hge)
  · exact .inl (awaiting_afterCommand hge c)
  · exact .inr ⟨_, rfl⟩

/-- The no-op of an event in `Idle` (R151): what it clears is nothing the invariant speaks of there. -/
theorem ProtocolInv.clearFlag_of_idle {s : State} (h : ProtocolInv s) (hs : s.S.state = Config.idleCode) :
    ProtocolInv (clearFlag s) where
  legal := h.legal
  active := h.active
  installed := h.installed
  view c hc := (h.view c hc).step (viewKeptOrConsumed_of_S_eq rfl)
  cursor r hr := (h.cursor r hr).of_rxPtr_eq rfl
  live _ hn := absurd hs hn
  single _ hp := absurd hs hp.1
  group _ hp := absurd hs hp.1
  quiet _ hc := ⟨rfl, (h.quiet hs hc).2⟩
  gate hp := absurd hs hp.1

/-- The state each handler starts its advance from is the same to the protocol as the state it was entered in (R152, R154). -/
theorem same_generateStart (s : State) : SameForProtocol s (generateStart s) := by constructor <;> simp

theorem same_readSR (s : State) : SameForProtocol s (readSR s) := by constructor <;> simp

/-- A taken invocation keeps the invariant: each handler ends awaiting the next event, or with a fault on a state that is the same to the
protocol. -/
theorem ProtocolInv.invocation {s t : State} (h : ProtocolInv s) (hf : s.M.fault = none) (he : s.E.flag = true)
    (hi : Machine.invocation s = .next t) : ProtocolInv t := by
  have awaits (ha : s.S.state ≠ Config.idleCode) : Awaiting t → ProtocolInv t :=
    h.of_awaiting ha (invocation_kept hi) (invocation_view hf hi) (invocation_store hf hi)
  have advanced {u : State} (ha : s.S.state ≠ Config.idleCode) (hu : SameForProtocol s u) (hge : u.E.ge = false)
      (hadv : AdvanceEnds u t) : ProtocolInv t := by
    rcases hadv.awaiting hge with hw | ⟨f, rfl⟩
    · exact awaits ha hw
    · exact (h.of_same hu).raiseFault f
  rcases invocation_inversion hf hi with ⟨hs, rfl⟩ | ⟨hs, hadv⟩ | h'
  · exact h.clearFlag_of_idle hs
  · exact advanced (by rw [hs]; decide) (same_generateStart s) rfl hadv
  have hp : pastStart s := by
    unfold pastStart
    rcases h' with ⟨hs, _⟩ | ⟨hs, _⟩ | ⟨hs, _⟩ | ⟨hs, _⟩ | ⟨hs, _⟩ | ⟨hs, _⟩ | ⟨hs, _⟩ | ⟨hs, _⟩ <;> rw [hs] <;> decide
  have hge : s.E.ge = false := h.gate hp
  have hcnt : s.E.cnt = 0 := by
    by_contra hc
    exact h.single hf hp ⟨he, hc⟩
  rcases h' with ⟨_, rfl⟩ | ⟨_, _, rfl⟩ | ⟨_, _, hadv⟩ | ⟨_, _, rfl⟩ | ⟨_, _, rfl⟩ | ⟨_, rfl⟩ | ⟨_, rfl⟩ | ⟨hs, _⟩
  · exact awaits hp.1 (awaiting_ackSlot hge)
  · exact awaits hp.1 (awaiting_stopFraming hge)
  · exact advanced hp.1 (same_readSR s) hge hadv
  · exact awaits hp.1 (awaiting_answerReceived hge)
  · exact (h.of_same (same_readSR s)).raiseFault _
  · exact awaits hp.1 (awaiting_stopFraming hge)
  · exact awaits hp.1 (awaiting_stop hcnt)
  · exact absurd hs h.legal

/-! ## The engine, the host and a power-on keep the invariant -/

/-- A completed group turns what was armed into the pending event (R111, R116). -/
theorem ProtocolInv.engineStep {s : State} (h : ProtocolInv s) (d : Byte) : ProtocolInv (engineStep d s) := by
  rcases engineStep_cases d s with ⟨_, e⟩ | ⟨hc, e⟩ <;> rw [e]
  · exact h
  · exact {
      legal := h.legal
      active := h.active
      installed := h.installed
      view := fun c hr => (h.view c hr).step (viewKeptOrConsumed_of_S_eq rfl)
      cursor := fun r hr => (h.cursor r hr).of_rxPtr_eq rfl
      live := fun _ _ => .inl rfl
      single := fun _ _ hb => hb.2 rfl
      group := fun _ _ => .inl rfl
      quiet := fun hi hr => absurd (h.quiet hi hr).2 hc
      gate := h.gate }

/-- Before the first `init` nothing is installed, so the state it leaves has nothing to agree with (R190). -/
theorem ProtocolInv.afterInit {s : State} (h : ProtocolInv s) (hi : s.M.inited = false) (div src : Nat) (d : EngineDraw) :
    ProtocolInv (afterInit div src d s) := by
  have hcmd : s.M.cmdRegion = none := by
    by_contra hr
    exact Bool.false_ne_true (hi.symm.trans (h.installed (.inl hr)))
  have hrx : s.M.rxRegion = none := by
    by_contra hr
    exact Bool.false_ne_true (hi.symm.trans (h.installed (.inr (.inl hr))))
  exact {
    legal := (by decide : Config.idleCode ≠ Config.reservedCode)
    active := fun hn => absurd rfl hn
    installed := fun _ => rfl
    view := fun c hc => by cases hcmd.symm.trans hc
    cursor := fun r hr => by cases hrx.symm.trans hr
    live := fun _ hn => absurd rfl hn
    single := fun _ hp => absurd rfl hp.1
    group := fun _ hp => absurd rfl hp.1
    quiet := fun _ hc => absurd hcmd hc
    gate := fun hp => absurd rfl hp.1 }

/-- An admitted install starts the view and the cursor at the fronts of their regions, with the kick pending (R193). -/
theorem protocolInv_afterInstall {a : SendArgs} {s : State} (hi : s.M.inited = true) (hc : installFault a = none) :
    ProtocolInv (afterInstall a s) := by
  obtain ⟨even, cmdFits, rxFits⟩ := installFault_none_iff.1 hc
  exact {
    legal := (by decide : Config.startCode ≠ Config.reservedCode)
    active := fun _ => ⟨Option.some_ne_none _, Option.some_ne_none _⟩
    installed := fun _ => hi
    view := fun c hc => by
      cases hc
      exact ⟨even, cmdFits, Nat.le_refl _, by simp [afterInstall]⟩
    cursor := fun r hr => by
      cases hr
      exact ⟨rxFits, 0, Nat.zero_le _, by simp [afterInstall]⟩
    live := fun _ _ => .inl rfl
    single := fun _ hp => absurd rfl hp.2
    group := fun _ hp => absurd rfl hp.2
    quiet := fun hs => by cases hs
    gate := fun hp => absurd rfl hp.2 }

/-- A held call is a call after `init`. -/
theorem ProtocolInv.setPending {s : State} (h : ProtocolInv s) (hi : s.M.inited = true) (p : Option SendArgs) :
    ProtocolInv (setPending p s) where
  legal := h.legal
  active := h.active
  installed _ := hi
  view c hc := (h.view c hc).step (viewKeptOrConsumed_of_S_eq rfl)
  cursor r hr := (h.cursor r hr).of_rxPtr_eq rfl
  live := h.live
  single := h.single
  group := h.group
  quiet := h.quiet
  gate := h.gate

/-- Every operation of the host keeps the invariant (R190 to R198). -/
theorem ProtocolInv.hostStep {s : State} (h : ProtocolInv s) (op : HostOp) : ProtocolInv (hostStep op s) := by
  rcases hostStep_cases op s with ⟨_, e⟩ | ⟨_, e⟩ <;> rw [e]
  · exact h
  cases op with
  | init div src d =>
    rcases hostInit_cases div src d s with ⟨_, e⟩ | ⟨hi, e⟩ <;> rw [hostEffect, e]
    · exact h.raiseFault _
    · exact h.afterInit hi div src d
  | send a =>
    rcases callSend_cases a .normal s with ⟨_, e⟩ | ⟨_, _, e⟩ | ⟨_, hi, e⟩ <;> rw [hostEffect, e]
    · exact h.raiseFault _
    · exact h.raiseFault _
    · exact h.setPending hi _
  | spin =>
    rcases spinOnce_cases s with e | ⟨_, a, hp, e⟩ <;> rw [hostEffect, e]
    · exact h
    · rcases install_cases a s with ⟨f, _, e'⟩ | ⟨hc, e'⟩ <;> rw [e']
      · exact h.raiseFault f
      · exact protocolInv_afterInstall (h.installed (.inr (.inr (by simp [hp])))) hc
  | writeByte a v =>
    rcases hostWrite_cases a v s with ⟨_, e⟩ | ⟨_, e⟩ <;> rw [hostEffect, e]
    · exact h.raiseFault _
    · exact h.of_same (by constructor <;> simp)
  | done | readByte a | setGie b | sleep bits => exact h.of_same (by constructor <;> simp [hostEffect])

/-- A power-on leaves nothing installed and the state `Idle` (R41, R243). -/
theorem protocolInv_powerOn (d : PowerOnDraw) (s : State) : ProtocolInv (powerOn d s) where
  legal := (by decide : Config.idleCode ≠ Config.reservedCode)
  active hn := absurd rfl hn
  installed := by simp [powerOn]
  view c hc := by cases hc
  cursor r hr := by cases hr
  live _ hn := absurd rfl hn
  single _ hp := absurd rfl hp.1
  group _ hp := absurd rfl hp.1
  quiet _ hc := absurd rfl hc
  gate hp := absurd rfl hp.1

/-- Settles O45: each agent's move keeps the invariant, from the state with the move taken off. -/
theorem stepKeepsProtocolInvariant : Obligations.StepKeepsProtocolInvariant := by
  unfold Obligations.StepKeepsProtocolInvariant
  intro s t h hst
  have h' : ProtocolInv (takeMove s) := h.of_same (same_takeMove s)
  obtain ⟨hf, ⟨_, _, _, rfl⟩ | ⟨_, _, _, rfl⟩ | ⟨_, r, _, _, he, _, _, hi⟩ | ⟨d, _, rfl⟩ | ⟨op, _, rfl⟩ | ⟨d, _, rfl⟩⟩ :=
    step_cases hst
  · exact h'
  · exact h'.raiseFault _
  · have hr : ProtocolInv (setResult r (takeMove s)) := h'.of_same (by constructor <;> simp)
    exact hr.invocation (by simpa using hf) (by simpa using ((eventTaken_eq_true_iff s).1 he).1) hi
  · exact h'.engineStep d
  · exact h'.hostStep op
  · exact protocolInv_powerOn d _

end Sys2Proof.Machine
end

section
/-! SUPPORT. Who writes what in one step (R22 to R25, R35, R36, R39, R40, R75). -/

namespace Sys2Proof.Machine

/-- Settles O49: of all moves only these four reach a field of `S`; an active transaction comes after `init`, which shuts the `init` out. -/
theorem onlyInvocationsWriteAnActiveTransaction : Obligations.OnlyInvocationsWriteAnActiveTransaction := by
  unfold Obligations.OnlyInvocationsWriteAnActiveTransaction
  intro s t hst hne
  have inited (h : ProtocolInv s) (ha : s.S.state ≠ Config.idleCode) : s.M.inited = true := h.installed (.inl (h.active ha).1)
  obtain ⟨hf, ⟨_, _, _, rfl⟩ | ⟨_, _, _, rfl⟩ | ⟨call, r, hm, _, he, _, _, hi⟩ | ⟨d, _, rfl⟩ | ⟨op, hm, rfl⟩ | ⟨d, hm, rfl⟩⟩ :=
    step_cases hst
  · exact absurd (by simp) hne
  · exact absurd (by simp) hne
  · obtain ⟨hflag, hgie⟩ := (eventTaken_eq_true_iff s).1 he
    have ha : s.S.state ≠ Config.idleCode := fun hs => hne (by
      rw [invocation_S_of_idle (by simpa using hf) (by simpa using hs) hi]
      simp)
    exact ⟨.inl ⟨⟨call, hm⟩, hflag, hgie, ha⟩, fun _ _ => .inl ⟨⟨call, hm⟩, hflag, hgie⟩⟩
  · exact absurd (by simp) hne
  · rcases hostStep_S_cases op (takeMove s) with hS | ⟨hi, ⟨div, src, d, rfl⟩, _⟩ | ⟨hs, rfl⟩
    · exact absurd (by simpa using hS) hne
    · have hi' : s.M.inited = false := by simpa using hi
      exact ⟨.inr (.inl ⟨hi', div, src, d, hm⟩), fun h ha => absurd (hi'.symm.trans (inited h ha)) Bool.false_ne_true⟩
    · have hs' : s.S.state = Config.idleCode := by simpa using hs
      exact ⟨.inr (.inr (.inl ⟨hs', hm⟩)), fun _ ha => absurd hs' ha⟩
  · exact ⟨.inr (.inr (.inr ⟨d, hm⟩)), fun _ _ => .inr ⟨d, hm⟩⟩

/-- Settles O50: an invocation keeps the view or consumes one command, and an active state shuts the install out. -/
theorem commandViewOnlyShrinks : Obligations.CommandViewOnlyShrinks := by
  unfold Obligations.CommandViewOnlyShrinks
  intro s t ha hst hpow
  obtain ⟨hf, ⟨_, _, _, rfl⟩ | ⟨_, _, _, rfl⟩ | ⟨_, r, _, _, _, _, _, hi⟩ | ⟨d, _, rfl⟩ | ⟨op, _, rfl⟩ | ⟨d, hm, _⟩⟩ :=
    step_cases hst
  · exact .inl (by simp)
  · exact .inl (by simp)
  · simpa [ViewKeptOrConsumed] using invocation_view (by simpa using hf) hi
  · exact .inl (by simp)
  · rcases hostStep_S_cases op (takeMove s) with hS | ⟨_, _, hS⟩ | ⟨hs, _⟩
    · exact .inl (by simp [hS])
    · exact .inl (by simp [hS])
    · exact absurd (by simpa using hs) ha
  · exact absurd hm (hpow d)

/-- Settles O51: the one store of an invocation is `ReceivedData`'s, at the cursor and admitted by the buffer. -/
theorem blockWritesOnlyTheReceiveBuffer : Obligations.BlockWritesOnlyTheReceiveBuffer := by
  unfold Obligations.BlockWritesOnlyTheReceiveBuffer
  intro s t call a hst hm hbyte
  obtain ⟨hf, rfl | rfl | ⟨r, _, hi⟩⟩ := step_handler_cases hst hm
  · exact absurd (by simp) hbyte
  · exact absurd (by simp) hbyte
  rcases invocation_store (by simpa using hf) hi with ⟨hmem, _⟩ | ⟨hs, hin, hmem, hptr⟩
  · exact absurd (by simp [hmem]) hbyte
  · have hat : a = s.S.rxPtr := by
      by_contra hne
      exact hbyte (by rw [hmem]; simpa using Memory.readByte_writeByte_of_ne _ hne)
    refine ⟨by simpa using hs, hat, by simpa using hptr, ?_⟩
    rw [hat]
    exact (inRxRegion_eq_true_iff _ _).1 (by simpa using hin)

/-- Settles O53: every agent's move but a power-on extends the trace. -/
theorem traceOnlyGrows : Obligations.TraceOnlyGrows := by
  unfold Obligations.TraceOnlyGrows
  intro s t hst hpow
  have grown : s.M.trace <+: t.M.trace := by
    obtain ⟨_, ⟨_, _, _, rfl⟩ | ⟨_, _, _, rfl⟩ | ⟨_, r, _, _, _, _, _, hi⟩ | ⟨d, _, rfl⟩ | ⟨op, _, rfl⟩ | ⟨d, hm, _⟩⟩ :=
      step_cases hst
    · simp
    · simp
    · simpa using (invocation_kept hi).trace
    · simpa using engineStep_trace_prefix d (takeMove s)
    · simpa using hostStep_trace_prefix op (takeMove s)
    · exact absurd hm (hpow d)
  exact grown.imp fun _ hl => hl.symm

/-- Settles O54: no invocation writes the enable or the mask, and only `Stop` makes the wake request. -/
theorem blockOnlyClearsWakeBitsInStop : Obligations.BlockOnlyClearsWakeBitsInStop := by
  unfold Obligations.BlockOnlyClearsWakeBitsInStop
  intro s t call hm hst
  obtain ⟨hf, rfl | rfl | ⟨r, _, hi⟩⟩ := step_handler_cases hst hm
  · simp
  · simp
  · have kept := invocation_kept hi
    refine ⟨by simpa using kept.gie, by simpa using kept.wakeMask, fun hne => ?_⟩
    have wake : WakeKeptOrCleared s t := by simpa [WakeKeptOrCleared] using invocation_wake (by simpa using hf) hi
    exact wake.resolve_left hne

/-- Settles O27: the first step already answers the recorded fault. -/
theorem recordedFaultEndsEveryRun : Obligations.RecordedFaultEndsEveryRun := by
  unfold Obligations.RecordedFaultEndsEveryRun
  intro s f k hf
  exact runFrom_succ_of_fault k (step_of_fault hf)

end Sys2Proof.Machine
end

section
/-! SUPPORT. Data memory at every width, memories as data, and the fetch of a stored or an installed command (20_memory.md R60 to R64). -/

namespace Sys2Proof.Machine

namespace Memory

/-! ## Reads after writes of any width -/

/-- `MemWrite` leaves every byte outside the written ones alone (R62). -/
theorem readByte_write_of_outside {m : List Host.Cell} {a b : Addr} {n v : Nat} (h : ∀ k < n, b ≠ a + BitVec.ofNat 16 k) :
    readByte (write m a n v) b = readByte m b := by
  induction n generalizing m a v with
  | zero => rfl
  | succ n ih =>
    have hfirst : b ≠ a := by simpa using h 0 (Nat.succ_pos n)
    have hrest : ∀ k < n, b ≠ a + 1#16 + BitVec.ofNat 16 k := fun k hk => by
      rw [BitVec.add_assoc, ← BitVec.ofNat_add, Nat.add_comm 1 k]
      exact h (k + 1) (Nat.succ_lt_succ hk)
    exact (ih hrest).trans (readByte_writeByte_of_ne _ hfirst)

/-- An address is none of the next `n` ones, as long as they do not go all the way round. -/
theorem ne_next_addresses (a : Addr) {n k : Nat} (hn : n < 0x10000) (hk : k < n) : a ≠ a + 1#16 + BitVec.ofNat 16 k := by
  bv_omega

/-- `MemRead` after `MemWrite` of the same width gives the value's low bytes (R61, R62). -/
theorem read_write_self {m : List Host.Cell} {a : Addr} {n v : Nat} (hw : wf m = true) (hn : n ≤ 0x10000) :
    read (write m a n v) a n = v % 256 ^ n := by
  induction n generalizing m a v with
  | zero => exact (Nat.mod_one v).symm
  | succ n ih =>
    have hlow : readByte (write m a (n + 1) v) a = BitVec.ofNat 8 v :=
      (readByte_write_of_outside fun _ => ne_next_addresses a hn).trans (readByte_writeByte_self a _ hw)
    have hhigh : read (write m a (n + 1) v) (a + 1#16) n = v / 256 % 256 ^ n :=
      ih (wf_writeByte a _ hw) (Nat.le_of_succ_le hn)
    calc read (write m a (n + 1) v) a (n + 1)
      _ = (BitVec.ofNat 8 v).toNat + 256 * (v / 256 % 256 ^ n) := by rw [read, hlow, hhigh]
      _ = v % 256 ^ (n + 1) := by rw [pow_succ', Nat.mod_mul, BitVec.toNat_ofNat]

/-! ## Memories as data -/

theorem get_cons_of_ne {j : Nat} {c : Host.Cell} {m : List Host.Cell} (h : c.1 ≠ j) : get (c :: m) j = get m j := if_neg h

/-- A canonical memory lists nothing below its first key. -/
theorem get_of_lt_head {j : Nat} {c : Host.Cell} {m : List Host.Cell} (hw : wf (c :: m) = true) (hj : j < c.1) :
    get (c :: m) j = unlisted := by
  obtain ⟨_, _, habove, _⟩ := (wf_cons_iff c m).1 hw
  rw [get_cons_of_ne (Nat.ne_of_gt hj), get_of_keysAbove habove (Nat.le_of_lt hj)]

/-- Two lists of cells hold the same byte at every key of the address space. -/
def SameBytes (m m' : List Host.Cell) : Prop := ∀ k < Config.memSize, get m k = get m' k

theorem SameBytes.symm {m m' : List Host.Cell} (h : SameBytes m m') : SameBytes m' m := fun k hk => (h k hk).symm

theorem sameBytes_of_readByte_eq {m m' : List Host.Cell} (h : ∀ a : Addr, readByte m a = readByte m' a) : SameBytes m m' := by
  intro k hk
  have hkey : (BitVec.ofNat 16 k).toNat = k := Nat.mod_eq_of_lt hk
  simpa only [readByte, hkey] using h (BitVec.ofNat 16 k)

/-- A first key holds a value, so a canonical memory with the same bytes begins no later. -/
theorem SameBytes.head_le {c c' : Host.Cell} {m m' : List Host.Cell} (h : SameBytes (c :: m) (c' :: m')) (hw : wf (c :: m) = true)
    (hw' : wf (c' :: m') = true) : c'.1 ≤ c.1 := by
  obtain ⟨hkey, hval, _, _⟩ := (wf_cons_iff c m).1 hw
  by_contra hlt
  exact hval (get_head.symm.trans ((h c.1 hkey).trans (get_of_lt_head hw' (Nat.lt_of_not_le hlt))))

/-- An empty memory has the bytes of no canonical memory that lists one. -/
theorem not_sameBytes_nil_cons {c : Host.Cell} {m : List Host.Cell} (hw : wf (c :: m) = true) : ¬ SameBytes [] (c :: m) := by
  obtain ⟨hkey, hval, _, _⟩ := (wf_cons_iff c m).1 hw
  exact fun h => hval (get_head.symm.trans (h c.1 hkey).symm)

/-- Behind a common first key, canonical memories with the same bytes have the same bytes. -/
theorem SameBytes.tail {c c' : Host.Cell} {m m' : List Host.Cell} (h : SameBytes (c :: m) (c' :: m')) (hkey : c.1 = c'.1)
    (ha : keysAbove c.1 m = true) (ha' : keysAbove c'.1 m' = true) : SameBytes m m' := by
  intro k hk
  by_cases hle : k ≤ c.1
  · rw [get_of_keysAbove ha hle, get_of_keysAbove ha' (hkey ▸ hle)]
  · have hne : c.1 ≠ k := by omega
    simpa only [get_cons_of_ne hne, get_cons_of_ne (hkey ▸ hne)] using h k hk

/-- The canonical form is extensional (log 4). -/
theorem SameBytes.eq {m m' : List Host.Cell} (h : SameBytes m m') (hw : wf m = true) (hw' : wf m' = true) : m = m' := by
  induction m generalizing m' with
  | nil =>
    cases m' with
    | nil => rfl
    | cons c' m' => exact absurd h (not_sameBytes_nil_cons hw')
  | cons c m ih =>
    cases m' with
    | nil => exact absurd h.symm (not_sameBytes_nil_cons hw)
    | cons c' m' =>
      obtain ⟨hlt, _, ha, hm⟩ := (wf_cons_iff c m).1 hw
      obtain ⟨_, _, ha', hm'⟩ := (wf_cons_iff c' m').1 hw'
      have hkey : c.1 = c'.1 := Nat.le_antisymm (h.symm.head_le hw' hw) (h.head_le hw hw')
      have hval : c.2 = c'.2 := get_head.symm.trans ((h c.1 hlt).trans (hkey ▸ get_head))
      rw [Prod.ext hkey hval, ih (h.tail hkey ha ha') hm hm']

end Memory

/-! ## Commands in memory -/

/-- The decoder gives a command back from its packed word (R81 to R83, R85). -/
theorem decodeCommand_encodeCommand (c : Command) : decodeCommand (encodeCommand c) = .ok c := by
  cases c with
  | write b => simp [encodeCommand, decodeCommand]
  | read => decide
  | restart => decide

/-- A fetch reads back the two bytes stored at its address, low byte first (R61, R63). -/
theorem cmdFetch_writeBytes {m : List Host.Cell} (a : Addr) (lo hi : Byte) (hw : Memory.wf m = true) :
    cmdFetch (Memory.writeByte (Memory.writeByte m a lo) (a + 1#16) hi) a = hi ++ lo := by
  have hne : a ≠ a + 1#16 := by bv_omega
  rw [cmdFetch_eq_bytes, Memory.readByte_writeByte_self _ _ (Memory.wf_writeByte _ _ hw),
    Memory.readByte_writeByte_of_ne _ hne, Memory.readByte_writeByte_self _ _ hw]

theorem getLsbD_zero_eq_false_iff (a : Addr) : a.getLsbD 0 = false ↔ a.toNat % 2 = 0 := by
  simp [BitVec.getLsbD, Nat.testBit_zero]

/-- With a command left, the pointer stands before the region's end, where no sum wraps (R137). -/
theorem ViewOf.toNat_cmdPtr {c : CmdRegion} {s : State} (h : ViewOf c s) (hne : s.S.cmdLen ≠ 0#16) :
    s.S.cmdPtr.toNat + 2 * s.S.cmdLen.toNat = c.base.toNat + 2 * c.count.toNat := by
  obtain ⟨_, fits, len, ptr⟩ := h
  have hpos : s.S.cmdLen.toNat ≠ 0 := BitVec.toNat_ne_iff_ne.2 hne
  have hend : c.base.toNat + 2 * c.count.toNat ≤ 0x10000 := fits
  rw [ptr, BitVec.toNat_add, BitVec.toNat_ofNat]
  omega

/-- Settles O5: the value by induction on the width, low byte first, and the frame. -/
theorem memReadAfterMemWrite : Obligations.MemReadAfterMemWrite := by
  unfold Obligations.MemReadAfterMemWrite
  intro m a n v hw hn
  exact ⟨Memory.read_write_self hw hn, fun _ => Memory.readByte_write_of_outside⟩

/-- Settles O6: in the canonical form the first keys, their bytes and the rests agree in turn. -/
theorem equalMemoriesAreEqualData : Obligations.EqualMemoriesAreEqualData := by
  unfold Obligations.EqualMemoriesAreEqualData
  intro m m' hw hw' h
  exact (Memory.sameBytes_of_readByte_eq h).eq hw hw'

/-- Settles O7: the fetch gives the stored word, and decoding inverts the encoding. -/
theorem storedCommandIsFetchedBack : Obligations.StoredCommandIsFetchedBack := by
  unfold Obligations.StoredCommandIsFetchedBack
  intro m a c lo hi hw hword
  rw [cmdFetch_writeBytes a lo hi hw, hword, decodeCommand_encodeCommand]

/-- Settles O47: the invariant's view, with no wrap while a command is left. -/
theorem fetchStaysInTheCommandRegion : Obligations.FetchStaysInTheCommandRegion := by
  unfold Obligations.FetchStaysInTheCommandRegion
  intro s c h hc hne
  have hview := h.view c hc
  have hpos : s.S.cmdLen.toNat ≠ 0 := BitVec.toNat_ne_iff_ne.2 hne
  have hptr := hview.toNat_cmdPtr hne
  have hlen := hview.len
  have heven := (getLsbD_zero_eq_false_iff _).1 hview.even
  exact ⟨by omega, by omega, (getLsbD_zero_eq_false_iff _).2 (by omega)⟩

end Sys2Proof.Machine
end

section
/-! SUPPORT. What each agent's move does to memory, and the host's moves with memory and with the platform (R65, R72, R73, R198, R221). -/

namespace Sys2Proof.Machine

/-! ## The regions -/

theorem inCmdRegion_eq_true_iff (r : Option CmdRegion) (a : Addr) :
    inCmdRegion r a = true ↔ ∃ c, r = some c ∧ c.base.toNat ≤ a.toNat ∧ a.toNat < c.base.toNat + 2 * c.count.toNat := by
  cases r <;> simp [inCmdRegion]

theorem inInstalledRegion_eq_true_iff (a : Addr) (s : State) :
    inInstalledRegion a s = true ↔ inCmdRegion s.M.cmdRegion a = true ∨ inRxRegion s.M.rxRegion a = true :=
  Bool.or_eq_true_iff

theorem inCmdRegion_eq_false {r : Option CmdRegion} {a : Addr}
    (h : ∀ c, r = some c → a.toNat < c.base.toNat ∨ c.base.toNat + 2 * c.count.toNat ≤ a.toNat) : inCmdRegion r a = false := by
  rw [Bool.eq_false_iff, ne_eq, inCmdRegion_eq_true_iff]
  rintro ⟨c, hc, hlo, hhi⟩
  have := h c hc
  omega

theorem inRxRegion_eq_false {r : Option RxRegion} {a : Addr}
    (h : ∀ x, r = some x → a.toNat < x.base.toNat ∨ x.base.toNat + x.cap ≤ a.toNat) : inRxRegion r a = false := by
  rw [Bool.eq_false_iff, ne_eq, inRxRegion_eq_true_iff]
  rintro ⟨x, hx, hlo, hhi⟩
  have := h x hx
  omega

/-! ## A move of the host -/

/-- Whether the host can run does not depend on the moves to come. -/
@[simp] theorem hostCanRun_setAgenda (op : HostOp) (l : List Move) (s : State) :
    hostCanRun op (setAgenda l s) = hostCanRun op s := by
  cases op <;> rfl

/-- A step whose next move is an operation that the host can run. -/
theorem step_host_of_canRun {s : State} {op : HostOp} {rest : List Move} (hf : s.M.fault = none)
    (ha : s.env.agenda = .host op :: rest) (hc : hostCanRun op s = true) :
    step s = .next (hostEffect op (setAgenda rest s)) := by
  rw [step_host hf (nextMove_cons ha), takeMove_cons ha]
  simp [hostStep, hc]

/-- A step whose next move is an operation that the host has no move with (log 5). -/
theorem step_host_of_cannotRun {s : State} {op : HostOp} {rest : List Move} (hf : s.M.fault = none)
    (ha : s.env.agenda = .host op :: rest) (hc : hostCanRun op s = false) : step s = .next (setAgenda rest s) := by
  rw [step_host hf (nextMove_cons ha), takeMove_cons ha]
  simp [hostStep, hc]

theorem isIdle_eq_true_iff (s : State) : isIdle s = true ↔ s.S.state = Config.idleCode := decide_eq_true_iff

/-- A free host writes in `Idle`, or into an installed region (R72, R198, log 32). -/
theorem hostCanRun_writeByte {s : State} (hfree : hostFree s = true) (a : Addr) (v : Byte) :
    hostCanRun (.writeByte a v) s = (isIdle s || inInstalledRegion a s) := by
  simp [hostCanRun, hfree]

/-- A free host reads in `Idle`, or from the receive buffer (R73, R198, log 32). -/
theorem hostCanRun_readByte {s : State} (hfree : hostFree s = true) (a : Addr) :
    hostCanRun (.readByte a) s = (isIdle s || inRxRegion s.M.rxRegion a) := by
  simp [hostCanRun, hfree]

/-! ## Memory under each agent's move -/

@[simp] theorem engineStep_mem (d : Byte) (s : State) : (engineStep d s).mem = s.mem := by
  rcases engineStep_cases d s with ⟨_, e⟩ | ⟨_, e⟩ <;> simp [e]

@[simp] theorem install_mem (a : SendArgs) (s : State) : (install a s).mem = s.mem := by
  rcases install_cases a s with ⟨_, _, e⟩ | ⟨_, e⟩ <;> simp [e, afterInstall]

/-- Everything the host can do to memory (R72): nothing, or one byte's write in `Idle`. -/
theorem hostStep_mem_cases (op : HostOp) (s : State) :
    (hostStep op s).mem = s.mem ∨
    (s.S.state = Config.idleCode ∧ ∃ a v, op = .writeByte a v ∧ (hostStep op s).mem = Memory.writeByte s.mem a v) := by
  rcases hostStep_cases op s with ⟨_, e⟩ | ⟨_, e⟩ <;> rw [e]
  · exact .inl rfl
  cases op with
  | writeByte a v =>
    rcases hostWrite_cases a v s with ⟨_, e⟩ | ⟨hi, e⟩ <;> rw [hostEffect, e]
    · exact .inl rfl
    · exact .inr ⟨hi, a, v, rfl, rfl⟩
  | init div src d => rcases hostInit_cases div src d s with ⟨_, e⟩ | ⟨_, e⟩ <;> exact .inl (by simp [hostEffect, e, afterInit])
  | send a => rcases callSend_cases a .normal s with ⟨_, e⟩ | ⟨_, _, e⟩ | ⟨_, _, e⟩ <;> exact .inl (by simp [hostEffect, e])
  | spin => rcases spinOnce_cases s with e | ⟨_, a, _, e⟩ <;> exact .inl (by simp [hostEffect, e])
  | done | readByte a | setGie b | sleep bits => exact .inl rfl

theorem StoreKeptOrReceived.wf_mem {s t : State} (h : StoreKeptOrReceived s t) (hw : Memory.wf s.mem = true) :
    Memory.wf t.mem = true := by
  rcases h with ⟨hmem, _⟩ | ⟨_, _, hmem, _⟩ <;> rw [hmem]
  · exact hw
  · exact Memory.wf_writeByte _ _ hw

theorem hostStep_wf_mem {s : State} (op : HostOp) (hw : Memory.wf s.mem = true) : Memory.wf (hostStep op s).mem = true := by
  rcases hostStep_mem_cases op s with hmem | ⟨_, a, v, _, hmem⟩ <;> rw [hmem]
  · exact hw
  · exact Memory.wf_writeByte a v hw

/-- Settles O19: the cursor is not admitted, so only the read of the shift register and the fault stand. -/
theorem receivedDataOutsideTheBuffer : Obligations.ReceivedDataOutsideTheBuffer := by
  unfold Obligations.ReceivedDataOutsideTheBuffer
  intro s r hr hout
  have hno : inRxRegion s.M.rxRegion s.S.rxPtr = false :=
    inRxRegion_eq_false fun x hx => by cases hr.symm.trans hx; exact hout
  rcases execReceivedData_cases s with ⟨hin, _⟩ | ⟨_, e⟩
  · exact absurd (hno.symm.trans hin) Bool.false_ne_true
  · exact e

/-- Settles O40: the state and the regions decide whether the write is a move, and the state what the move does. -/
theorem hostWriteRule : Obligations.HostWriteRule := by
  unfold Obligations.HostWriteRule
  intro s a v rest hf ha hp hz
  have hcan := hostCanRun_writeByte (hostFree_eq hp hz) a v
  refine ⟨fun hactive hregion => ?_, fun hactive hcmd hrx => ?_, fun hidle => ?_⟩
  · have hin : inInstalledRegion a s = true := (inInstalledRegion_eq_true_iff a s).2
      (hregion.imp (inCmdRegion_eq_true_iff _ a).2 (inRxRegion_eq_true_iff _ a).2)
    rw [step_host_of_canRun hf ha (by simp [hcan, hin]), hostEffect]
    rcases hostWrite_cases a v (setAgenda rest s) with ⟨_, e⟩ | ⟨hi, _⟩
    · rw [e]; rfl
    · exact absurd hi hactive
  · have hi : isIdle s = false := by simpa [isIdle] using hactive
    have hout : inInstalledRegion a s = false := by simp [inInstalledRegion, inCmdRegion_eq_false hcmd, inRxRegion_eq_false hrx]
    exact step_host_of_cannotRun hf ha (by simp [hcan, hi, hout])
  · have hi := (isIdle_eq_true_iff s).2 hidle
    refine ⟨Memory.writeByte s.mem a v, ?_, Memory.readByte_writeByte_self a v, fun b => Memory.readByte_writeByte_of_ne v⟩
    rw [step_host_of_canRun hf ha (by simp [hcan, hi]), hostEffect]
    rcases hostWrite_cases a v (setAgenda rest s) with ⟨hn, _⟩ | ⟨_, e⟩
    · exact absurd hidle hn
    · rw [e]; rfl

/-- Settles O44: an invocation, the host and a power-on draw write memory by canonical writes only. -/
theorem stepKeepsMemoryCanonical : Obligations.StepKeepsMemoryCanonical := by
  unfold Obligations.StepKeepsMemoryCanonical
  intro s t hw hst
  obtain ⟨hf, ⟨_, _, _, rfl⟩ | ⟨_, _, _, rfl⟩ | ⟨_, r, _, _, _, _, _, hi⟩ | ⟨d, _, rfl⟩ | ⟨op, _, rfl⟩ | ⟨d, _, rfl⟩⟩ :=
    step_cases hst
  · simpa using hw
  · simpa using hw
  · exact (invocation_store (by simpa using hf) hi).wf_mem (by simpa using hw)
  · simpa using hw
  · exact hostStep_wf_mem op (by simpa using hw)
  · exact Memory.wf_ofCells d.mem

/-- Settles O52: the one write of the host to memory is in `Idle`. -/
theorem hostLeavesActiveRegionsAlone : Obligations.HostLeavesActiveRegionsAlone := by
  unfold Obligations.HostLeavesActiveRegionsAlone
  intro s t op a hactive hm hst _
  obtain ⟨hf, _⟩ := step_cases hst
  cases (step_host hf hm).symm.trans hst
  rcases hostStep_mem_cases op (takeMove s) with hmem | ⟨hidle, _⟩
  · rw [hmem, takeMove_mem]
  · exact absurd (by simpa using hidle) hactive

/-- Settles O41: each of the three is a move of a free host, and has its effect on its own field. -/
theorem hostReadAndPlatformMoves : Obligations.HostReadAndPlatformMoves := by
  unfold Obligations.HostReadAndPlatformMoves
  intro s rest hf hp hz
  have hfree := hostFree_eq hp hz
  refine ⟨fun a ha hadm => ?_, fun b ha => step_host_of_canRun hf ha hfree, fun bits ha => step_host_of_canRun hf ha hfree⟩
  have hcan : hostCanRun (.readByte a) s = true := by
    rw [hostCanRun_readByte hfree, Bool.or_eq_true_iff, isIdle_eq_true_iff, inRxRegion_eq_true_iff]
    exact hadm
  exact step_host_of_canRun hf ha hcan

end Sys2Proof.Machine
end

section
/-! SUPPORT. Decoding and encoding are inverse, and the command decoder by word value (30_encoding.md R80 to R88). -/

namespace Sys2Proof

/-! ## Bytes in memory order -/

/-- Bytes that begin with a word that decodes, low byte first, decode to that word's command (R61, R80). -/
theorem decode_bytesOfWord {w : CmdWord} {c : Command} (h : decodeCommand w = .ok c) (rest : List Byte) :
    decode .cmd16 (bytesOfWord w ++ rest) = .ok (commandInstr c, rest) := by
  have hword : wordOfBytes (w.extractLsb' 0 8) (w.extractLsb' 8 8) = w := tag_append_data w
  simp [bytesOfWord, decode, hword, h]

theorem decode_encodeCommand (c : Command) (rest : List Byte) :
    decode .cmd16 (bytesOfWord (encodeCommand c) ++ rest) = .ok (commandInstr c, rest) :=
  decode_bytesOfWord (Machine.decodeCommand_encodeCommand c) rest

/-- Bytes that begin with the byte of a code that decodes decode to that code's state (R88, log 15). -/
theorem decode_bytesOfCode {k : StateCode} {i : Instr} (h : decodeState k = .ok i) (rest : List Byte) :
    decode .state3 (bytesOfCode k ++ rest) = .ok (i, rest) := by
  have hcode : (k.setWidth 8).setWidth 3 = k := BitVec.setWidth_setWidth_of_le k (by decide)
  simp [bytesOfCode, decode, hcode, h]

/-- A command's bytes make its word again, a state's byte its code, and each of the two decoders inverts its encoder. -/
theorem decode_encode (i : Instr) (rest : List Byte) : decode (formatOf i) (encode i ++ rest) = .ok (i, rest) := by
  cases i with
  | write b => exact decode_encodeCommand (.write b) rest
  | restart => exact decode_encodeCommand .restart rest
  | read => exact decode_encodeCommand .read rest
  | idle | start | prepareAckNack | handleRxTx | receivedData | prepareStop | stop => exact decode_bytesOfCode rfl rest

/-! ## The meaning of a word encodes to the word -/

theorem encodeCommand_of_decodeCommand {w : CmdWord} {c : Command} (h : decodeCommand w = .ok c) : encodeCommand c = w := by
  rcases decodeCommand_cases w with ⟨htag, hd⟩ | ⟨hw, hd⟩ | ⟨hw, hd⟩ | ⟨_, _, _, hd⟩ <;> cases hd.symm.trans h
  · calc encodeCommand (.write (dataOf w)) = tagOf w ++ dataOf w := by rw [htag, encodeCommand]
      _ = w := tag_append_data w
  · exact hw.symm
  · exact hw.symm

theorem encode_of_decodeState {k : StateCode} {i : Instr} (h : decodeState k = .ok i) : encode i = bytesOfCode k := by
  rcases decodeState_cases k with ⟨hk, hd⟩ | ⟨hk, hd⟩ | ⟨hk, hd⟩ | ⟨hk, hd⟩ | ⟨hk, hd⟩ | ⟨hk, hd⟩ | ⟨hk, hd⟩ | ⟨_, hd⟩ <;>
    cases hd.symm.trans h <;> rw [hk, encode]

/-! ## The command decoder by word value -/

theorem dataOf_eq_setWidth (w : CmdWord) : dataOf w = w.setWidth 8 := (BitVec.setWidth_eq_extractLsb' (by decide)).symm

/-- The words with tag 0, all of which are `Write`s, are those up to 0x00FF (R81). -/
theorem tagOf_eq_zero_iff (w : CmdWord) : tagOf w = 0x00#8 ↔ w.toNat ≤ 0xFF := by
  have htag : (tagOf w).toNat = w.toNat / 256 % 256 := by simp [tagOf, Nat.shiftRight_eq_div_pow]
  rw [← BitVec.toNat_inj, htag, BitVec.toNat_ofNat]
  omega

theorem decodeCommand_of_le {w : CmdWord} (h : w.toNat ≤ 0xFF) : decodeCommand w = .ok (.write (w.setWidth 8)) := by
  rw [decodeCommand, if_pos ((tagOf_eq_zero_iff w).2 h), dataOf_eq_setWidth]

/-- A word above the `Write`s that is neither `Restart` nor `Read` is reserved (R84). -/
theorem decodeCommand_of_reserved {w : CmdWord} (hwrite : 0xFF < w.toNat) (hrestart : w.toNat ≠ 0x0100) (hread : w.toNat ≠ 0x0200) :
    decodeCommand w = .error (.reservedCommand w) := by
  rcases decodeCommand_cases w with ⟨htag, _⟩ | ⟨rfl, _⟩ | ⟨rfl, _⟩ | ⟨_, _, _, hd⟩
  · exact absurd ((tagOf_eq_zero_iff w).1 htag) (Nat.not_le_of_lt hwrite)
  · exact absurd rfl hrestart
  · exact absurd rfl hread
  · exact hd

/-- Settles O2: the type of every operand is its range, so no instruction is left out. -/
theorem decodeOfEncodeIsTheInstruction : Obligations.DecodeOfEncodeIsTheInstruction := by
  unfold Obligations.DecodeOfEncodeIsTheInstruction
  exact fun i rest _ => decode_encode i rest

/-- Settles O3: each answer of the two decoders names the word or code it came from. -/
theorem encodeOfDecodeIsTheWord : Obligations.EncodeOfDecodeIsTheWord := by
  unfold Obligations.EncodeOfDecodeIsTheWord
  exact ⟨fun _ _ => encodeCommand_of_decodeCommand, fun _ _ => encode_of_decodeState⟩

/-- Settles O4: tag 0 is the range of the `Write`s, and the three reserved ranges leave out just the two other commands' words. -/
theorem commandDecodeCoversEveryWord : Obligations.CommandDecodeCoversEveryWord := by
  unfold Obligations.CommandDecodeCoversEveryWord
  intro w
  refine ⟨decodeCommand_of_le, fun hw => ?_, fun hw => ?_, fun hw => ?_⟩
  · exact hw ▸ Machine.decodeCommand_encodeCommand .restart
  · exact hw ▸ Machine.decodeCommand_encodeCommand .read
  · exact decodeCommand_of_reserved (by omega) (by omega) (by omega)

/-- Settles O1: all but the last clause are encodings written out, and code 7 is the state decoder's reserved one. -/
theorem writtenOutWordsDecode : Obligations.WrittenOutWordsDecode := by
  unfold Obligations.WrittenOutWordsDecode
  exact ⟨decode_encode (.write 0xA0#8) [], decode_encode .restart [], decode_encode .read [], decode_encode (.write 0x01#8) [],
    decode_encode .idle [], decode_encode .start [], decode_encode .prepareAckNack [], decode_encode .handleRxTx [],
    decode_encode .receivedData [], decode_encode .prepareStop [], decode_encode .stop [], rfl⟩

end Sys2Proof
end

section
/-! SUPPORT. The port primitives, the bits a group samples, and the engine's completion (40_peripheral.md R102 to R113). -/

namespace Sys2Proof.Machine

/-- Settles O8: each primitive is one field's update and one record. -/
theorem portPrimitivesEffects : Obligations.PortPrimitivesEffects := by
  unfold Obligations.PortPrimitivesEffects
  exact fun s => ⟨fun _ => rfl, fun _ => rfl, ⟨rfl, rfl⟩, rfl, rfl, fun _ => rfl, rfl, rfl⟩

/-- Settles O9: component by component; the four and the two records are appended in the order of the primitives. -/
theorem startAndLatchSequences : Obligations.StartAndLatchSequences := by
  unfold Obligations.StartAndLatchSequences
  exact fun s => ⟨state_ext rfl rfl rfl (generateStart_M s) rfl rfl rfl, state_ext rfl rfl rfl (latchPulse_M s) rfl rfl rfl⟩

/-! ## The low bits of a group and the bits driven in it -/

theorem toNat_lowBits (n : BitCount) : (lowBits n).toNat = 2 ^ n.val - 1 := by
  revert n
  decide

/-- Masking with a group's low bits is the remainder by the group's number of values. -/
theorem toNat_and_lowBits (d : Byte) (n : BitCount) : (d &&& lowBits n).toNat = d.toNat % 2 ^ n.val := by
  rw [BitVec.toNat_and, toNat_lowBits, Nat.and_two_pow_sub_one_eq_mod]

theorem and_lowBits_eq_self {b : Byte} {n : BitCount} (h : b.toNat < 2 ^ n.val) : b &&& lowBits n = b :=
  BitVec.eq_of_toNat_eq ((toNat_and_lowBits b n).trans (Nat.mod_eq_of_lt h))

theorem getLsbD_drivenBits (n : BitCount) (sr0 : Byte) (i : Nat) : (drivenBits n sr0).getLsbD i = sr0.getLsbD (8 - n.val + i) :=
  BitVec.getLsbD_ushiftRight sr0 (8 - n.val) i

/-- The place a bit of the shift register is sampled into: bit `7 - i` is driven at place `n - 1 - i` (R112). -/
theorem getLsbD_drivenBits_place {n : BitCount} {i : Nat} (sr0 : Byte) (hi : i < n.val) :
    (drivenBits n sr0).getLsbD (n.val - 1 - i) = sr0.getLsbD (7 - i) := by
  have hn := n.isLt
  rw [getLsbD_drivenBits, show 8 - n.val + (n.val - 1 - i) = 7 - i by omega]

/-! ## The sampled bits -/

theorem sampledBits_free (n : BitCount) (oe : Bool) (sr0 d : Byte) : sampledBits .free n oe sr0 d = d &&& lowBits n := rfl

theorem sampledBits_released (law : Readback) (n : BitCount) (sr0 d : Byte) :
    sampledBits law n false sr0 d = d &&& lowBits n := by
  cases law <;> rfl

theorem sampledBits_wiredAnd_driven (n : BitCount) (sr0 d : Byte) :
    sampledBits .wiredAnd n true sr0 d = d &&& lowBits n &&& drivenBits n sr0 := rfl

/-- The sampled bits are the draw's low bits, unless the block drives them under `wired_and` (R112). -/
theorem sampledBits_eq_of_free_or_released {law : Readback} {oe : Bool} (h : law = .free ∨ oe = false) (n : BitCount) (sr0 d : Byte) :
    sampledBits law n oe sr0 d = d &&& lowBits n := by
  rcases h with rfl | rfl
  · exact sampledBits_free n oe sr0 d
  · exact sampledBits_released law n sr0 d

/-- A group of `n` bits samples a value of `n` bits (R112). -/
theorem toNat_sampledBits_lt (law : Readback) (n : BitCount) (oe : Bool) (sr0 d : Byte) :
    (sampledBits law n oe sr0 d).toNat < 2 ^ n.val := by
  have low : (d &&& lowBits n).toNat < 2 ^ n.val := by
    rw [toNat_and_lowBits]
    exact Nat.mod_lt _ (Nat.two_pow_pos _)
  cases law with
  | free => exact low
  | wiredAnd =>
    cases oe with
    | false => exact low
    | true =>
      rw [sampledBits_wiredAnd_driven, BitVec.toNat_and]
      exact Nat.lt_of_le_of_lt Nat.and_le_left low

/-- Under `wired_and` a bit the block drives low reads low (R112). -/
theorem getLsbD_sampledBits_of_driven_low {n : BitCount} {sr0 : Byte} {i : Nat} (d : Byte) (hi : i < n.val)
    (hlow : sr0.getLsbD (7 - i) = false) : (sampledBits .wiredAnd n true sr0 d).getLsbD (n.val - 1 - i) = false := by
  rw [sampledBits_wiredAnd_driven, BitVec.getLsbD_and, getLsbD_drivenBits_place sr0 hi, hlow, Bool.and_false]

/-- A value of `n` bits has no bit from place `n` on. -/
theorem getLsbD_eq_false_of_lt_two_pow {b : Byte} {n j : Nat} (hb : b.toNat < 2 ^ n) (hj : n ≤ j) : b.getLsbD j = false :=
  Nat.testBit_lt_two_pow (Nat.lt_of_lt_of_le hb (Nat.pow_le_pow_right Nat.two_pos hj))

/-- A value of `n` bits that is low wherever the block drives low is kept by the mask of the driven bits. -/
theorem and_drivenBits_eq_self {n : BitCount} {sr0 b : Byte} (hb : b.toNat < 2 ^ n.val)
    (hlow : ∀ i < n.val, sr0.getLsbD (7 - i) = false → b.getLsbD (n.val - 1 - i) = false) : b &&& drivenBits n sr0 = b := by
  apply BitVec.eq_of_getLsbD_eq
  intro j _
  rw [BitVec.getLsbD_and]
  by_cases hj : j < n.val
  · have hplace : n.val - 1 - (n.val - 1 - j) = j := by omega
    have hi : n.val - 1 - j < n.val := by omega
    have hdriven := getLsbD_drivenBits_place sr0 hi
    have hbit := hlow _ hi
    rw [hplace] at hdriven hbit
    rw [hdriven]
    cases h : sr0.getLsbD (7 - (n.val - 1 - j))
    · rw [hbit h, Bool.false_and]
    · rw [Bool.and_true]
  · rw [getLsbD_eq_false_of_lt_two_pow hb (Nat.le_of_not_lt hj), Bool.false_and]

/-- Settles O32: both directions, the draw of a value that can be sampled being the value itself. -/
theorem sampledBitsObeyTheReadbackLaw : Obligations.SampledBitsObeyTheReadbackLaw := by
  unfold Obligations.SampledBitsObeyTheReadbackLaw
  intro n sr0 _
  refine ⟨fun d i => getLsbD_sampledBits_of_driven_low d, fun b hb hlow => ⟨b, ?_⟩, fun b hb => ⟨b, and_lowBits_eq_self hb⟩,
    fun _ b hb => ⟨b, and_lowBits_eq_self hb⟩⟩
  rw [sampledBits_wiredAnd_driven, and_lowBits_eq_self hb, and_drivenBits_eq_self hb hlow]

/-! ## The completion of a group -/

/-- A step in which an armed group completes (R111). -/
theorem step_engine_of_armed {s : State} {d : Byte} {rest : List Move} (hf : s.M.fault = none) (ha : s.env.agenda = .engine d :: rest)
    (hc : s.E.cnt ≠ 0) :
    step s = .next (completeGroup (sampledBits s.env.params.readback s.E.cnt s.E.oe s.E.sr d) (setAgenda rest s)) := by
  rw [step_engine hf (nextMove_cons ha), takeMove_cons ha]
  rcases engineStep_cases d (setAgenda rest s) with ⟨h0, _⟩ | ⟨_, e⟩
  · exact absurd h0 hc
  · rw [e]; rfl

/-- Settles O30: the value is what the model samples from the draw. -/
theorem engineCompletesTheGroup : Obligations.EngineCompletesTheGroup := by
  unfold Obligations.EngineCompletesTheGroup
  intro s d rest hf ha hc
  refine ⟨sampledBits s.env.params.readback s.E.cnt s.E.oe s.E.sr d, toNat_sampledBits_lt .., fun h => ?_, fun hlaw hoe i hi hlow => ?_,
    step_engine_of_armed hf ha hc⟩
  · rw [sampledBits_eq_of_free_or_released h, toNat_and_lowBits]
  · rw [hlaw, hoe]
    exact getLsbD_sampledBits_of_driven_low d hi hlow

/-- An eight-bit group leaves nothing of the old shift register (R113). -/
theorem shiftIn_eight (sr0 b : Byte) : shiftIn 8 sr0 b = b := by
  have h : sr0 <<< 8 = 0#8 := BitVec.shiftLeft_eq_zero (Nat.le_refl 8)
  exact (congrArg (· ||| b) h).trans BitVec.zero_or

/-- A one-bit group moves the old bits up by one (R113). -/
theorem getLsbD_shiftIn_one_succ {b : Byte} {i : Nat} (sr0 : Byte) (hb : b.toNat < 2) (hi : i < 7) :
    (shiftIn 1 sr0 b).getLsbD (i + 1) = sr0.getLsbD i := by
  have hhigh : b.getLsbD (i + 1) = false := getLsbD_eq_false_of_lt_two_pow (n := 1) hb (Nat.le_add_left 1 i)
  rw [shiftIn, BitVec.getLsbD_or, hhigh, Bool.or_false]
  simp [Nat.succ_lt_succ hi, Nat.lt_succ_of_lt hi]

theorem getLsbD_shiftIn_one_zero (sr0 b : Byte) : (shiftIn 1 sr0 b).getLsbD 0 = b.getLsbD 0 := by
  simp [shiftIn]

/-- Settles O31: the record of the group names the bits the step shifted in. -/
theorem sampledBitsAfterAGroup : Obligations.SampledBitsAfterAGroup := by
  unfold Obligations.SampledBitsAfterAGroup
  intro s t d b rest hf ha hst htrace
  by_cases hc : s.E.cnt = 0
  · simp [hc]
  cases (step_engine_of_armed hf ha hc).symm.trans hst
  have hb : sampledBits s.env.params.readback s.E.cnt s.E.oe s.E.sr d = b := by simpa using htrace
  have hlt := toNat_sampledBits_lt s.env.params.readback s.E.cnt s.E.oe s.E.sr d
  rw [hb] at hlt ⊢
  simp only [completeGroup_E, setAgenda_E]
  refine ⟨fun h8 => ?_, fun h1 => ?_⟩
  · rw [h8]
    exact shiftIn_eight s.E.sr b
  · rw [h1] at hlt ⊢
    exact ⟨getLsbD_shiftIn_one_zero s.E.sr b, fun i hi => getLsbD_shiftIn_one_succ s.E.sr hlt hi⟩

/-! ## The byte of a read -/

theorem and_lowBits_eight (d : Byte) : d &&& lowBits 8 = d := and_lowBits_eq_self d.isLt

/-- A released eight-bit group completes with the draw as it is (R112, R113). -/
theorem step_engine_of_released_byte {s : State} {d : Byte} {rest : List Move} (hf : s.M.fault = none)
    (ha : s.env.agenda = .engine d :: rest) (hc : s.E.cnt = 8) (hoe : s.E.oe = false) :
    step s = .next (completeGroup d (setAgenda rest s)) := by
  rw [step_engine_of_armed hf ha (by rw [hc]; decide), hoe, sampledBits_released, hc, and_lowBits_eight]

theorem completeGroup_sr_of_eight {s : State} (b : Byte) (hc : s.E.cnt = 8) : (completeGroup b s).E.sr = b := by
  rw [completeGroup_E, hc]
  exact shiftIn_eight s.E.sr b

/-- A taken event in `ReceivedData`, with the cursor inside the buffer, stores the shift register and answers it (R156). -/
theorem step_receivedData {s : State} {rest : List Move} (hf : s.M.fault = none) (ha : s.env.agenda = .handler none :: rest)
    (he : eventTaken s = true) (hs : s.S.state = Config.receivedDataCode) (hin : inRxRegion s.M.rxRegion s.S.rxPtr = true) :
    step s = .next (clearFlag (answerReceived (storeReceived s.E.sr (readSR (setAgenda rest s))))) := by
  rw [step_invocation hf (nextMove_cons ha) he, takeMove_cons ha]
  have hdec : decodeState s.S.state = .ok .receivedData := by rw [hs]; rfl
  rcases execReceivedData_cases (setAgenda rest s) with ⟨_, e⟩ | ⟨hout, _⟩
  · have hexec : exec .receivedData (setAgenda rest s) = _ := e
    simp [invocation, hdec, hexec, finishInvocation, returnFromHandler_of_no_fault, hf]
  · exact absurd (hout.symm.trans hin) Bool.false_ne_true

/-- Settles O58: the completed group is the draw, and the invocation stores it at the cursor. -/
theorem readStoresTheSampledByte : Obligations.ReadStoresTheSampledByte := by
  unfold Obligations.ReadStoresTheSampledByte
  intro s d r rest hf hg hs hc hoe hw hr hlo hhi ha
  have hin : inRxRegion s.M.rxRegion s.S.rxPtr = true := (inRxRegion_eq_true_iff _ _).2 ⟨r, hr, hlo, hhi⟩
  have hgroup := step_engine_of_released_byte hf ha hc hoe
  have hstore := step_receivedData (s := completeGroup d (setAgenda (.handler none :: rest) s)) hf rfl
    ((eventTaken_eq_true_iff _).2 ⟨rfl, hg⟩) hs hin
  rw [completeGroup_sr_of_eight (s := setAgenda (.handler none :: rest) s) d hc] at hstore
  refine ⟨_, (runFrom_succ_of_next 1 hgroup).trans (runFrom_succ_of_next 0 hstore), ?_, ?_, fun a hne => ?_, ?_⟩
  · simpa using hf
  · simpa using Memory.readByte_writeByte_self s.S.rxPtr d hw
  · simpa using Memory.readByte_writeByte_of_ne d hne
  · simp

end Sys2Proof.Machine
end

section
/-! SUPPORT. Every transaction ends under fairness: a step lowers the bound on the invocations left or leaves a pending event pending, and a
fair run cannot do the second for ever (R114, R161, R194). -/

namespace Sys2Proof.Machine

/-! ## The bound, state by state -/

theorem invocationsLeft_congr {s t : State} (h : t.S = s.S) : invocationsLeft t = invocationsLeft s := by
  simp only [invocationsLeft, h]

theorem invocationsLeft_idle {s : State} (h : s.S.state = Config.idleCode) : invocationsLeft s = 0 := by
  rw [invocationsLeft, h]; rfl
theorem invocationsLeft_start {s : State} (h : s.S.state = Config.startCode) : invocationsLeft s = 2 * s.S.cmdLen.toNat + 2 := by
  rw [invocationsLeft, h]; rfl
theorem invocationsLeft_prepareAckNack {s : State} (h : s.S.state = Config.prepareAckNackCode) :
    invocationsLeft s = 2 * s.S.cmdLen.toNat + 3 := by
  rw [invocationsLeft, h]; rfl
theorem invocationsLeft_handleRxTx {s : State} (h : s.S.state = Config.handleRxTxCode) :
    invocationsLeft s = 2 * s.S.cmdLen.toNat + 2 := by
  rw [invocationsLeft, h]; rfl
theorem invocationsLeft_receivedData {s : State} (h : s.S.state = Config.receivedDataCode) :
    invocationsLeft s = 2 * s.S.cmdLen.toNat + 3 := by
  rw [invocationsLeft, h]; rfl
theorem invocationsLeft_prepareStop {s : State} (h : s.S.state = Config.prepareStopCode) : invocationsLeft s = 2 := by
  rw [invocationsLeft, h]; rfl
theorem invocationsLeft_stop {s : State} (h : s.S.state = Config.stopCode) : invocationsLeft s = 1 := by
  rw [invocationsLeft, h]; rfl

theorem invocationsLeft_pos {s : State} (ha : s.S.state ≠ Config.idleCode) (hr : s.S.state ≠ Config.reservedCode) :
    0 < invocationsLeft s := by
  rcases decodeState_cases s.S.state with ⟨hs, _⟩ | ⟨hs, _⟩ | ⟨hs, _⟩ | ⟨hs, _⟩ | ⟨hs, _⟩ | ⟨hs, _⟩ | ⟨hs, _⟩ | ⟨hs, _⟩
  · exact absurd hs ha
  · simp [invocationsLeft_start hs]
  · simp [invocationsLeft_prepareAckNack hs]
  · simp [invocationsLeft_handleRxTx hs]
  · simp [invocationsLeft_receivedData hs]
  · simp [invocationsLeft_prepareStop hs]
  · simp [invocationsLeft_stop hs]
  · exact absurd hs hr

/-! ## An invocation lowers the bound -/

theorem invocationsLeft_stopFraming (s : State) : invocationsLeft (clearFlag (stopFraming s)) = 1 := invocationsLeft_stop rfl

/-- A command leaves fewer invocations than the advance that consumes it had left (R161). -/
theorem invocationsLeft_afterCommand (c : Command) {s : State} (hl : s.S.cmdLen ≠ 0#16) :
    invocationsLeft (clearFlag (afterCommand c s)) < 2 * s.S.cmdLen.toNat + 2 := by
  have hlen : (s.S.cmdLen - 1#16).toNat + 1 = s.S.cmdLen.toNat := by bv_omega
  have hcmd : (clearFlag (afterCommand c s)).S.cmdLen = s.S.cmdLen - 1#16 := rfl
  cases c with
  | write b =>
    rw [invocationsLeft_prepareAckNack rfl, hcmd]
    omega
  | read =>
    rw [invocationsLeft_receivedData rfl, hcmd]
    omega
  | restart =>
    rw [invocationsLeft_start rfl, hcmd]
    omega

theorem AdvanceEnds.invocationsLeft_lt_or_fault {u t : State} (h : AdvanceEnds u t) :
    invocationsLeft t < 2 * u.S.cmdLen.toNat + 2 ∨ ∃ f, t = raiseFault f u := by
  rcases h with ⟨_, rfl⟩ | ⟨hl, c, rfl⟩ | ⟨_, rfl⟩
  · exact .inl (by rw [invocationsLeft_stopFraming]; omega)
  · exact .inl (invocationsLeft_afterCommand c hl)
  · exact .inr ⟨_, rfl⟩

/-- The answer to a received byte leaves the ACK slot of a command to come, or the STOP (R156). -/
theorem invocationsLeft_answerReceived (s : State) : invocationsLeft (clearFlag (answerReceived s)) < 2 * s.S.cmdLen.toNat + 3 := by
  rcases answerReceived_cases s with ⟨_, e⟩ | ⟨_, e⟩ <;> rw [e]
  · rw [invocationsLeft_handleRxTx rfl]
    exact Nat.lt_succ_self _
  · rw [invocationsLeft_prepareStop rfl]
    omega

/-- An invocation of an active transaction lowers the bound, or raises a fault and keeps the Transaction State and the event
(R150, R161, R214). -/
theorem invocation_lowersBound_or_faults {s t : State} (hf : s.M.fault = none) (ha : s.S.state ≠ Config.idleCode)
    (hr : s.S.state ≠ Config.reservedCode) (h : invocation s = .next t) :
    invocationsLeft t < invocationsLeft s ∨ (t.M.fault ≠ none ∧ t.S = s.S ∧ t.E.flag = s.E.flag) := by
  have advanced {u : State} (hS : u.S = s.S) (hflag : u.E.flag = s.E.flag) (hs : invocationsLeft s = 2 * s.S.cmdLen.toNat + 2)
      (hadv : AdvanceEnds u t) : invocationsLeft t < invocationsLeft s ∨ (t.M.fault ≠ none ∧ t.S = s.S ∧ t.E.flag = s.E.flag) := by
    rw [hs, ← hS]
    exact hadv.invocationsLeft_lt_or_fault.imp_right fun ⟨f, ht⟩ => by simp [ht, hflag]
  rcases invocation_inversion hf h with ⟨hs, _⟩ | ⟨hs, hadv⟩ | ⟨hs, rfl⟩ | ⟨hs, _, rfl⟩ | ⟨hs, _, hadv⟩ | ⟨hs, _, rfl⟩ |
    ⟨_, _, rfl⟩ | ⟨hs, rfl⟩ | ⟨hs, rfl⟩ | ⟨hs, _⟩
  · exact absurd hs ha
  · exact advanced (generateStart_S s) rfl (invocationsLeft_start hs) hadv
  · refine .inl ?_
    rw [invocationsLeft_prepareAckNack hs, invocationsLeft_handleRxTx rfl]
    exact Nat.lt_succ_self _
  · exact .inl (by rw [invocationsLeft_handleRxTx hs, invocationsLeft_stopFraming]; omega)
  · exact advanced (readSR_S s) rfl (invocationsLeft_handleRxTx hs) hadv
  · refine .inl ?_
    rw [invocationsLeft_receivedData hs]
    exact invocationsLeft_answerReceived _
  · exact .inr (by simp)
  · exact .inl (by rw [invocationsLeft_prepareStop hs, invocationsLeft_stopFraming]; omega)
  · refine .inl ?_
    rw [invocationsLeft_stop hs, invocationsLeft_idle (by simp)]
    exact Nat.zero_lt_one
  · exact absurd hs hr

/-! ## Every step lowers the bound or waits -/

/-- The bound is lowered, or the Transaction State is kept and a pending event stays pending. -/
def LowersOrWaits (s t : State) : Prop :=
  invocationsLeft t < invocationsLeft s ∨ (t.S = s.S ∧ (s.E.flag = true → t.E.flag = true))

theorem LowersOrWaits.refl (s : State) : LowersOrWaits s s := .inr ⟨rfl, id⟩

theorem LowersOrWaits.le {s t : State} (h : LowersOrWaits s t) : invocationsLeft t ≤ invocationsLeft s := by
  rcases h with hlt | ⟨hS, _⟩
  · exact Nat.le_of_lt hlt
  · exact Nat.le_of_eq (invocationsLeft_congr hS)

theorem LowersOrWaits.trans {s t u : State} (h : LowersOrWaits s t) (g : LowersOrWaits t u) : LowersOrWaits s u := by
  rcases h with hlt | ⟨hS, hflag⟩
  · exact .inl (Nat.lt_of_le_of_lt g.le hlt)
  · rcases g with hlt | ⟨hS', hflag'⟩
    · exact .inl (by rwa [← invocationsLeft_congr hS])
    · exact .inr ⟨hS'.trans hS, hflag' ∘ hflag⟩

/-- An event that was pending and is no more has been taken, or the transaction was dropped. -/
theorem LowersOrWaits.lt_of_cleared {s t : State} (h : LowersOrWaits s t) (hs : s.E.flag = true) (ht : t.E.flag = false) :
    invocationsLeft t < invocationsLeft s :=
  h.resolve_right fun ⟨_, hflag⟩ => Bool.false_ne_true (ht.symm.trans (hflag hs))

/-- The engine only raises the completion flag (R111). -/
theorem engineStep_flag {s : State} (d : Byte) (h : s.E.flag = true) : (engineStep d s).E.flag = true := by
  rcases engineStep_cases d s with ⟨_, e⟩ | ⟨_, e⟩ <;> rw [e]
  · exact h
  · rfl

/-- Of the host's operations, only the first `init` and an install in `Idle` write an engine port (R190, R193). -/
theorem hostStep_E_of_active {s : State} (op : HostOp) (hi : s.M.inited = true) (ha : s.S.state ≠ Config.idleCode) :
    (hostStep op s).E = s.E := by
  rcases hostStep_cases op s with ⟨_, e⟩ | ⟨_, e⟩ <;> rw [e]
  cases op with
  | init div src d =>
    rcases hostInit_cases div src d s with ⟨_, e⟩ | ⟨hn, _⟩
    · simp [hostEffect, e]
    · exact absurd (hn.symm.trans hi) Bool.false_ne_true
  | send a => rcases callSend_cases a .normal s with ⟨_, e⟩ | ⟨_, _, e⟩ | ⟨_, _, e⟩ <;> simp [hostEffect, e]
  | spin =>
    rcases spinOnce_cases s with e | ⟨hidle, _⟩
    · simp [hostEffect, e]
    · exact absurd hidle ha
  | writeByte a v => rcases hostWrite_cases a v s with ⟨_, e⟩ | ⟨_, e⟩ <;> simp [hostEffect, e]
  | done | readByte a | setGie b | sleep bits => rfl

/-- After `init`, the host leaves an active transaction as it is (R25). -/
theorem hostStep_S_of_active {s : State} (op : HostOp) (hi : s.M.inited = true) (ha : s.S.state ≠ Config.idleCode) :
    (hostStep op s).S = s.S := by
  rcases hostStep_S_cases op s with hS | ⟨hn, _⟩ | ⟨hidle, _⟩
  · exact hS
  · exact absurd (hn.symm.trans hi) Bool.false_ne_true
  · exact absurd hidle ha

/-- Every step of an active transaction lowers the bound or waits: only an invocation and a power-on do not keep the Transaction State. -/
theorem step_lowersOrWaits {s t : State} (ha : s.S.state ≠ Config.idleCode) (hr : s.S.state ≠ Config.reservedCode)
    (hi : s.M.inited = true) (hst : step s = .next t) : LowersOrWaits s t := by
  obtain ⟨hf, ⟨_, _, _, rfl⟩ | ⟨_, _, _, rfl⟩ | ⟨_, r, _, _, _, _, _, hinv⟩ | ⟨d, _, rfl⟩ | ⟨op, _, rfl⟩ | ⟨d, _, rfl⟩⟩ :=
    step_cases hst
  · exact .inr (by simp)
  · exact .inr (by simp)
  · have hS : (setResult r (takeMove s)).S = s.S := takeMove_S s
    rcases invocation_lowersBound_or_faults (by simpa using hf) (by rwa [hS]) (by rwa [hS]) hinv with hlt | ⟨_, hS', hflag⟩
    · exact .inl (by rwa [invocationsLeft_congr hS] at hlt)
    · exact .inr ⟨hS'.trans hS, fun h => hflag.trans (by simpa using h)⟩
  · exact .inr ⟨by simp, fun h => engineStep_flag d (by simpa using h)⟩
  · refine .inr ⟨?_, fun h => ?_⟩
    · rw [hostStep_S_of_active op (by simpa using hi) (by simpa using ha), takeMove_S]
    · rwa [hostStep_E_of_active op (by simpa using hi) (by simpa using ha), takeMove_E]
  · exact .inl (by rw [invocationsLeft_idle (s := powerOn d (takeMove s)) rfl]; exact invocationsLeft_pos ha hr)

/-! ## Runs that end -/

/-- Some state of the run from `s` is `Idle` or records a fault. -/
def ComesToIdleOrFaults (s : State) : Prop :=
  ∃ k t, runFrom k s = .next t ∧ (t.S.state = Config.idleCode ∨ t.M.fault ≠ none)

theorem ComesToIdleOrFaults.of_run {s t : State} {k : Nat} (hk : runFrom k s = .next t) (h : ComesToIdleOrFaults t) :
    ComesToIdleOrFaults s := by
  obtain ⟨j, u, hj, hend⟩ := h
  exact ⟨k + j, u, (runFrom_add j hk).trans hj, hend⟩

theorem active_of_not_comes {s t : State} {k : Nat} (hne : ¬ ComesToIdleOrFaults s) (hk : runFrom k s = .next t) :
    t.S.state ≠ Config.idleCode ∧ t.M.fault = none :=
  ⟨fun h => hne ⟨k, t, hk, .inl h⟩, by_contra fun h => hne ⟨k, t, hk, .inr h⟩⟩

theorem ProtocolInv.of_run {s t : State} {k : Nat} (h : ProtocolInv s) (hk : runFrom k s = .next t) : ProtocolInv t :=
  runFrom_induction stepKeepsProtocolInvariant h hk

theorem EngineFair.of_run {s t : State} {k : Nat} (h : EngineFair s) (hk : runFrom k s = .next t) : EngineFair t := by
  intro i u hi hf hc
  obtain ⟨j, v, hj, hend⟩ := h (k + i) u ((runFrom_add i hk).trans hi) hf hc
  exact ⟨j, v, by rwa [Nat.add_assoc, runFrom_add (i + j) hk] at hj, hend⟩

theorem InterruptFair.of_run {s t : State} {k : Nat} (h : InterruptFair s) (hk : runFrom k s = .next t) : InterruptFair t := by
  intro i u hi hf hc
  obtain ⟨j, v, hj, hend⟩ := h (k + i) u ((runFrom_add i hk).trans hi) hf hc
  exact ⟨j, v, by rwa [Nat.add_assoc, runFrom_add (i + j) hk] at hj, hend⟩

/-- Along a run that never comes to `Idle` nor faults, the bound is lowered or the machine waits. -/
theorem run_lowersOrWaits {s t : State} {k : Nat} (h : ProtocolInv s) (hne : ¬ ComesToIdleOrFaults s) (hk : runFrom k s = .next t) :
    LowersOrWaits s t := by
  induction k generalizing t with
  | zero =>
    cases hk
    exact .refl s
  | succ k ih =>
    obtain ⟨u, hu, hut⟩ := runFrom_succ_last hk
    have hinv : ProtocolInv u := h.of_run hu
    have ha := (active_of_not_comes hne hu).1
    exact (ih hu).trans (step_lowersOrWaits ha hinv.legal (hinv.installed (.inl (hinv.active ha).1)) hut)

/-- Such a run comes to a pending event: one is pending, or the armed group completes (R114). -/
theorem event_comes {s : State} (h : ProtocolInv s) (he : EngineFair s) (hne : ¬ ComesToIdleOrFaults s) :
    ∃ k t, runFrom k s = .next t ∧ t.E.flag = true := by
  obtain ⟨ha, hf⟩ := active_of_not_comes hne (runFrom_zero s)
  rcases h.live hf ha with hflag | hcnt
  · exact ⟨0, s, rfl, hflag⟩
  · obtain ⟨k, t, hk, hend⟩ := he 0 s rfl hf hcnt
    rw [Nat.zero_add] at hk
    obtain ⟨hat, hft⟩ := active_of_not_comes hne hk
    exact ⟨k, t, hk, ((h.of_run hk).live hft hat).resolve_right fun hc => hc (hend.resolve_right fun hn => hn hft)⟩

/-- The bound of a fair run that never ends comes to be lowered: an event comes and is taken. -/
theorem bound_is_lowered {s : State} (h : ProtocolInv s) (he : EngineFair s) (hi : InterruptFair s) (hne : ¬ ComesToIdleOrFaults s) :
    ∃ k t, runFrom k s = .next t ∧ invocationsLeft t < invocationsLeft s := by
  obtain ⟨k, u, hu, hflag⟩ := event_comes h he hne
  obtain ⟨j, v, hv, hend⟩ := hi k u hu (active_of_not_comes hne hu).2 hflag
  have hclear : v.E.flag = false := hend.resolve_right fun hn => hn (active_of_not_comes hne hv).2
  have hfrom : LowersOrWaits u v :=
    run_lowersOrWaits (h.of_run hu) (fun hc => hne (hc.of_run hu)) ((runFrom_add j hu).symm.trans hv)
  exact ⟨k + j, v, hv, Nat.lt_of_lt_of_le (hfrom.lt_of_cleared hflag hclear) (run_lowersOrWaits h hne hu).le⟩

/-- Settles O60, by strong induction on the bound. -/
theorem fairTransactionsEnd : Obligations.FairTransactionsEnd := by
  unfold Obligations.FairTransactionsEnd
  intro s
  induction hn : invocationsLeft s using Nat.strong_induction_on generalizing s with
  | _ n ih =>
    intro h he hi
    by_contra hne
    obtain ⟨k, t, hk, hlt⟩ := bound_is_lowered h he hi hne
    exact hne (ComesToIdleOrFaults.of_run hk (ih _ (hn ▸ hlt) t rfl (h.of_run hk) (he.of_run hk) (hi.of_run hk)))

end Sys2Proof.Machine
end

section
/-! SUPPORT. The three commands, the advance as the meaning it selects, and what each instruction leaves alone (41_commands.md R130 to R137). -/

namespace Sys2Proof.Machine

/-! ## The commands -/

/-- Settles O10: the state after the command `Write(b)`. -/
theorem writeEffect : Obligations.WriteEffect := by
  unfold Obligations.WriteEffect
  exact execWrite_eq

/-- Settles O11: the state after the command `Read`. -/
theorem readEffect : Obligations.ReadEffect := by
  unfold Obligations.ReadEffect
  exact execRead_eq

/-- Settles O12: the state after the command `Restart`. -/
theorem restartEffect : Obligations.RestartEffect := by
  unfold Obligations.RestartEffect
  exact execRestart_eq

/-- The row a command is has the command's meaning (R87). -/
theorem exec_commandInstr (c : Command) (s : State) : exec (commandInstr c) s = .next (afterCommand c s) := by
  cases c with
  | write b => exact execWrite_eq b s
  | read => exact execRead_eq s
  | restart => exact execRestart_eq s

/-! ## The advance, case by case (R131, R136) -/

theorem commandsRemain_eq_true_iff (s : State) : commandsRemain s = true ↔ s.S.cmdLen ≠ 0#16 := decide_eq_true_iff

theorem advance_of_no_command {s : State} (hl : s.S.cmdLen = 0#16) : advance s = exec .prepareStop s :=
  if_neg fun h => (commandsRemain_eq_true_iff s).1 h hl

theorem advance_of_command {s : State} {c : Command} (hl : s.S.cmdLen ≠ 0#16) (hd : decodeCommand (nextWord s) = .ok c) :
    advance s = .next (afterCommand c s) := by
  rw [advance, if_pos ((commandsRemain_eq_true_iff s).2 hl), hd]
  exact execCommand_eq c s

theorem advance_of_error {s : State} {e : DecodeError} (hl : s.S.cmdLen ≠ 0#16) (hd : decodeCommand (nextWord s) = .error e) :
    advance s = reservedCommand (nextWord s) s := by
  rw [advance, if_pos ((commandsRemain_eq_true_iff s).2 hl), hd]

theorem advance_of_reserved_fault {s : State} {w : CmdWord} (hl : s.S.cmdLen ≠ 0#16)
    (hd : decodeCommand (nextWord s) = .error (.reservedCommand w)) (hp : s.env.params.reservedPolicy = .fault) :
    advance s = .next (raiseFault (.reservedCommand w s.S.cmdPtr) s) := by
  cases decodeCommand_error hd
  rw [advance_of_error hl hd, reservedCommand, hp]

theorem advance_of_reserved_writeLowByte {s : State} {w : CmdWord} (hl : s.S.cmdLen ≠ 0#16)
    (hd : decodeCommand (nextWord s) = .error (.reservedCommand w)) (hp : s.env.params.reservedPolicy = .writeLowByte) :
    advance s = exec (.write (w.setWidth 8)) s := by
  cases decodeCommand_error hd
  rw [advance_of_error hl hd, reservedCommand, hp, dataOf_eq_setWidth]
  rfl

/-- A received ACK makes `HandleRxTx` advance, after its read of the shift register (R154). -/
theorem exec_handleRxTx_of_ack {s : State} (hb : s.E.sr.getLsbD 0 = false) : exec .handleRxTx s = advance (readSR s) := by
  rcases execHandleRxTx_cases s with ⟨hnack, _⟩ | ⟨_, e⟩
  · exact absurd (hb.symm.trans hnack) Bool.false_ne_true
  · exact e

/-- Settles O23: the START condition and the read of the shift register keep the fetched word, the count and the policy, so each
clause is a case of the advance after them. -/
theorem advanceRunsTheDecodedCommand : Obligations.AdvanceRunsTheDecodedCommand := by
  unfold Obligations.AdvanceRunsTheDecodedCommand
  intro s
  refine ⟨fun hl => ⟨?_, fun hb => ?_⟩, fun c hl hd => ⟨?_, fun hb => ?_⟩, fun w hl hd hp => ?_⟩
  · exact advance_of_no_command (s := generateStart s) hl
  · exact (exec_handleRxTx_of_ack hb).trans (advance_of_no_command hl)
  · exact ⟨_, advance_of_command (s := generateStart s) hl hd, exec_commandInstr c _, rfl, rfl⟩
  · exact ⟨_, (exec_handleRxTx_of_ack hb).trans (advance_of_command hl hd), exec_commandInstr c _, rfl, rfl⟩
  · exact ⟨advance_of_reserved_fault (s := generateStart s) hl hd hp,
      fun hb => (exec_handleRxTx_of_ack hb).trans (advance_of_reserved_fault (s := readSR s) hl hd hp)⟩

/-- Settles O22: such a word does not decode, and the policy says what the advance does with it. -/
theorem reservedWordByPolicy : Obligations.ReservedWordByPolicy := by
  unfold Obligations.ReservedWordByPolicy
  rintro s w hl rfl hlow hrestart hread
  have hd : decodeCommand (cmdFetch s.mem s.S.cmdPtr) = .error (.reservedCommand (cmdFetch s.mem s.S.cmdPtr)) :=
    decodeCommand_of_reserved hlow (fun h => hrestart (BitVec.eq_of_toNat_eq h)) (fun h => hread (BitVec.eq_of_toNat_eq h))
  refine ⟨fun hp => ?_, fun hp => ?_⟩
  · refine ⟨(advance_of_reserved_fault (s := generateStart s) hl hd hp).trans ?_,
      fun hb => (exec_handleRxTx_of_ack hb).trans (advance_of_reserved_fault (s := readSR s) hl hd hp)⟩
    rw [(startAndLatchSequences s).1]
    rfl
  · exact ⟨advance_of_reserved_writeLowByte (s := generateStart s) hl hd hp,
      fun hb => (exec_handleRxTx_of_ack hb).trans (advance_of_reserved_writeLowByte (s := readSR s) hl hd hp)⟩

/-! ## What the commands, the framings and the ACK slot leave alone -/

/-- What stays as it is without the START condition, a store of received data, the latch pulse and a wake request: memory and its
cursor, the platform and the gate. -/
structure KeptByFraming (s t : State) : Prop where
  mem : t.mem = s.mem
  rxPtr : t.S.rxPtr = s.S.rxPtr
  platform : t.P = s.P
  gate : t.E.ge = s.E.ge

theorem keptByFraming_afterCommand (c : Command) (s : State) : KeptByFraming s (afterCommand c s) :=
  ⟨rfl, rfl, rfl, commandPorts_ge c s.E⟩

theorem keptByFraming_advance {s t : State} (h : advance s = .next t) : KeptByFraming s t := by
  obtain ⟨u, hu, hcase⟩ := advance_next s
  cases hu.symm.trans h
  rcases hcase with ⟨_, rfl⟩ | ⟨_, c, rfl⟩ | ⟨_, rfl⟩
  · exact ⟨rfl, rfl, rfl, rfl⟩
  · exact keptByFraming_afterCommand c s
  · exact ⟨rfl, rfl, rfl, rfl⟩

theorem keptByFraming_handleRxTx {s t : State} (h : exec .handleRxTx s = .next t) : KeptByFraming s t := by
  rcases execHandleRxTx_cases s with ⟨_, e⟩ | ⟨_, e⟩
  · cases e.symm.trans h
    exact ⟨rfl, rfl, rfl, rfl⟩
  · obtain ⟨hmem, hrx, hP, hge⟩ := keptByFraming_advance (e.symm.trans h)
    exact ⟨hmem, hrx, hP, hge⟩

@[simp] theorem answerReceived_ge (s : State) : (answerReceived s).E.ge = s.E.ge := by
  rcases answerReceived_cases s with ⟨_, e⟩ | ⟨_, e⟩ <;> simp [e]

/-- What `ReceivedData` leaves alone, admitted or not: every byte but the one at the cursor, the command view, the platform and the
gate (R156). -/
structure KeptByReceivedData (s t : State) : Prop where
  otherBytes : ∀ a, a ≠ s.S.rxPtr → Memory.readByte t.mem a = Memory.readByte s.mem a
  cmdPtr : t.S.cmdPtr = s.S.cmdPtr
  cmdLen : t.S.cmdLen = s.S.cmdLen
  platform : t.P = s.P
  gate : t.E.ge = s.E.ge

theorem keptByReceivedData {s t : State} (h : exec .receivedData s = .next t) : KeptByReceivedData s t := by
  rcases execReceivedData_cases s with ⟨_, e⟩ | ⟨_, e⟩
  · cases e.symm.trans h
    exact ⟨fun a ha => by simpa using Memory.readByte_writeByte_of_ne _ ha, by simp, by simp, by simp, by simp⟩
  · cases e.symm.trans h
    exact ⟨fun _ _ => rfl, rfl, rfl, rfl, rfl⟩

/-- `Stop` leaves all of the transaction but its state alone, and memory (R158). -/
theorem stop_S_mem {s t : State} (h : exec .stop s = .next t) : t.S = { s.S with state := Config.idleCode } ∧ t.mem = s.mem := by
  cases h
  exact ⟨by simp, by simp⟩

/-- Only `Start`, `ReceivedData` and `Stop` do more than a framing does; `Start` does a framing after its START condition. -/
theorem exec_framing_cases {i : Instr} {s t : State} (h : exec i s = .next t) :
    KeptByFraming s t ∨ (i = .start ∧ KeptByFraming (generateStart s) t) ∨ (i = .receivedData ∧ KeptByReceivedData s t) ∨
      (i = .stop ∧ t.S = { s.S with state := Config.idleCode } ∧ t.mem = s.mem) := by
  cases i with
  | write b => cases (execWrite_eq b s).symm.trans h; exact .inl (keptByFraming_afterCommand _ s)
  | restart => cases (execRestart_eq s).symm.trans h; exact .inl (keptByFraming_afterCommand _ s)
  | read => cases (execRead_eq s).symm.trans h; exact .inl (keptByFraming_afterCommand _ s)
  | idle => cases h; exact .inl ⟨rfl, rfl, rfl, rfl⟩
  | start => exact .inr (.inl ⟨rfl, keptByFraming_advance h⟩)
  | prepareAckNack => cases h; exact .inl ⟨rfl, rfl, rfl, rfl⟩
  | handleRxTx => exact .inl (keptByFraming_handleRxTx h)
  | receivedData => exact .inr (.inr (.inl ⟨rfl, keptByReceivedData h⟩))
  | prepareStop => cases h; exact .inl ⟨rfl, rfl, rfl, rfl⟩
  | stop => exact .inr (.inr (.inr ⟨rfl, stop_S_mem h⟩))

/-- The five handlers that do not advance leave the command view alone. -/
theorem exec_cmdView_of_no_advance {i : Instr} {s t : State} (h : exec i s = .next t)
    (hi : i = .idle ∨ i = .prepareAckNack ∨ i = .receivedData ∨ i = .prepareStop ∨ i = .stop) :
    t.S.cmdPtr = s.S.cmdPtr ∧ t.S.cmdLen = s.S.cmdLen := by
  rcases hi with rfl | rfl | rfl | rfl | rfl
  · cases h; exact ⟨rfl, rfl⟩
  · cases h; exact ⟨rfl, rfl⟩
  · exact ⟨(keptByReceivedData h).cmdPtr, (keptByReceivedData h).cmdLen⟩
  · cases h; exact ⟨rfl, rfl⟩
  · rw [(stop_S_mem h).1]; exact ⟨rfl, rfl⟩

/-- Settles O24: what no meaning changes, the command view, and the four ways to leave memory, the cursor, the wake status and the
gate alone. -/
theorem instructionFrames : Obligations.InstructionFrames := by
  unfold Obligations.InstructionFrames
  intro i s t h
  obtain ⟨u, hu, kept⟩ := exec_next i s
  cases hu.symm.trans h
  have hview := exec_cmdView_of_no_advance h
  refine ⟨⟨kept.flag, kept.gie, kept.wakeMask, kept.inited, kept.cmdRegion, kept.rxRegion, kept.host, kept.env⟩, ?_⟩
  rcases exec_framing_cases h with k | ⟨rfl, k⟩ | ⟨rfl, k⟩ | ⟨rfl, hS, hmem⟩
  · exact ⟨fun _ => ⟨k.rxPtr, fun _ => by rw [k.mem]⟩, fun _ _ _ => by rw [k.mem], fun _ => by rw [k.platform], hview, fun _ => k.gate⟩
  · exact ⟨fun _ => ⟨k.rxPtr, fun _ => by rw [k.mem]; rfl⟩, nofun, fun _ => by rw [k.platform]; rfl, hview, fun hi => absurd rfl hi.1⟩
  · exact ⟨fun hi => absurd rfl hi, fun _ => k.otherBytes, fun _ => by rw [k.platform], hview, fun _ => k.gate⟩
  · exact ⟨fun _ => ⟨by rw [hS], fun _ => by rw [hmem]⟩, nofun, fun hi => absurd rfl hi, hview, fun hi => absurd rfl hi.2⟩

end Sys2Proof.Machine
end

section
/-! SUPPORT. The handlers, each with its whole next state (42_state_machine.md R151 to R159). -/

namespace Sys2Proof.Machine

/-! ## The handlers that neither test nor advance -/

/-- Settles O13: the clear is the return's, so nothing is left for the handler to write. -/
theorem idleEffect : Obligations.IdleEffect := by
  unfold Obligations.IdleEffect
  exact fun _ => rfl

/-- The state after the ACK slot is armed (R153). -/
theorem goto_arm_drive_eq (s : State) : goto Config.handleRxTxCode (setBitCount 1 (driveLine false s)) = { s with
    S := { s.S with state := Config.handleRxTxCode }
    E := { s.E with oe := false, cnt := 1 }
    M := { s.M with trace := s.M.trace ++ [.drive false, .arm 1] } } := by
  refine state_ext ?_ ?_ ?_ ?_ ?_ ?_ ?_ <;> simp

/-- Settles O15: the state component by component. -/
theorem prepareAckNackEffect : Obligations.PrepareAckNackEffect := by
  unfold Obligations.PrepareAckNackEffect
  exact fun s => congrArg Host.Outcome.next (goto_arm_drive_eq s)

/-- The whole state after the stop framing (R135). -/
theorem stopFraming_eq (s : State) : stopFraming s = { s with
    S := { s.S with state := Config.stopCode }
    E := { s.E with oe := true, sr := 0x00#8, cnt := 1 }
    M := { s.M with trace := s.M.trace ++ [.drive true, .load 0x00#8, .arm 1] } } :=
  state_ext rfl rfl rfl (stopFraming_M s) rfl rfl rfl

/-- Settles O20: the handler is the stop framing. -/
theorem prepareStopEffect : Obligations.PrepareStopEffect := by
  unfold Obligations.PrepareStopEffect
  exact fun s => congrArg Host.Outcome.next (stopFraming_eq s)

/-- Settles O21: the mask decides whether the wake request adds to the release of the line and the latch pulse. -/
theorem stopEffect : Obligations.StopEffect := by
  unfold Obligations.StopEffect
  intro s
  have h : exec .stop s = .next (wakeHost (goto Config.idleCode (latchPulse (loadSR 0xFF#8 s)))) := rfl
  rcases wakeHost_cases (goto Config.idleCode (latchPulse (loadSR 0xFF#8 s))) with ⟨hm, e⟩ | ⟨hm, e⟩ <;> rw [h, e]
  · refine ⟨fun hne => absurd hm hne, fun _ => congrArg Host.Outcome.next (state_ext ?_ ?_ ?_ ?_ ?_ ?_ ?_)⟩ <;> simp
  · refine ⟨fun _ => congrArg Host.Outcome.next (state_ext ?_ ?_ ?_ ?_ ?_ ?_ ?_), fun h0 => absurd h0 hm⟩ <;> simp

/-! ## The handlers that advance -/

/-- Settles O14: the four START records, and then the stop framing or the command. -/
theorem startEffect : Obligations.StartEffect := by
  unfold Obligations.StartEffect
  intro s
  have command {c : Command} (hl : s.S.cmdLen ≠ 0#16) (hd : decodeCommand (cmdFetch s.mem s.S.cmdPtr) = .ok c) :
      exec .start s = .next (afterCommand c (generateStart s)) := advance_of_command (s := generateStart s) hl hd
  refine ⟨fun hl => ?_, fun b hl hd => ?_, fun hl hd => ?_, fun hl hd => ?_⟩
  · refine (advance_of_no_command (s := generateStart s) hl).trans (congrArg Host.Outcome.next ?_)
    simp [stopFraming_eq, (startAndLatchSequences s).1]
  all_goals
    rw [command hl hd, (startAndLatchSequences s).1]
    simp [afterCommand, commandTarget, commandPorts, commandRecords]

/-- On NACK, and with no command left, `HandleRxTx` does the stop framing, after its read of the shift register (R154). -/
theorem exec_handleRxTx_of_nack_or_empty {s : State} (h : s.E.sr.getLsbD 0 = true ∨ s.S.cmdLen = 0#16) :
    exec .handleRxTx s = .next (stopFraming (readSR s)) := by
  rcases execHandleRxTx_cases s with ⟨_, e⟩ | ⟨hb, e⟩
  · exact e
  · exact e.trans (advance_of_no_command (h.resolve_left fun hnack => Bool.false_ne_true (hb.symm.trans hnack)))

/-- Settles O16: the record of the read, and then the stop framing or the command. -/
theorem handleRxTxEffect : Obligations.HandleRxTxEffect := by
  unfold Obligations.HandleRxTxEffect
  intro s
  have command {c : Command} (hb : s.E.sr.getLsbD 0 = false) (hl : s.S.cmdLen ≠ 0#16)
      (hd : decodeCommand (cmdFetch s.mem s.S.cmdPtr) = .ok c) : exec .handleRxTx s = .next (afterCommand c (readSR s)) :=
    (exec_handleRxTx_of_ack hb).trans (advance_of_command (s := readSR s) hl hd)
  refine ⟨fun h => ?_, fun b hb hl hd => ?_, fun hb hl hd => ?_, fun hb hl hd => ?_⟩
  · refine (exec_handleRxTx_of_nack_or_empty h).trans (congrArg Host.Outcome.next ?_)
    simp [stopFraming_eq]
  all_goals
    rw [command hb hl hd]
    simp [afterCommand, commandTarget, commandPorts, commandRecords]

end Sys2Proof.Machine
end

section
/-! SUPPORT. What of the state the handlers' answers depend on, and the store of a received byte (42_state_machine.md R154, R156, R159). -/

namespace Sys2Proof.Machine

/-! ## The received bit is all that is tested -/

/-- Two states with the same Transaction State, memory and parameters advance alike (R131, R136). -/
theorem advance_alike {s s' : State} (hS : s'.S = s.S) (hmem : s'.mem = s.mem) (henv : s'.env = s.env) :
    (advance s = .next (stopFraming s) ∧ advance s' = .next (stopFraming s')) ∨
    (∃ c, advance s = .next (afterCommand c s) ∧ advance s' = .next (afterCommand c s')) ∨
    (∃ f, advance s = .next (raiseFault f s) ∧ advance s' = .next (raiseFault f s')) := by
  have hword : nextWord s' = nextWord s := by rw [nextWord, hS, hmem]; rfl
  by_cases hl : s.S.cmdLen = 0#16
  · exact .inl ⟨advance_of_no_command hl, advance_of_no_command (by rw [hS]; exact hl)⟩
  have hl' : s'.S.cmdLen ≠ 0#16 := by rwa [hS]
  cases hd : decodeCommand (nextWord s) with
  | ok c => exact .inr (.inl ⟨c, advance_of_command hl hd, advance_of_command hl' (hword ▸ hd)⟩)
  | error e =>
    rw [advance_of_error hl hd, advance_of_error (e := e) hl' (hword ▸ hd), reservedCommand, reservedCommand, hword, henv, hS]
    cases s.env.params.reservedPolicy with
    | fault => exact .inr (.inr ⟨_, rfl, rfl⟩)
    | writeLowByte => exact .inr (.inl ⟨_, execWrite_eq _ s, execWrite_eq _ s'⟩)

/-- The state with another byte in its shift register. -/
def withSr (v : Byte) (s : State) : State := { s with E := { s.E with sr := v } }

/-- What `HandleRxTx` answers to two states that differ in the shift register only: states that differ in the value read, in its record
and in the register where no rule loads it (R154). -/
structure DifferInTheValueRead (s : State) (v : Byte) (t u : State) : Prop where
  S : u.S = t.S
  P : u.P = t.P
  mem : u.mem = t.mem
  host : u.host = t.host
  env : u.env = t.env
  fault : u.M.fault = t.M.fault
  oe : u.E.oe = t.E.oe
  cnt : u.E.cnt = t.E.cnt
  ge : u.E.ge = t.E.ge
  flag : u.E.flag = t.E.flag
  sr : u.E.sr = t.E.sr ∨ (t.E.sr = s.E.sr ∧ u.E.sr = v)
  trace : ∃ l, t.M.trace = s.M.trace ++ Record.read s.E.sr :: l ∧ u.M.trace = s.M.trace ++ Record.read v :: l

section
variable (s : State) (v : Byte)

theorem differInTheValueRead_stopFraming :
    DifferInTheValueRead s v (stopFraming (readSR s)) (stopFraming (readSR (withSr v s))) := by
  constructor
  case sr => exact .inl rfl
  case trace => exact ⟨[.drive true, .load 0x00#8, .arm 1], by simp, by simp [withSr]⟩
  all_goals rfl

theorem differInTheValueRead_afterCommand (c : Command) :
    DifferInTheValueRead s v (afterCommand c (readSR s)) (afterCommand c (readSR (withSr v s))) := by
  constructor
  case sr => cases c with
    | write b => exact .inl rfl
    | read => exact .inr ⟨rfl, rfl⟩
    | restart => exact .inl rfl
  case trace => exact ⟨commandRecords c, by simp [afterCommand], by simp [afterCommand, withSr]⟩
  all_goals cases c <;> rfl

theorem differInTheValueRead_raiseFault (f : Fault) :
    DifferInTheValueRead s v (raiseFault f (readSR s)) (raiseFault f (readSR (withSr v s))) := by
  constructor
  case sr => exact .inr ⟨rfl, rfl⟩
  case trace => exact ⟨[], rfl, rfl⟩
  all_goals rfl

/-- With the same received bit both states do the stop framing, or both advance alike. -/
theorem exec_handleRxTx_alike (hv : v.getLsbD 0 = s.E.sr.getLsbD 0) :
    ∃ t u, exec .handleRxTx s = .next t ∧ exec .handleRxTx (withSr v s) = .next u ∧ DifferInTheValueRead s v t u := by
  cases hb : s.E.sr.getLsbD 0 with
  | true =>
    exact ⟨_, _, exec_handleRxTx_of_nack_or_empty (.inl hb), exec_handleRxTx_of_nack_or_empty (.inl (hv.trans hb)),
      differInTheValueRead_stopFraming s v⟩
  | false =>
    have hs : exec .handleRxTx s = _ := exec_handleRxTx_of_ack hb
    have hs' : exec .handleRxTx (withSr v s) = _ := exec_handleRxTx_of_ack (hv.trans hb)
    rcases advance_alike (s := readSR s) (s' := readSR (withSr v s)) rfl rfl rfl with ⟨h, h'⟩ | ⟨c, h, h'⟩ | ⟨f, h, h'⟩
    · exact ⟨_, _, hs.trans h, hs'.trans h', differInTheValueRead_stopFraming s v⟩
    · exact ⟨_, _, hs.trans h, hs'.trans h', differInTheValueRead_afterCommand s v c⟩
    · exact ⟨_, _, hs.trans h, hs'.trans h', differInTheValueRead_raiseFault s v f⟩

end

/-- Settles O17: the received bit chooses between the stop framing and an advance, and no advance reads the shift register. -/
theorem onlyTheReceivedBitDecides : Obligations.OnlyTheReceivedBitDecides := by
  unfold Obligations.OnlyTheReceivedBitDecides
  intro s v hv
  obtain ⟨t, u, ht, hu, d⟩ := exec_handleRxTx_alike s v hv
  exact ⟨t, u, ht, hu, d.S, d.P, d.mem, d.host, d.env, d.fault, d.oe, d.cnt, d.ge, d.flag, d.sr, d.trace⟩

/-! ## The received byte -/

/-- A cursor inside the buffer admits the store, which the answer follows (R156). -/
theorem exec_receivedData_of_admitted {s : State} (hin : inRxRegion s.M.rxRegion s.S.rxPtr = true) :
    exec .receivedData s = .next (answerReceived (storeReceived s.E.sr (readSR s))) := by
  rcases execReceivedData_cases s with ⟨_, e⟩ | ⟨hout, _⟩
  · exact e
  · exact absurd (hout.symm.trans hin) Bool.false_ne_true

/-- Settles O18: the store writes one byte, and the count of commands left chooses the answer. -/
theorem receivedDataStoresAndAnswers : Obligations.ReceivedDataStoresAndAnswers := by
  unfold Obligations.ReceivedDataStoresAndAnswers
  intro s r hw hr hlo hhi
  have hmem : (answerReceived (storeReceived s.E.sr (readSR s))).mem = Memory.writeByte s.mem s.S.rxPtr s.E.sr := by simp
  refine ⟨_, exec_receivedData_of_admitted ((inRxRegion_eq_true_iff _ _).2 ⟨r, hr, hlo, hhi⟩), ?_, fun a ha => ?_, ?_⟩
  · rw [hmem]
    exact Memory.readByte_writeByte_self s.S.rxPtr s.E.sr hw
  · rw [hmem]
    exact Memory.readByte_writeByte_of_ne s.E.sr ha
  rcases answerReceived_cases (storeReceived s.E.sr (readSR s)) with ⟨hl, e⟩ | ⟨hl, e⟩ <;> rw [e]
  · exact ⟨fun _ => by refine state_ext ?_ ?_ ?_ ?_ ?_ ?_ ?_ <;> simp, fun h0 => absurd h0 hl⟩
  · exact ⟨fun hne => absurd hl hne, fun _ => by refine state_ext ?_ ?_ ?_ ?_ ?_ ?_ ?_ <;> simp⟩

end Sys2Proof.Machine
end

section
/-! SUPPORT. The invocation: the handler a step runs, the clear of the flag, and what the last one leaves pending (42_state_machine.md
R150, R161, R164, R214). -/

namespace Sys2Proof.Machine

/-! ## The handler a step runs -/

/-- A taken event in a state whose code decodes runs that handler's meaning and the return (R150). -/
theorem step_of_exec {s t : State} {i : Instr} {rest : List Move} (hf : s.M.fault = none)
    (ha : s.env.agenda = .handler none :: rest) (he : eventTaken s = true) (hd : decodeState s.S.state = .ok i)
    (hx : exec i (setAgenda rest s) = .next t) : step s = .next (returnFromHandler t) := by
  rw [step_invocation hf (nextMove_cons ha) he, takeMove_cons ha, invocation, setAgenda_S, hd]
  simp only [hx, finishInvocation]

/-- The byte of a code decodes to what the code selects (R88, log 15). -/
theorem decodeState_of_decode_byte {k : StateCode} {i : Instr} (h : decode .state3 [k.setWidth 8] = .ok (i, [])) :
    decodeState k = .ok i := by
  cases hd : decodeState k with
  | ok j =>
    cases (decode_bytesOfCode hd []).symm.trans h
    rfl
  | error e =>
    have hcode : (k.setWidth 8).setWidth 3 = k := BitVec.setWidth_setWidth_of_le k (by decide)
    simp [decode, hcode, hd] at h

/-- The return as one state: the clear and its record, unless the handler raised a fault (R150, R214). -/
theorem returnFromHandler_eq_ite (t : State) : returnFromHandler t =
    if t.M.fault = none then { t with E := { t.E with flag := false }, M := { t.M with trace := t.M.trace ++ [.clear] } } else t := by
  split
  · next h => exact returnFromHandler_of_no_fault t h
  · next h => exact returnFromHandler_of_fault t h

/-- Settles O25: every meaning answers a next state, and the return after it is the clear or nothing. -/
theorem stepRunsTheSelectedHandler : Obligations.StepRunsTheSelectedHandler := by
  unfold Obligations.StepRunsTheSelectedHandler
  intro s i rest hf ha hflag hgie hdec
  obtain ⟨t, ht, _⟩ := exec_next i (setAgenda rest s)
  refine ⟨t, ht, ?_⟩
  rw [← returnFromHandler_eq_ite]
  exact step_of_exec hf ha ((eventTaken_eq_true_iff s).2 ⟨hflag, hgie⟩) (decodeState_of_decode_byte hdec) ht

/-- Settles O26: code 7 decodes to no handler. -/
theorem reservedStateRaisesBadState : Obligations.ReservedStateRaisesBadState := by
  unfold Obligations.ReservedStateRaisesBadState
  intro s rest hf ha hflag hgie hs
  have hd : decodeState (setAgenda rest s).S.state = .error (.reservedState 7#3) := by
    rw [setAgenda_S, hs]
    rfl
  rw [step_invocation hf (nextMove_cons ha) ((eventTaken_eq_true_iff s).2 ⟨hflag, hgie⟩), takeMove_cons ha, invocation, hd,
    setAgenda_S, hs]
  rfl

/-- A handler's move that takes its event raises the fault of the forbidden call, or is an invocation (R193, R220). -/
theorem step_taken_cases {s t : State} {call : Option HandlerCall} (hm : nextMove s = .handler call) (he : eventTaken s = true)
    (hst : step s = .next t) :
    s.M.fault = none ∧ ((∃ a, call = some (.send a) ∧ t = raiseFault .sendFromHandler (takeMove s)) ∨
      ∃ r, invocation (setResult r (takeMove s)) = .next t) := by
  obtain ⟨hf, ⟨_, _, hno, _⟩ | ⟨a, hm', _, ht⟩ | ⟨_, r, _, _, _, _, _, hi⟩ | ⟨_, hm', _⟩ | ⟨_, hm', _⟩ | ⟨_, hm', _⟩⟩ := step_cases hst
  · exact absurd (hno.symm.trans he) Bool.false_ne_true
  · exact ⟨hf, .inl ⟨a, Move.handler.inj (hm.symm.trans hm'), ht⟩⟩
  · exact ⟨hf, .inr ⟨r, hi⟩⟩
  all_goals cases hm.symm.trans hm'

/-! ## The clear of the flag -/

/-- An event taken between two states is acknowledged, by the clear and its record, exactly when no fault is raised (R150, R214). -/
structure AcknowledgedUnlessFault (s t : State) : Prop where
  cleared : t.M.fault = none → t.E.flag = false ∧ ∃ l, t.M.trace = s.M.trace ++ l ++ [Record.clear]
  kept : t.M.fault ≠ none → t.E.flag = true

theorem KeptByMeanings.acknowledged {s u : State} (k : KeptByMeanings s u) (hflag : s.E.flag = true) :
    AcknowledgedUnlessFault s (returnFromHandler u) := by
  by_cases hf : u.M.fault = none
  · rw [returnFromHandler_of_no_fault u hf]
    exact ⟨fun _ => ⟨rfl, k.trace.imp fun l hl => by simp [hl]⟩, fun hne => absurd hf hne⟩
  · rw [returnFromHandler_of_fault u hf]
    exact ⟨fun h => absurd h hf, fun _ => k.flag.trans hflag⟩

theorem invocation_acknowledged {s t : State} (hflag : s.E.flag = true) (h : invocation s = .next t) :
    AcknowledgedUnlessFault s t := by
  rcases invocation_cases s with ⟨i, u, _, hu, e⟩ | ⟨_, e⟩ <;> cases e.symm.trans h
  · obtain ⟨v, hv, k⟩ := exec_next i s
    cases hv.symm.trans hu
    exact k.acknowledged hflag
  · exact ⟨nofun, fun _ => hflag⟩

/-- The same of a step that takes an event, with or without a call made in handler context. -/
theorem step_handler_acknowledged {s t : State} {call : Option HandlerCall} (hm : nextMove s = .handler call) (hflag : s.E.flag = true)
    (hgie : s.P.gie = true) (hst : step s = .next t) : AcknowledgedUnlessFault s t := by
  obtain ⟨_, ⟨_, _, rfl⟩ | ⟨r, hi⟩⟩ := step_taken_cases hm ((eventTaken_eq_true_iff s).2 ⟨hflag, hgie⟩) hst
  · exact ⟨nofun, fun _ => by simpa using hflag⟩
  · have hack := invocation_acknowledged (by simpa using hflag) hi
    exact ⟨by simpa using hack.cleared, hack.kept⟩

/-- Settles O28: the case of the taken event with its move on the agenda. -/
theorem invocationAcknowledgesUnlessItFaults : Obligations.InvocationAcknowledgesUnlessItFaults := by
  unfold Obligations.InvocationAcknowledgesUnlessItFaults
  intro s t call rest ha hflag hgie hst
  have hack := step_handler_acknowledged (nextMove_cons ha) hflag hgie hst
  exact ⟨hack.cleared, hack.kept⟩

/-- Settles O55: a step lowers the bound or leaves a pending event pending, and an invocation that raises no fault clears it. -/
theorem everyInvocationLowersTheBound : Obligations.EveryInvocationLowersTheBound := by
  unfold Obligations.EveryInvocationLowersTheBound
  intro s t hactive hlegal hinited hst
  have hlow := step_lowersOrWaits hactive hlegal hinited hst
  refine ⟨hlow.le, fun call hm hflag hgie hf => ?_, hlow.lt_of_cleared⟩
  exact hlow.lt_of_cleared hflag ((step_handler_acknowledged hm hflag hgie hst).cleared hf).1

/-! ## What the `Stop` invocation leaves -/

/-- An invocation in `Stop` is the handler's and the clear (R150, R158). -/
theorem invocation_of_stop {s t : State} (hf : s.M.fault = none) (hs : s.S.state = Config.stopCode) (h : invocation s = .next t) :
    t = clearFlag (wakeHost (goto Config.idleCode (latchPulse (loadSR 0xFF#8 s)))) := by
  have hx : exec .stop s = .next (wakeHost (goto Config.idleCode (latchPulse (loadSR 0xFF#8 s)))) := rfl
  have hd : decodeState s.S.state = .ok .stop := by rw [hs]; rfl
  rw [invocation, hd] at h
  simp only [hx, finishInvocation] at h
  rw [← returnFromHandler_of_no_fault _ (by simpa using hf)]
  exact (Host.Outcome.next.inj h).symm

/-- Settles O48: in `Stop` the pending event shuts out an armed group, and the handler arms none. -/
theorem quiescenceAfterStop : Obligations.QuiescenceAfterStop := by
  unfold Obligations.QuiescenceAfterStop
  intro s t call rest hinv hs ha hsend hflag hgie hst
  obtain ⟨hf, ⟨a, hcall, _⟩ | ⟨r, hi⟩⟩ := step_taken_cases (nextMove_cons ha) ((eventTaken_eq_true_iff s).2 ⟨hflag, hgie⟩) hst
  · exact absurd hcall (hsend a)
  · have hcnt : s.E.cnt = 0 := by
      by_contra hc
      exact hinv.single hf (by rw [pastStart, hs]; decide) ⟨hflag, hc⟩
    rw [invocation_of_stop (by simpa using hf) (by simpa using hs) hi]
    simp [hcnt, hf]

end Sys2Proof.Machine
end

section
/-! SUPPORT. The acknowledge bits: the master's own, read back, and a slave's NACK with the STOP that follows it (40_peripheral.md R112,
42_state_machine.md R160, R163). -/

namespace Sys2Proof.Machine

/-! ## The master's own bit -/

theorem getLsbD_zero_and_lowBits_one (d : Byte) : (d &&& lowBits 1).getLsbD 0 = d.getLsbD 0 := by
  rw [BitVec.getLsbD_and, show (lowBits 1).getLsbD 0 = true from rfl, Bool.and_true]

/-- A driven 0 bit reads back as 0 under `wired_and` (R160). -/
theorem getLsbD_zero_sampledBits_ack (d : Byte) : (sampledBits .wiredAnd 1 true 0x00#8 d).getLsbD 0 = false :=
  getLsbD_sampledBits_of_driven_low (n := 1) (i := 0) d Nat.zero_lt_one rfl

/-- Settles O33: bit 0 of the shift register is the sampled bit, and the readback law says what a driven 0 samples as. -/
theorem masterAckReadback : Obligations.MasterAckReadback := by
  unfold Obligations.MasterAckReadback
  intro s d rest hf ha hc hoe hsr
  have hbit (b : Byte) : (completeGroup b (setAgenda rest s)).E.sr.getLsbD 0 = b.getLsbD 0 := by
    simp only [completeGroup_E, setAgenda_E, hc]
    exact getLsbD_shiftIn_one_zero s.E.sr b
  refine ⟨_, step_engine_of_armed hf ha (by rw [hc]; decide), fun hlaw => ?_, fun hlaw hd => ?_⟩
  · have hack := (hbit _).trans (getLsbD_zero_sampledBits_ack d)
    rw [hc, hoe, hsr, show s.env.params.readback = .wiredAnd from hlaw]
    exact ⟨hack, exec_handleRxTx_of_ack hack⟩
  · rw [hlaw, sampledBits_free, hc]
    exact ⟨_, exec_handleRxTx_of_nack_or_empty (.inl ((hbit _).trans ((getLsbD_zero_and_lowBits_one d).trans hd))), rfl⟩

/-! ## A slave's NACK -/

/-- A taken event whose handler raises no fault runs that handler and the clear (R150). -/
theorem step_of_exec_of_no_fault {s t : State} {i : Instr} {rest : List Move} (hf : s.M.fault = none)
    (ha : s.env.agenda = .handler none :: rest) (he : eventTaken s = true) (hd : decodeState s.S.state = .ok i)
    (hx : exec i (setAgenda rest s) = .next t) (ht : t.M.fault = none) : step s = .next (clearFlag t) := by
  rw [step_of_exec hf ha he hd hx, returnFromHandler_of_no_fault t ht]

/-- A released one-bit group whose draw is a NACK samples 1. -/
theorem step_engine_of_nack {s : State} {d : Byte} {rest : List Move} (hf : s.M.fault = none) (ha : s.env.agenda = .engine d :: rest)
    (hc : s.E.cnt = 1) (hoe : s.E.oe = false) (hd : d.getLsbD 0 = true) :
    step s = .next (completeGroup 1#8 (setAgenda rest s)) := by
  have hsample : d &&& lowBits 1 = 1#8 := by
    refine BitVec.eq_of_toNat_eq ((toNat_and_lowBits d 1).trans ?_)
    simpa [BitVec.getLsbD, Nat.testBit_zero] using hd
  rw [step_engine_of_armed hf ha (by rw [hc]; decide), hoe, sampledBits_released, hc, hsample]

/-- The invocation after a NACK prepares the STOP framing (R154). -/
theorem step_handleRxTx_of_nack {s : State} {rest : List Move} (hf : s.M.fault = none) (ha : s.env.agenda = .handler none :: rest)
    (he : eventTaken s = true) (hs : s.S.state = Config.handleRxTxCode) (hb : s.E.sr.getLsbD 0 = true) :
    step s = .next (clearFlag (stopFraming (readSR (setAgenda rest s)))) :=
  step_of_exec_of_no_fault hf ha he (by rw [hs]; rfl) (exec_handleRxTx_of_nack_or_empty (.inl hb)) (by simpa using hf)

/-- The invocation in `Stop` (R158). -/
theorem step_stop {s : State} {rest : List Move} (hf : s.M.fault = none) (ha : s.env.agenda = .handler none :: rest)
    (he : eventTaken s = true) (hs : s.S.state = Config.stopCode) :
    step s = .next (clearFlag (wakeHost (goto Config.idleCode (latchPulse (loadSR 0xFF#8 (setAgenda rest s)))))) :=
  step_of_exec_of_no_fault hf ha he (by rw [hs]; rfl) rfl (by simpa using hf)

/-- The wake request's record, if any (R158). -/
theorem wakeHost_trace (s : State) :
    (wakeHost s).M.trace = s.M.trace ++ if s.S.wakeMask = 0#16 then [] else [Record.wake s.S.wakeMask] := by
  rcases wakeHost_cases s with ⟨hm, e⟩ | ⟨hm, e⟩ <;> simp [e, hm]

/-- A sampled NACK and the invocation after it: the STOP framing is armed, and nothing is consumed or stored (R154, R163). -/
theorem run_nack {s : State} {d : Byte} {rest : List Move} (hf : s.M.fault = none) (hg : s.P.gie = true)
    (hs : s.S.state = Config.handleRxTxCode) (hc : s.E.cnt = 1) (hoe : s.E.oe = false) (hd : d.getLsbD 0 = true)
    (ha : s.env.agenda = .engine d :: .handler none :: rest) :
    ∃ u v, runFrom 2 s = .next u ∧ u.S = { s.S with state := Config.stopCode } ∧ u.mem = s.mem ∧ u.M.fault = none ∧ u.P.gie = true ∧
      u.env.agenda = rest ∧ u.E.oe = true ∧ u.E.sr = 0x00#8 ∧ u.E.cnt = 1 ∧
      u.M.trace = s.M.trace ++ [Record.group 1 false s.E.sr 1#8, .read v, .drive true, .load 0x00#8, .arm 1, .clear] := by
  have nack := step_engine_of_nack hf ha hc hoe hd
  have bit : (completeGroup 1#8 (setAgenda (.handler none :: rest) s)).E.sr.getLsbD 0 = true := by
    simp only [completeGroup_E, setAgenda_E, hc]
    exact getLsbD_shiftIn_one_zero s.E.sr 1#8
  have framing := step_handleRxTx_of_nack (s := completeGroup 1#8 (setAgenda (.handler none :: rest) s)) hf rfl
    ((eventTaken_eq_true_iff _).2 ⟨rfl, hg⟩) hs bit
  have run := (runFrom_succ_of_next 1 nack).trans (runFrom_succ_of_next 0 framing)
  refine ⟨_, shiftIn s.E.cnt s.E.sr 1#8, run, ?_⟩
  simp [hc, hoe, hf, hg]

/-- The framing's bit and the `Stop` invocation: nothing is armed or pending, and the wake request is the mask's (R158, R163). -/
theorem run_stop {s : State} {d : Byte} {rest : List Move} (hf : s.M.fault = none) (hg : s.P.gie = true)
    (hs : s.S.state = Config.stopCode) (hc : s.E.cnt ≠ 0) (ha : s.env.agenda = .engine d :: .handler none :: rest) :
    ∃ t x, runFrom 2 s = .next t ∧ t.S = { s.S with state := Config.idleCode } ∧ t.mem = s.mem ∧ t.M.fault = none ∧ t.E.cnt = 0 ∧
      t.E.flag = false ∧
      t.M.trace = s.M.trace ++ [Record.group s.E.cnt s.E.oe s.E.sr x, .load 0xFF#8, .gateOpen, .gateClose] ++
        (if s.S.wakeMask = 0#16 then [] else [Record.wake s.S.wakeMask]) ++ [Record.clear] := by
  have sent := step_engine_of_armed hf ha hc
  have stop := step_stop (s := completeGroup (sampledBits s.env.params.readback s.E.cnt s.E.oe s.E.sr d)
    (setAgenda (.handler none :: rest) s)) hf rfl ((eventTaken_eq_true_iff _).2 ⟨rfl, hg⟩) hs
  have run := (runFrom_succ_of_next 1 sent).trans (runFrom_succ_of_next 0 stop)
  refine ⟨_, sampledBits s.env.params.readback s.E.cnt s.E.oe s.E.sr d, run, by simp, by simp, by simp [hf], by simp, by simp, ?_⟩
  by_cases hm : s.S.wakeMask = 0#16 <;> simp [wakeHost_trace, hm]

/-- Settles O57: the NACK's two moves prepare the framing, and the framing's two moves end the transaction. -/
theorem nackEndsTheTransactionInTwoInvocations : Obligations.NackEndsTheTransactionInTwoInvocations := by
  unfold Obligations.NackEndsTheTransactionInTwoInvocations
  intro s d e rest hf hg hs hc hoe hd ha
  obtain ⟨u, v, hu, huS, humem, huf, hug, hua, huoe, husr, hucnt, hutrace⟩ := run_nack hf hg hs hc hoe hd ha
  obtain ⟨t, x, ht, htS, htmem, htf, htcnt, htflag, httrace⟩ := run_stop huf hug (by rw [huS]) (by rw [hucnt]; decide) hua
  refine ⟨⟨u, hu, by rw [huS]⟩, t, v, x, (runFrom_add 2 hu).trans ht, by rw [htS, huS], htmem.trans humem, htf, htcnt, htflag, ?_⟩
  rw [httrace, hutrace, huS, hucnt, huoe, husr]
  simp

end Sys2Proof.Machine
end

section
/-! SUPPORT. What a transaction without a NACK goes on from, command by command: the command view, the receive cursor and memory, and where
the commands and the receive addresses lie (20_memory.md R60 to R65, R75, 42_state_machine.md R162, R165). -/

namespace Sys2Proof.Machine

/-- Offsets from an address add up (R11). -/
theorem add_ofNat_add_ofNat (a : Addr) (i j : Nat) : a + BitVec.ofNat 16 i + BitVec.ofNat 16 j = a + BitVec.ofNat 16 (i + j) := by
  rw [BitVec.add_assoc, ← BitVec.ofNat_add]

namespace Memory

/-! ## Bytes written in turn -/

/-- Bytes written in turn, from an address on. -/
def writeBytes (m : List Host.Cell) (a : Addr) (l : List Byte) : List Host.Cell :=
  match l with
  | [] => m
  | b :: rest => writeBytes (writeByte m a b) (a + 1#16) rest

theorem readByte_writeBytes_of_outside {m : List Host.Cell} {a c : Addr} {l : List Byte}
    (h : ∀ k < l.length, c ≠ a + BitVec.ofNat 16 k) : readByte (writeBytes m a l) c = readByte m c := by
  induction l generalizing m a with
  | nil => rfl
  | cons b rest ih =>
    have hfirst : c ≠ a := by simpa using h 0 (Nat.succ_pos _)
    have hrest : ∀ k < rest.length, c ≠ a + 1#16 + BitVec.ofNat 16 k := fun k hk => by
      rw [add_ofNat_add_ofNat, Nat.add_comm]
      exact h (k + 1) (Nat.succ_lt_succ hk)
    exact (ih hrest).trans (readByte_writeByte_of_ne b hfirst)

/-- Bytes written in turn read back in turn, as long as they do not go all the way round. -/
theorem readByte_writeBytes {m : List Host.Cell} {a : Addr} {l : List Byte} {k : Nat} {b : Byte} (hw : wf m = true)
    (hlen : l.length ≤ 0x10000) (hb : l[k]? = some b) : readByte (writeBytes m a l) (a + BitVec.ofNat 16 k) = b := by
  induction l generalizing m a k with
  | nil => cases hb
  | cons c rest ih =>
    cases k with
    | zero =>
      obtain rfl : c = b := Option.some.inj hb
      rw [BitVec.add_zero]
      exact (readByte_writeBytes_of_outside fun _ => ne_next_addresses a hlen).trans (readByte_writeByte_self a c hw)
    | succ k =>
      rw [Nat.add_comm, ← add_ofNat_add_ofNat]
      exact ih (wf_writeByte a c hw) (Nat.le_of_succ_le hlen) hb

end Memory

/-- A write of a byte outside the commands leaves them in memory. -/
theorem commandsAt_writeByte {m : List Host.Cell} {p a : Addr} {b : Byte} {l : List Command}
    (h : ∀ j < 2 * l.length, p + BitVec.ofNat 16 j ≠ a) (hc : commandsAt m p l) : commandsAt (Memory.writeByte m a b) p l := by
  induction l generalizing p with
  | nil => trivial
  | cons c rest ih =>
    obtain ⟨hd, hrest⟩ := hc
    have hlo : p ≠ a := by simpa using h 0 (by simp)
    have hhi : p + 1#16 ≠ a := h 1 (by rw [List.length_cons]; omega)
    refine ⟨?_, ih (fun j hj => ?_) hrest⟩
    · rwa [cmdFetch_congr (Memory.readByte_writeByte_of_ne b hlo) (Memory.readByte_writeByte_of_ne b hhi)]
    · rw [add_ofNat_add_ofNat]
      exact h (2 + j) (by rw [List.length_cons]; omega)

/-! ## The reads of a sequence -/

theorem reads_cons_of_read {d : CommandDraws} (h : d.cmd = .read) (l : List CommandDraws) : reads (d :: l) = reads l + 1 := by
  simp [reads, h]

theorem reads_cons_of_ne_read {d : CommandDraws} (h : d.cmd ≠ .read) (l : List CommandDraws) : reads (d :: l) = reads l := by
  simp [reads, h]

theorem readBytes_cons_of_read {d : CommandDraws} (h : d.cmd = .read) (l : List CommandDraws) :
    readBytes (d :: l) = d.data :: readBytes l := by
  simp [readBytes, h]

theorem readBytes_cons_of_ne_read {d : CommandDraws} (h : d.cmd ≠ .read) (l : List CommandDraws) :
    readBytes (d :: l) = readBytes l := by
  simp [readBytes, h]

theorem length_readBytes (l : List CommandDraws) : (readBytes l).length = reads l := List.length_map _

theorem reads_le_length (l : List CommandDraws) : reads l ≤ l.length := List.length_filter_le _ _

/-! ## The front of a transaction -/

/-- What a transaction goes on from: the command view, the receive cursor with its buffer, and memory. -/
structure Front where
  cmdPtr : Addr
  cmdLen : CmdCount
  rxPtr : Addr
  rxRegion : Option RxRegion
  mem : List Host.Cell

def frontOf (s : State) : Front where
  cmdPtr := s.S.cmdPtr
  cmdLen := s.S.cmdLen
  rxPtr := s.S.rxPtr
  rxRegion := s.M.rxRegion
  mem := s.mem

/-- The front after the consumption of a command (R131). -/
def Front.consumed (v : Front) : Front := { v with cmdPtr := v.cmdPtr + 2#16, cmdLen := v.cmdLen - 1#16 }

/-- The front after the store of a received byte (R156). -/
def Front.stored (v : Front) (b : Byte) : Front := { v with rxPtr := v.rxPtr + 1#16, mem := Memory.writeByte v.mem v.rxPtr b }

/-- The front after a command's groups: a `Read` has stored the byte it sampled. -/
def Front.round (v : Front) (d : CommandDraws) : Front := if d.cmd = .read then v.consumed.stored d.data else v.consumed

theorem rounds_mem (l : List CommandDraws) (v : Front) :
    (l.foldl Front.round v).mem = Memory.writeBytes v.mem v.rxPtr (readBytes l) := by
  induction l generalizing v with
  | nil => rfl
  | cons d l ih =>
    rw [List.foldl_cons, ih]
    by_cases hr : d.cmd = .read
    · rw [Front.round, if_pos hr, readBytes_cons_of_read hr]
      rfl
    · rw [Front.round, if_neg hr, readBytes_cons_of_ne_read hr]
      rfl

theorem rounds_rxPtr (l : List CommandDraws) (v : Front) : (l.foldl Front.round v).rxPtr = v.rxPtr + BitVec.ofNat 16 (reads l) := by
  induction l generalizing v with
  | nil => exact (BitVec.add_zero _).symm
  | cons d l ih =>
    rw [List.foldl_cons, ih]
    by_cases hr : d.cmd = .read
    · rw [Front.round, if_pos hr, reads_cons_of_read hr, Nat.add_comm (reads l), ← add_ofNat_add_ofNat]
      rfl
    · rw [Front.round, if_neg hr, reads_cons_of_ne_read hr]
      rfl

/-! ## Where the commands and the receive addresses lie -/

/-- The commands of a list are the ones left, they stand in memory, and the buffer admits their reads, apart from the commands. -/
structure Layout (l : List CommandDraws) (v : Front) : Prop where
  len : v.cmdLen.toNat = l.length
  cmds : commandsAt v.mem v.cmdPtr (l.map CommandDraws.cmd)
  admitted : ∀ k < reads l, inRxRegion v.rxRegion (v.rxPtr + BitVec.ofNat 16 k) = true
  apart : ∀ j < 2 * l.length, ∀ k < reads l, v.cmdPtr + BitVec.ofNat 16 j ≠ v.rxPtr + BitVec.ofNat 16 k

/-- An installed transaction's sums do not wrap, so its regions are laid out as the sums say (R64, R65, R193). -/
theorem JustInstalled.layout {s : State} {l : List CommandDraws} (h : JustInstalled s l) : Layout l (frontOf s) := by
  obtain ⟨r, hr, hlo, hhi, htop⟩ := h.buffer
  have hfits := h.fits
  have hapart := h.apart
  simp only [Config.memSize] at hfits htop
  have hrx (k : Nat) (hk : k < reads l) : (s.S.rxPtr + BitVec.ofNat 16 k).toNat = s.S.rxPtr.toNat + k := by bv_omega
  have hcmd (j : Nat) (hj : j < 2 * l.length) : (s.S.cmdPtr + BitVec.ofNat 16 j).toNat = s.S.cmdPtr.toNat + j := by bv_omega
  refine ⟨h.len, h.cmds, fun k hk => (inRxRegion_eq_true_iff _ _).2 ⟨r, hr, ?_, ?_⟩, fun j hj k hk heq => ?_⟩
  · rw [frontOf, hrx k hk]
    omega
  · rw [frontOf, hrx k hk]
    omega
  · have := congrArg BitVec.toNat heq
    rw [frontOf, hrx k hk, hcmd j hj] at this
    omega

section
variable {l : List CommandDraws} {d : CommandDraws} {v : Front}

theorem Layout.cmdLen_ne_zero (h : Layout (d :: l) v) : v.cmdLen ≠ 0#16 :=
  BitVec.toNat_ne_iff_ne.1 (by rw [h.len]; exact Nat.succ_ne_zero _)

theorem Layout.cmdLen_eq_zero (h : Layout [] v) : v.cmdLen = 0#16 := BitVec.eq_of_toNat_eq h.len

theorem Layout.consumed_len (h : Layout (d :: l) v) : v.consumed.cmdLen.toNat = l.length := by
  have hlen := h.len
  rw [List.length_cons] at hlen
  rw [Front.consumed]
  bv_omega

theorem Layout.consumed_cmdLen_eq_zero_iff (h : Layout (d :: l) v) : v.consumed.cmdLen = 0#16 ↔ l = [] := by
  rw [← List.length_eq_zero_iff, ← h.consumed_len]
  exact BitVec.toNat_inj.symm

theorem Layout.consumed_apart (h : Layout (d :: l) v) {j k : Nat} (hj : j < 2 * l.length) (hk : k < reads (d :: l)) :
    v.consumed.cmdPtr + BitVec.ofNat 16 j ≠ v.rxPtr + BitVec.ofNat 16 k := by
  rw [Front.consumed, add_ofNat_add_ofNat]
  exact h.apart (2 + j) (by rw [List.length_cons]; omega) k hk

/-- What is left after a command's groups is laid out as before: a `Read`'s byte goes where no command stands. -/
theorem Layout.round (h : Layout (d :: l) v) : Layout l (v.round d) := by
  by_cases hr : d.cmd = .read
  · have hreads := reads_cons_of_read hr l
    rw [Front.round, if_pos hr]
    refine ⟨h.consumed_len, commandsAt_writeByte (fun j hj => ?_) h.cmds.2, fun k hk => ?_, fun j hj k hk => ?_⟩
    · have hne := h.consumed_apart (j := j) (k := 0) (by simpa using hj) (by omega)
      rwa [BitVec.add_zero] at hne
    · rw [Front.stored, add_ofNat_add_ofNat]
      exact h.admitted (1 + k) (by omega)
    · rw [Front.stored, add_ofNat_add_ofNat]
      exact h.consumed_apart hj (by omega)
  · have hreads := reads_cons_of_ne_read hr l
    rw [Front.round, if_neg hr]
    exact ⟨h.consumed_len, h.cmds.2, fun k hk => h.admitted k (by omega), fun j hj k hk => h.consumed_apart hj (by omega)⟩

end

theorem Layout.rounds {l : List CommandDraws} {v : Front} (h : Layout l v) : Layout [] (l.foldl Front.round v) := by
  induction l generalizing v with
  | nil => exact h
  | cons d l ih => exact ih h.round

end Sys2Proof.Machine
end

section
/-! SUPPORT. The run of a transaction without a NACK: engine completions and invocations in turn, command by command, until `Idle`
(42_state_machine.md R152 to R158, R162). -/

namespace Sys2Proof.Machine

/-! ## Active runs -/

/-- A run of `k` steps from active states; the state it comes to may be any. -/
structure ActiveRun (k : Nat) (s t : State) : Prop where
  reaches : runFrom k s = .next t
  active : ∀ j < k, ∃ u, runFrom j s = .next u ∧ u.S.state ≠ Config.idleCode

theorem ActiveRun.refl (s : State) : ActiveRun 0 s s := ⟨rfl, nofun⟩

theorem ActiveRun.trans {j k : Nat} {s t u : State} (h : ActiveRun j s t) (g : ActiveRun k t u) : ActiveRun (j + k) s u where
  reaches := (runFrom_add k h.reaches).trans g.reaches
  active i hi := by
    by_cases hij : i < j
    · exact h.active i hij
    · obtain ⟨n, rfl⟩ := Nat.exists_eq_add_of_le (Nat.le_of_not_lt hij)
      obtain ⟨w, hw, hactive⟩ := g.active n (Nat.lt_of_add_lt_add_left hi)
      exact ⟨w, (runFrom_add n h.reaches).trans hw, hactive⟩

/-- A step from an active state goes on an active run. -/
theorem ActiveRun.after {k : Nat} {s t u : State} (h : ActiveRun k t u) (ha : s.S.state ≠ Config.idleCode) (hst : step s = .next t) :
    ActiveRun (k + 1) s u := by
  have one : ActiveRun 1 s t := ⟨runFrom_succ_of_next 0 hst, fun i hi => ⟨s, by rw [Nat.lt_one_iff.1 hi]; rfl, ha⟩⟩
  rw [Nat.add_comm]
  exact one.trans h

/-! ## One move at a time -/

/-- A state of the schedule: no fault and interrupts enabled, a protocol state, what the transaction goes on from, and the moves to
come. -/
structure OnSchedule (code : StateCode) (v : Front) (ms : List Move) (s : State) : Prop where
  noFault : s.M.fault = none
  gie : s.P.gie = true
  state : s.S.state = code
  front : frontOf s = v
  agenda : s.env.agenda = ms

/-- The same with an event pending and the handler's move the next. -/
structure Pending (code : StateCode) (v : Front) (ms : List Move) (s : State) : Prop extends
    OnSchedule code v (.handler none :: ms) s where
  flag : s.E.flag = true

section
variable {code : StateCode} {v : Front} {ms : List Move} {s : State}

/-- The engine's move completes the armed group, and the event is pending (R111). -/
theorem OnSchedule.engine {d : Byte} (h : OnSchedule code v (.engine d :: .handler none :: ms) s) (hc : s.E.cnt ≠ 0) :
    ∃ t, step s = .next t ∧ Pending code v ms t ∧
      t.E.sr = shiftIn s.E.cnt s.E.sr (sampledBits s.env.params.readback s.E.cnt s.E.oe s.E.sr d) :=
  ⟨_, step_engine_of_armed h.noFault h.agenda hc, ⟨⟨h.noFault, h.gie, h.state, h.front, rfl⟩, rfl⟩, rfl⟩

theorem Pending.eventTaken (h : Pending code v ms s) : eventTaken s = true := (eventTaken_eq_true_iff s).2 ⟨h.flag, h.gie⟩

/-- The handler's move runs the meaning the state selects, and the clear (R150). -/
theorem Pending.step {i : Instr} {t : State} (h : Pending code v ms s) (hd : decodeState code = .ok i)
    (hx : exec i (setAgenda ms s) = .next t) (ht : t.M.fault = none) : Machine.step s = .next (clearFlag t) :=
  step_of_exec_of_no_fault h.noFault h.agenda h.eventTaken (by rw [h.state]; exact hd) hx ht

/-- After a byte is sent, the slave's slot is armed (R153). -/
theorem Pending.prepareAckNack (h : Pending Config.prepareAckNackCode v ms s) :
    ∃ t, Machine.step s = .next t ∧ OnSchedule Config.handleRxTxCode v ms t ∧ t.E.cnt = 1 :=
  ⟨_, h.step (i := .prepareAckNack) rfl rfl h.noFault, ⟨h.noFault, h.gie, rfl, h.front, rfl⟩, rfl⟩

/-- A received byte is stored, and answered by ACK while commands are left, else by NACK (R156, R159). -/
theorem Pending.receivedData (h : Pending Config.receivedDataCode v ms s) (hin : inRxRegion v.rxRegion v.rxPtr = true) :
    ∃ t, Machine.step s = .next t ∧ t.E.cnt = 1 ∧
      OnSchedule (if v.cmdLen = 0#16 then Config.prepareStopCode else Config.handleRxTxCode) (v.stored s.E.sr) ms t := by
  obtain rfl := h.front
  have hst := step_receivedData h.noFault h.agenda h.eventTaken h.state hin
  rcases answerReceived_cases (storeReceived s.E.sr (readSR (setAgenda ms s))) with ⟨hl, e⟩ | ⟨hl, e⟩
  all_goals
    rw [e] at hst
    refine ⟨_, hst, rfl, by simpa using h.noFault, by simpa using h.gie, ?_, ?_, rfl⟩
  · exact (if_neg hl).symm
  · simp [frontOf, Front.stored]
  · exact (if_pos hl).symm
  · simp [frontOf, Front.stored]

/-- `Stop` goes to `Idle` (R158). -/
theorem Pending.stop (h : Pending Config.stopCode v ms s) : ∃ t, Machine.step s = .next t ∧ OnSchedule Config.idleCode v ms t :=
  have kept := kept_wakeHost (goto Config.idleCode (latchPulse (loadSR 0xFF#8 (setAgenda ms s))))
  ⟨_, step_stop h.noFault h.agenda h.eventTaken h.state, by simpa using h.noFault, kept.gie.trans h.gie, by simp,
    by simpa [frontOf, kept.rxRegion] using h.front, by simp⟩

/-! ## The invocations that advance -/

/-- The pending invocation advances: it is `Start`'s, or follows a sampled ACK, or is the STOP framing's with no command left. -/
structure AtAdvance (v : Front) (ms : List Move) (s : State) : Prop where
  pending : Pending s.S.state v ms s
  advances : s.S.state = Config.startCode ∨ (s.S.state = Config.handleRxTxCode ∧ s.E.sr.getLsbD 0 = false) ∨
    (s.S.state = Config.prepareStopCode ∧ v.cmdLen = 0#16)

theorem Pending.atAdvance (h : Pending code v ms s) (ha : code = Config.startCode ∨
    (code = Config.handleRxTxCode ∧ s.E.sr.getLsbD 0 = false) ∨ (code = Config.prepareStopCode ∧ v.cmdLen = 0#16)) :
    AtAdvance v ms s := by
  obtain rfl := h.state
  exact ⟨h, ha⟩

theorem AtAdvance.active (h : AtAdvance v ms s) : s.S.state ≠ Config.idleCode := by
  rcases h.advances with hs | ⟨hs, _⟩ | ⟨hs, _⟩ <;> rw [hs] <;> decide

/-- What such an invocation's handler does before its advance changes nothing the transaction goes on from (R152, R154, R157). -/
theorem AtAdvance.exec_eq_advance (h : AtAdvance v ms s) :
    ∃ i u, decodeState s.S.state = .ok i ∧ exec i (setAgenda ms s) = advance u ∧ OnSchedule s.S.state v ms u := by
  obtain ⟨⟨⟨hf, hg, _, hfront, _⟩, _⟩, hs | ⟨hs, hb⟩ | ⟨hs, hl⟩⟩ := h <;> rw [hs]
  · exact ⟨.start, generateStart (setAgenda ms s), rfl, rfl, by simpa using hf, hg, hs, by simpa [frontOf] using hfront, rfl⟩
  · exact ⟨.handleRxTx, readSR (setAgenda ms s), rfl, exec_handleRxTx_of_ack hb, hf, hg, hs, hfront, rfl⟩
  · refine ⟨.prepareStop, setAgenda ms s, rfl, (advance_of_no_command ?_).symm, hf, hg, hs, hfront, rfl⟩
    rwa [← hfront] at hl

/-- With no command left the advance is the STOP framing (R131, R135). -/
theorem AtAdvance.stopFraming (h : AtAdvance v ms s) (hl : v.cmdLen = 0#16) :
    ∃ t, Machine.step s = .next t ∧ OnSchedule Config.stopCode v ms t ∧ t.E.cnt = 1 := by
  obtain ⟨i, u, hd, hx, hu⟩ := h.exec_eq_advance
  have hstop : advance u = .next (Machine.stopFraming u) := advance_of_no_command (by rwa [← hu.front] at hl)
  exact ⟨_, h.pending.step hd (hx.trans hstop) (by simpa using hu.noFault),
    ⟨by simpa using hu.noFault, hu.gie, rfl, hu.front, hu.agenda⟩, rfl⟩

/-- With a command left the advance consumes it, and arms its group (R131 to R134). -/
theorem AtAdvance.command {c : Command} (h : AtAdvance v ms s) (hl : v.cmdLen ≠ 0#16)
    (hc : decodeCommand (cmdFetch v.mem v.cmdPtr) = .ok c) :
    ∃ t e, Machine.step s = .next t ∧ OnSchedule (commandTarget c) v.consumed ms t ∧ t.E = { commandPorts c e with flag := false } := by
  obtain ⟨i, u, hd, hx, hu⟩ := h.exec_eq_advance
  obtain rfl := hu.front
  have hcmd : advance u = .next (afterCommand c u) := advance_of_command hl hc
  exact ⟨_, u.E, h.pending.step hd (hx.trans hcmd) hu.noFault, ⟨hu.noFault, hu.gie, rfl, rfl, hu.agenda⟩, rfl⟩

/-! ## The tested slots -/

/-- A bit that is low in the draw is sampled low, under either law (R112). -/
theorem getLsbD_sampledBits_of_draw_low {law : Readback} {n : BitCount} {oe : Bool} {sr0 d : Byte} {i : Nat} (h : d.getLsbD i = false) :
    (sampledBits law n oe sr0 d).getLsbD i = false := by
  cases law with
  | free => rw [sampledBits_free, BitVec.getLsbD_and, h, Bool.false_and]
  | wiredAnd =>
    cases oe with
    | false => rw [sampledBits_released, BitVec.getLsbD_and, h, Bool.false_and]
    | true => rw [sampledBits_wiredAnd_driven, BitVec.getLsbD_and, BitVec.getLsbD_and, h, Bool.false_and, Bool.false_and]

/-- A tested slot that samples 0 is an ACK. -/
theorem OnSchedule.ackSlot {slot : Byte} (h : OnSchedule Config.handleRxTxCode v (.engine (slot &&& 0xFE#8) :: .handler none :: ms) s)
    (hc : s.E.cnt = 1) : ∃ t, Machine.step s = .next t ∧ AtAdvance v ms t := by
  obtain ⟨t, ht, hpend, hsr⟩ := h.engine (by rw [hc]; decide)
  have hlow : (slot &&& 0xFE#8).getLsbD 0 = false := by rw [BitVec.getLsbD_and]; exact Bool.and_false _
  refine ⟨t, ht, hpend.atAdvance (.inr (.inl ⟨rfl, ?_⟩))⟩
  rw [hsr, hc]
  exact (getLsbD_shiftIn_one_zero _ _).trans (getLsbD_sampledBits_of_draw_low hlow)

/-- The slot after a received byte: tested while commands are left, and followed by the STOP framing after the last one (R159). -/
theorem OnSchedule.answerSlot {l : List CommandDraws} {slot : Byte} (hl : v.cmdLen = 0#16 ↔ l = []) (hc : s.E.cnt = 1)
    (h : OnSchedule (if v.cmdLen = 0#16 then Config.prepareStopCode else Config.handleRxTxCode) v
      (.engine (if l = [] then slot else slot &&& 0xFE#8) :: .handler none :: ms) s) :
    ∃ t, Machine.step s = .next t ∧ AtAdvance v ms t := by
  by_cases hlast : l = []
  · rw [if_pos (hl.2 hlast)] at h
    obtain ⟨t, ht, hpend, _⟩ := h.engine (by rw [hc]; decide)
    exact ⟨t, ht, hpend.atAdvance (.inr (.inr ⟨rfl, hl.2 hlast⟩))⟩
  · rw [if_neg (hlast ∘ hl.1), if_neg hlast] at h
    exact h.ackSlot hc

/-! ## The rounds of the commands -/

theorem OnSchedule.active (h : OnSchedule code v ms s) (hc : code ≠ Config.idleCode) : s.S.state ≠ Config.idleCode := by
  rwa [h.state]

theorem commandTarget_ne_idle (c : Command) : commandTarget c ≠ Config.idleCode := by
  cases c with
  | write b => exact (by decide : Config.prepareAckNackCode ≠ Config.idleCode)
  | read => exact (by decide : Config.receivedDataCode ≠ Config.idleCode)
  | restart => exact (by decide : Config.startCode ≠ Config.idleCode)

/-- A `Write`: its byte, and its slot (R132, R153). -/
theorem AtAdvance.write_round {b data slot : Byte} (hl : v.cmdLen ≠ 0#16) (hc : decodeCommand (cmdFetch v.mem v.cmdPtr) = .ok (.write b))
    (h : AtAdvance v (.engine data :: .handler none :: .engine (slot &&& 0xFE#8) :: .handler none :: ms) s) :
    ∃ t, ActiveRun 4 s t ∧ AtAdvance v.consumed ms t := by
  obtain ⟨s1, e, h1, on1, hE⟩ := h.command hl hc
  have ha := commandTarget_ne_idle (.write b)
  obtain ⟨s2, h2, pend2, _⟩ := on1.engine (by rw [hE]; exact (by decide : (8 : BitCount) ≠ 0))
  obtain ⟨s3, h3, on3, hcnt⟩ := Pending.prepareAckNack pend2
  obtain ⟨s4, h4, adv4⟩ := on3.ackSlot hcnt
  exact ⟨s4, ((((ActiveRun.refl s4).after (on3.active (by decide)) h4).after (pend2.active ha) h3).after (on1.active ha) h2).after
    h.active h1, adv4⟩

/-- A `Restart`: its dummy bit, and `Start` again (R134). -/
theorem AtAdvance.restart_round {data : Byte} (hl : v.cmdLen ≠ 0#16) (hc : decodeCommand (cmdFetch v.mem v.cmdPtr) = .ok .restart)
    (h : AtAdvance v (.engine data :: .handler none :: ms) s) : ∃ t, ActiveRun 2 s t ∧ AtAdvance v.consumed ms t := by
  obtain ⟨s1, e, h1, on1, hE⟩ := h.command hl hc
  obtain ⟨s2, h2, pend2, _⟩ := on1.engine (by rw [hE]; exact (by decide : (1 : BitCount) ≠ 0))
  exact ⟨s2, ((ActiveRun.refl s2).after (on1.active (commandTarget_ne_idle .restart)) h2).after h.active h1, pend2.atAdvance (.inl rfl)⟩

/-- A `Read`: its byte, which is stored, and the master's slot (R133, R156). -/
theorem AtAdvance.read_round {l : List CommandDraws} {data slot : Byte} (hl : v.cmdLen ≠ 0#16)
    (hc : decodeCommand (cmdFetch v.mem v.cmdPtr) = .ok .read) (hin : inRxRegion v.rxRegion v.rxPtr = true)
    (hlast : v.consumed.cmdLen = 0#16 ↔ l = [])
    (h : AtAdvance v (.engine data :: .handler none :: .engine (if l = [] then slot else slot &&& 0xFE#8) :: .handler none :: ms) s) :
    ∃ t, ActiveRun 4 s t ∧ AtAdvance (v.consumed.stored data) ms t := by
  obtain ⟨s1, e, h1, on1, hE⟩ := h.command hl hc
  have ha := commandTarget_ne_idle .read
  obtain ⟨s2, h2, pend2, hsr⟩ := on1.engine (by rw [hE]; exact (by decide : (8 : BitCount) ≠ 0))
  have hbyte : s2.E.sr = data := by
    rw [hsr, hE]
    exact (shiftIn_eight _ _).trans ((sampledBits_released ..).trans (and_lowBits_eight data))
  obtain ⟨s3, h3, hcnt, on3⟩ := Pending.receivedData pend2 hin
  rw [hbyte] at on3
  obtain ⟨s4, h4, adv4⟩ := OnSchedule.answerSlot (v := v.consumed.stored data) hlast hcnt on3
  have ha3 : s3.S.state ≠ Config.idleCode := on3.active (by split <;> decide)
  exact ⟨s4, ((((ActiveRun.refl s4).after ha3 h4).after (pend2.active ha) h3).after (on1.active ha) h2).after h.active h1, adv4⟩

/-- The STOP framing's bit and `Stop`, once no command is left (R135, R158). -/
theorem AtAdvance.last_round {framing : Byte} (hl : v.cmdLen = 0#16) (h : AtAdvance v (.engine framing :: .handler none :: ms) s) :
    ∃ t, ActiveRun 3 s t ∧ OnSchedule Config.idleCode v ms t := by
  obtain ⟨s1, h1, on1, hcnt⟩ := h.stopFraming hl
  obtain ⟨s2, h2, pend2, _⟩ := on1.engine (by rw [hcnt]; decide)
  obtain ⟨s3, h3, on3⟩ := pend2.stop
  exact ⟨s3, (((ActiveRun.refl s3).after (pend2.active (by decide)) h3).after (on1.active (by decide)) h2).after h.active h1, on3⟩

end

/-! ## The whole run -/

/-- The moves of one command's groups in a schedule without a NACK, with the commands after it. -/
def roundMoves (d : CommandDraws) (l : List CommandDraws) : List Move :=
  match d.cmd with
  | .write _ => [.engine d.data, .handler none, .engine (d.slot &&& 0xFE#8), .handler none]
  | .read => [.engine d.data, .handler none, .engine (if l = [] then d.slot else d.slot &&& 0xFE#8), .handler none]
  | .restart => [.engine d.data, .handler none]

theorem ackedMoves_cons (d : CommandDraws) (l : List CommandDraws) (framing : Byte) :
    ackedMoves (d :: l) framing = roundMoves d l ++ ackedMoves l framing := by
  obtain ⟨c, data, slot⟩ := d
  cases c <;> rfl

/-- A command's groups are an active run to the next advance. -/
theorem AtAdvance.round {d : CommandDraws} {l : List CommandDraws} {v : Front} {ms : List Move} {s : State} (hl : Layout (d :: l) v)
    (h : AtAdvance v (roundMoves d l ++ ms) s) : ∃ t, ActiveRun (roundMoves d l).length s t ∧ AtAdvance (v.round d) ms t := by
  have hne := hl.cmdLen_ne_zero
  have hc := hl.cmds.1
  obtain ⟨c, data, slot⟩ := d
  cases c with
  | write b => exact h.write_round hne hc
  | read =>
    have hin : inRxRegion v.rxRegion v.rxPtr = true := by
      have := hl.admitted 0 (by rw [reads_cons_of_read rfl]; exact Nat.succ_pos _)
      rwa [BitVec.add_zero] at this
    exact h.read_round hne hc hin hl.consumed_cmdLen_eq_zero_iff
  | restart => exact h.restart_round hne hc

/-- Command by command, the run is active until it comes to `Idle`. -/
theorem AtAdvance.run {l : List CommandDraws} {v : Front} {framing : Byte} {ms : List Move} {s : State} (hl : Layout l v)
    (h : AtAdvance v (ackedMoves l framing ++ ms) s) :
    ∃ t, ActiveRun (1 + (ackedMoves l framing).length) s t ∧ OnSchedule Config.idleCode (l.foldl Front.round v) ms t := by
  induction l generalizing v s with
  | nil => exact h.last_round hl.cmdLen_eq_zero
  | cons d l ih =>
    rw [ackedMoves_cons, List.append_assoc] at h
    obtain ⟨u, hu, hadv⟩ := h.round hl
    obtain ⟨t, ht, hend⟩ := ih hl.round hadv
    refine ⟨t, ?_, hend⟩
    rw [ackedMoves_cons, List.length_append, Nat.add_left_comm]
    exact hu.trans ht

theorem JustInstalled.atAdvance {s : State} {l : List CommandDraws} {ms : List Move} (h : JustInstalled s l)
    (ha : s.env.agenda = .handler none :: ms) : AtAdvance (frontOf s) ms s :=
  ⟨⟨⟨h.noFault, h.gie, rfl, rfl, ha⟩, h.flag⟩, .inl h.start⟩

/-! ## The count of invocations -/

theorem handlerMoves_append (l m : List Move) : handlerMoves (l ++ m) = handlerMoves l + handlerMoves m := by
  simp [handlerMoves]

/-- Two invocations for a byte and its slot, one for a dummy bit, and `Stop`'s (R162). -/
theorem handlerMoves_ackedMoves (l : List CommandDraws) (framing : Byte) :
    handlerMoves (ackedMoves l framing) = 1 + 2 * writes l + 2 * reads l + restarts l := by
  induction l with
  | nil => rfl
  | cons d l ih =>
    rw [ackedMoves_cons, handlerMoves_append, ih]
    obtain ⟨c, data, slot⟩ := d
    cases c <;> simp [roundMoves, handlerMoves, writes, reads, restarts] <;> omega

/-- Settles O56: the run goes on command by command from the installed state, and its front at the end is the fold of the commands. -/
theorem ackedTransactionTakesTheCountedInvocations : Obligations.AckedTransactionTakesTheCountedInvocations := by
  unfold Obligations.AckedTransactionTakesTheCountedInvocations
  intro s l framing rest h ha
  have hlayout := h.layout
  obtain ⟨t, hrun, hend⟩ := (h.atAdvance ha).run hlayout
  have hmem : t.mem = Memory.writeBytes s.mem s.S.rxPtr (readBytes l) := (congrArg Front.mem hend.front).trans (rounds_mem l (frontOf s))
  have hlen : l.length < 0x10000 := h.len ▸ s.S.cmdLen.isLt
  refine ⟨?_, fun k hk => hrun.active k (by omega), t, hrun.reaches, hend.state, hend.noFault, ?_, ?_, hend.agenda, ?_, ?_⟩
  · rw [← List.singleton_append, handlerMoves_append, handlerMoves_ackedMoves, show handlerMoves [.handler none] = 1 from rfl]
    omega
  · exact (congrArg Front.cmdLen hend.front).trans hlayout.rounds.cmdLen_eq_zero
  · exact (congrArg Front.rxPtr hend.front).trans (rounds_rxPtr l (frontOf s))
  · intro hw k b hb
    rw [hmem]
    have := reads_le_length l
    exact Memory.readByte_writeBytes hw (by rw [length_readBytes]; omega) hb
  · intro a houtside
    rw [hmem]
    exact Memory.readByte_writeBytes_of_outside (by rwa [length_readBytes])

end Sys2Proof.Machine
end

section
/-! SUPPORT. The Transaction Controller: `init`, the call, the hold and the install of `send_sequence`, and `done()`
(43_transaction_controller.md R190 to R196). -/

namespace Sys2Proof.Machine

/-! ## The hold (R194, R195) -/

/-- In a transaction an iteration of the busy-wait does nothing (R194). -/
theorem spinOnce_of_active {s : State} (ha : s.S.state ≠ Config.idleCode) : spinOnce s = s :=
  (spinOnce_cases s).resolve_right fun ⟨hidle, _⟩ => ha hidle

/-- A host that holds in a transaction writes nothing: it only spins, and the spin waits (R195). -/
theorem hostStep_of_holds_of_active {s : State} (op : HostOp) (hp : s.host.pending ≠ none) (ha : s.S.state ≠ Config.idleCode) :
    hostStep op s = s := by
  rcases hostStep_cases op s with ⟨_, e⟩ | ⟨hcan, e⟩
  · exact e
  · have hspin : op = .spin := by
      by_contra ho
      exact absurd hcan (by simp [hostCanRun_of_holds hp ho])
    rw [e, hspin]
    exact spinOnce_of_active ha

/-- Settles O38: the host's move leaves the state as it is, but for the schedule. -/
theorem heldHostWritesNothing : Obligations.HeldHostWritesNothing := by
  unfold Obligations.HeldHostWritesNothing
  intro s op rest hf ha hp hactive
  rw [step_host hf (nextMove_cons ha), takeMove_cons ha]
  exact congrArg Host.Outcome.next (hostStep_of_holds_of_active op hp hactive)

/-! ## The hold with interrupts off (R194, R254) -/

@[simp] theorem engineStep_P (d : Byte) (s : State) : (engineStep d s).P = s.P := by
  rcases engineStep_cases d s with ⟨_, e⟩ | ⟨_, e⟩ <;> simp [e]

@[simp] theorem engineStep_host (d : Byte) (s : State) : (engineStep d s).host = s.host := by
  rcases engineStep_cases d s with ⟨_, e⟩ | ⟨_, e⟩ <;> simp [e]

/-- A host stays stuck, with the Transaction State as it is, where that, the platform and the host are left alone. -/
theorem StuckHold.stays_of_eq {s t : State} (h : StuckHold s) (hS : t.S = s.S) (hP : t.P = s.P) (hhost : t.host = s.host) :
    StuckHold t ∧ t.S = s.S := by
  simpa [StuckHold, hS, hP, hhost] using h

theorem eventTaken_of_gie_off {s : State} (h : s.P.gie = false) : eventTaken s = false := by
  simp [eventTaken, h]

/-- Settles O59: no event is taken, the engine reaches none of the three, and the held host waits. -/
theorem holdWithInterruptsOffNeverEnds : Obligations.HoldWithInterruptsOffNeverEnds := by
  unfold Obligations.HoldWithInterruptsOffNeverEnds
  intro s t hstuck hst hpow
  have ⟨hp, hgie, hactive⟩ := hstuck
  have hno := eventTaken_of_gie_off hgie
  obtain ⟨_, ⟨_, _, _, rfl⟩ | ⟨_, _, he, _⟩ | ⟨_, _, _, _, he, _⟩ | ⟨d, _, rfl⟩ | ⟨op, _, rfl⟩ | ⟨d, hm, _⟩⟩ := step_cases hst
  · exact hstuck.stays_of_eq (by simp) (by simp) (by simp)
  · exact absurd (hno.symm.trans he) Bool.false_ne_true
  · exact absurd (hno.symm.trans he) Bool.false_ne_true
  · exact hstuck.stays_of_eq (by simp) (by simp) (by simp)
  · rw [hostStep_of_holds_of_active op (by simpa using hp) (by simpa using hactive)]
    exact hstuck.stays_of_eq (by simp) (by simp) (by simp)
  · exact absurd hm (hpow d)

/-! ## `init` (R190, R191) -/

theorem hostInit_of_inited {s : State} (div src : Nat) (d : EngineDraw) (h : s.M.inited = true) :
    hostInit div src d s = raiseFault .initTwice s := by
  simp [hostInit, h]

theorem hostInit_of_not_inited {s : State} (div src : Nat) (d : EngineDraw) (h : s.M.inited = false) :
    hostInit div src d s = afterInit div src d s := by
  rcases hostInit_cases div src d s with ⟨hi, _⟩ | ⟨_, e⟩
  · exact absurd (h.symm.trans hi) Bool.false_ne_true
  · exact e

/-- Settles O34: a free host's `init` runs, and `inited` says which of the two it is. -/
theorem initEffect : Obligations.InitEffect := by
  unfold Obligations.InitEffect
  intro s div src d rest hf ha hp hz
  rw [step_host_of_canRun hf ha (hostFree_eq hp hz), hostEffect]
  exact ⟨fun hi => congrArg Host.Outcome.next (hostInit_of_not_inited div src d hi),
    fun hi => congrArg Host.Outcome.next (hostInit_of_inited div src d hi)⟩

/-! ## The call step (R192, R193) -/

theorem callSend_normal_of_inited {s : State} (a : SendArgs) (h : s.M.inited = true) :
    callSend a .normal s = setPending (some a) s := if_pos h

theorem callSend_normal_of_not_inited {s : State} (a : SendArgs) (h : s.M.inited = false) :
    callSend a .normal s = raiseFault .notInitialised s := if_neg (by simp [h])

/-- Settles O35: handler context is refused before anything else is looked at, and normal context asks for `init`. -/
theorem sendCallChecks : Obligations.SendCallChecks := by
  unfold Obligations.SendCallChecks
  intro s a rest hf
  refine ⟨fun ha hflag hgie => ?_, fun ha hp hz => ?_⟩
  · rw [step_handler hf (nextMove_cons ha) ((eventTaken_eq_true_iff s).2 ⟨hflag, hgie⟩), takeMove_cons ha,
      runHandlerContext_send]
    rfl
  · rw [step_host_of_canRun hf ha (hostFree_eq hp hz), hostEffect]
    exact ⟨fun hi => congrArg Host.Outcome.next (callSend_normal_of_not_inited a hi),
      fun hi => congrArg Host.Outcome.next (callSend_normal_of_inited a hi)⟩

/-! ## The install step (R193, R194) -/

theorem spinOnce_of_idle {s : State} {a : SendArgs} (hp : s.host.pending = some a) (hidle : s.S.state = Config.idleCode) :
    spinOnce s = install a s := by
  simp [spinOnce, hp, (isIdle_eq_true_iff s).2 hidle]

/-- A host that holds and does not sleep spins (R194, R221). -/
theorem hostCanRun_spin {s : State} {a : SendArgs} (hp : s.host.pending = some a)
    (hz : s.P.wakeStatus &&& s.env.params.sleepBits = 0#16) : hostCanRun .spin s = true := by
  simp [hostCanRun, hostHolds, hp, hostAsleep, hz]

/-- The spin of a held call in `Idle` is the install step (R193, R194). -/
theorem step_spin_of_idle {s : State} {a : SendArgs} {rest : List Move} (hf : s.M.fault = none)
    (ha : s.env.agenda = .host .spin :: rest) (hp : s.host.pending = some a)
    (hz : s.P.wakeStatus &&& s.env.params.sleepBits = 0#16) (hidle : s.S.state = Config.idleCode) :
    step s = .next (install a (setAgenda rest s)) := by
  rw [step_host_of_canRun hf ha (hostCanRun_spin hp hz), hostEffect]
  exact congrArg Host.Outcome.next (spinOnce_of_idle hp hidle)

theorem install_of_fault {a : SendArgs} {f : Fault} (h : installFault a = some f) (s : State) :
    install a s = raiseFault f s := by
  simp [install, h]

theorem install_of_no_fault {a : SendArgs} (h : installFault a = none) (s : State) : install a s = afterInstall a s := by
  rcases install_cases a s with ⟨_, hf, _⟩ | ⟨_, e⟩
  · cases h.symm.trans hf
  · exact e

/-- Settles O36: none of the three checks fails. -/
theorem sendInstallEffect : Obligations.SendInstallEffect := by
  unfold Obligations.SendInstallEffect
  intro s a rest hf ha hp hz hidle heven hcmd hrx
  rw [step_spin_of_idle hf ha hp hz hidle, install_of_no_fault (installFault_none_iff.2 ⟨heven, hcmd, hrx⟩)]
  rfl

/-- Settles O37: the install raises the first failing check's fault. -/
theorem sendInstallFaults : Obligations.SendInstallFaults := by
  unfold Obligations.SendInstallFaults
  intro s a rest hf ha hp hz hidle
  have raises {f : Fault} (h : installFault a = some f) : step s = .next (raiseFault f (setAgenda rest s)) := by
    rw [step_spin_of_idle hf ha hp hz hidle, install_of_fault h]
  exact ⟨fun hodd => raises (installFault_odd hodd), fun heven hcmd => raises (installFault_commands_wrap heven hcmd),
    fun heven hcmd hrx => raises (installFault_buffer_wraps heven hcmd hrx)⟩

/-! ## `done()` (R196, R220) -/

/-- A taken event whose handler code calls `done()` is the invocation after the answer (R196, R220). -/
theorem step_handler_done {s : State} {rest : List Move} (hf : s.M.fault = none) (ha : s.env.agenda = .handler (some .done) :: rest)
    (he : eventTaken s = true) : step s = invocation (callDone (setAgenda rest s)) := by
  rw [step_handler hf (nextMove_cons ha) he, takeMove_cons ha]
  exact runHandlerContext_done hf

/-- With a call-free invocation scheduled, a taken event runs it. -/
theorem step_setAgenda_invocation {s : State} (rest : List Move) (hf : s.M.fault = none) (he : eventTaken s = true) :
    step (setAgenda (.handler none :: rest) s) = invocation (setAgenda rest s) :=
  step_invocation (s := setAgenda (.handler none :: rest) s) hf rfl he

/-- Settles O39: in either context the call is the answer, and in handler context the invocation goes on from it. -/
theorem doneReportsIdle : Obligations.DoneReportsIdle := by
  unfold Obligations.DoneReportsIdle
  intro s rest hf
  refine ⟨fun ha hp hz => step_host_of_canRun hf ha (hostFree_eq hp hz), fun ha hflag hgie => ?_⟩
  have he : eventTaken s = true := (eventTaken_eq_true_iff s).2 ⟨hflag, hgie⟩
  have hdone := step_handler_done hf ha he
  have hcallFree : step (setAgenda (.handler none :: rest) (callDone s)) = invocation (setAgenda rest (callDone s)) :=
    step_setAgenda_invocation rest hf he
  obtain ⟨t, ht⟩ := step_next hf
  have hinv : invocation (callDone (setAgenda rest s)) = .next t := hdone.symm.trans ht
  have kept := invocation_kept hinv
  have hack := invocation_acknowledged (s := callDone (setAgenda rest s)) hflag hinv
  exact ⟨hdone.trans hcallFree.symm, t, ht, kept.host, kept.env, fun hft => (hack.cleared hft).1⟩

end Sys2Proof.Machine
end

section
/-! SUPPORT. The moves whose agent has no enabled step, which pass (60_exceptions.md R210, R220, R221; 40_peripheral.md R111;
43_transaction_controller.md R194, R198). -/

namespace Sys2Proof.Machine

/-! ## The handler and the engine -/

theorem eventTaken_eq_false_iff (s : State) : eventTaken s = false ↔ s.E.flag = false ∨ s.P.gie = false :=
  Bool.and_eq_false_iff

/-- Without a pending and enabled event handler context is not entered, so no call is made in it (R210, R220). -/
theorem step_handler_of_no_event {s : State} {call : Option HandlerCall} {rest : List Move} (hf : s.M.fault = none)
    (ha : s.env.agenda = .handler call :: rest) (he : eventTaken s = false) : step s = .next (setAgenda rest s) := by
  have he' : eventTaken (setAgenda rest s) = false := he
  rw [step_of_no_fault hf, nextMove_cons ha, takeMove_cons ha]
  simp [performMove, handlerStep, he']

/-- A disarmed engine completes nothing (R111). -/
theorem step_engine_of_disarmed {s : State} {d : Byte} {rest : List Move} (hf : s.M.fault = none)
    (ha : s.env.agenda = .engine d :: rest) (hc : s.E.cnt = 0) : step s = .next (setAgenda rest s) := by
  rw [step_engine hf (nextMove_cons ha), takeMove_cons ha]
  rcases engineStep_cases d (setAgenda rest s) with ⟨_, e⟩ | ⟨hne, _⟩
  · rw [e]
  · exact absurd hc hne

/-! ## The host -/

/-- A sleeping host has no move (R221, log 13). -/
theorem hostCanRun_of_asleep (op : HostOp) {s : State} (hz : s.P.wakeStatus &&& s.env.params.sleepBits ≠ 0#16) :
    hostCanRun op s = false := by
  have h : hostAsleep s = true := decide_eq_true hz
  cases op <;> simp [hostCanRun, hostFree, h]

/-- The busy-wait is a call's own (R194, log 12). -/
theorem hostCanRun_spin_of_no_call {s : State} (hp : s.host.pending = none) : hostCanRun .spin s = false := by
  simp [hostCanRun, hostHolds, hp]

theorem isIdle_eq_false_iff (s : State) : isIdle s = false ↔ s.S.state ≠ Config.idleCode := decide_eq_false_iff_not

/-- During a transaction the host reads nothing outside the receive buffer, free or not (R198). -/
theorem hostCanRun_readByte_of_active {s : State} {a : Addr} (hactive : s.S.state ≠ Config.idleCode)
    (hrx : inRxRegion s.M.rxRegion a = false) : hostCanRun (.readByte a) s = false := by
  simp [hostCanRun, (isIdle_eq_false_iff s).2 hactive, hrx]

/-- During a transaction the host has no write outside both regions, free or not (R72, R198). -/
theorem hostCanRun_writeByte_of_active {s : State} {a : Addr} (v : Byte) (hactive : s.S.state ≠ Config.idleCode)
    (hcmd : inCmdRegion s.M.cmdRegion a = false) (hrx : inRxRegion s.M.rxRegion a = false) :
    hostCanRun (.writeByte a v) s = false := by
  simp [hostCanRun, (isIdle_eq_false_iff s).2 hactive, inInstalledRegion, hcmd, hrx]

/-- Settles O29: each of these moves is one that its agent cannot make. -/
theorem disabledMovesPass : Obligations.DisabledMovesPass := by
  unfold Obligations.DisabledMovesPass
  intro s rest hf
  refine ⟨fun call ha hno => ?_, fun d ha hc => ?_, fun a ha hactive hrx => ?_, fun a v ha hactive hcmd hrx => ?_,
    fun op ha hno => ?_⟩
  · exact step_handler_of_no_event hf ha ((eventTaken_eq_false_iff s).2 hno)
  · exact step_engine_of_disarmed hf ha hc
  · exact step_host_of_cannotRun hf ha (hostCanRun_readByte_of_active hactive (inRxRegion_eq_false hrx))
  · exact step_host_of_cannotRun hf ha
      (hostCanRun_writeByte_of_active v hactive (inCmdRegion_eq_false hcmd) (inRxRegion_eq_false hrx))
  · refine step_host_of_cannotRun hf ha ?_
    rcases hno with hz | ⟨hspin, hp⟩ | ⟨rfl, hp⟩
    · exact hostCanRun_of_asleep op hz
    · exact hostCanRun_of_holds hp hspin
    · exact hostCanRun_spin_of_no_call hp

end Sys2Proof.Machine
end

section
/-! SUPPORT. Power-on: the reset state as the power-on of a draw, and every canonical memory as a draw's own cells (10_state.md R41;
70_reset_and_hazards.md R240, R243). -/

namespace Sys2Proof.Machine

namespace Memory

theorem putFront_of_ne_unlisted {v : Byte} (hv : v ≠ unlisted) (k : Nat) (m : List Host.Cell) : putFront k v m = (k, v) :: m :=
  if_neg hv

/-- A byte with a value of its own, written below every listed key, becomes the first cell. -/
theorem put_of_keysAbove {k : Nat} {v : Byte} {m : List Host.Cell} (ha : keysAbove k m = true) (hv : v ≠ unlisted) :
    put m k v = (k, v) :: m := by
  cases m with
  | nil => exact putFront_of_ne_unlisted hv k []
  | cons c rest =>
    obtain ⟨⟨hlt, _⟩, _⟩ := (keysAbove_cons_iff k c rest).1 ha
    rw [put, if_pos hlt, putFront_of_ne_unlisted hv]

/-- A canonical memory is what its own cells describe, so a power-on draw reaches every one (log 9). -/
theorem ofCells_of_wf {m : List Host.Cell} (hw : wf m = true) : ofCells m = m := by
  induction m with
  | nil => rfl
  | cons c rest ih =>
    obtain ⟨hkey, hval, habove, hrest⟩ := (wf_cons_iff c rest).1 hw
    rw [ofCells, ih hrest, Nat.mod_eq_of_lt hkey, put_of_keysAbove habove hval]

end Memory

/-- The values that the reset state has in the fields the spec leaves unspecified (log 1, 2, 3). -/
def resetDraw : PowerOnDraw where
  cmdPtr := 0#16
  cmdLen := 0#16
  rxPtr := 0#16
  wakeMask := 0#16
  engine := ⟨false, 0#8, 0, false⟩
  flag := false
  gie := false
  wakeStatus := 0#16
  mem := []

/-- The reset state is one of the power-on states, so what holds of all of them holds of it (R240, R243). -/
theorem powerOn_resetDraw : powerOn resetDraw State.reset = State.reset := rfl

/-- A power-on move at the head of the agenda, at any time (R243). -/
theorem step_powerOn_cons {s : State} {d : PowerOnDraw} {rest : List Move} (hf : s.M.fault = none)
    (ha : s.env.agenda = .powerOn d :: rest) : step s = .next (powerOn d (setAgenda rest s)) := by
  rw [step_powerOn hf (nextMove_cons ha), takeMove_cons ha]

/-- Settles O43: the step is the power-on of its draw, and a canonical memory is rebuilt cell by cell. -/
theorem powerOnAtAnyTime : Obligations.PowerOnAtAnyTime := by
  unfold Obligations.PowerOnAtAnyTime
  refine ⟨fun s d rest hf ha => ?_, fun m hw => Memory.ofCells_of_wf hw⟩
  exact ⟨powerOn d (setAgenda rest s), step_powerOn_cons hf ha, rfl, Memory.wf_ofCells d.mem, rfl, rfl, rfl, rfl, rfl, rfl⟩

/-- Settles O42: each is a field that power-on sets to the value the spec gives (R41). -/
theorem resetState : Obligations.ResetState := by
  unfold Obligations.ResetState
  exact ⟨rfl, rfl, rfl, rfl, rfl, rfl⟩

/-- Settles O46: every power-on state meets the invariant, and the reset state is one of them. -/
theorem resetMeetsTheInvariants : Obligations.ResetMeetsTheInvariants := by
  unfold Obligations.ResetMeetsTheInvariants
  exact ⟨powerOn_resetDraw ▸ protocolInv_powerOn resetDraw State.reset, Memory.wf_ofCells resetDraw.mem, protocolInv_powerOn⟩

end Sys2Proof.Machine
end
